-- ==== Sys2Proof/Word.lean ====
section
/-! DEFINITION. The words of the OAC Timer Block by width, under the spec's names (spec/00_scope.md R7,
spec/30_encoding.md R80, R87). There is no signed integer anywhere in the block. -/

namespace Sys2Proof

/-- A 64-bit command word, and the 64-bit `res_value` (30_encoding.md R80, R89). -/
abbrev Word := BitVec 64

/-- `u8`: a register of the register space, a preload, a duty cycle (00_scope.md R7). -/
abbrev Byte := BitVec 8

/-- `u32`: repeat counts, overflow counts and binary32 patterns (00_scope.md R7). -/
abbrev Word32 := BitVec 32

/-- A 3-bit clock-select code, the field `CS` (30_encoding.md R86). -/
abbrev ClockCode := BitVec 3

/-- A 3-bit register-space index (20_memory.md R60). -/
abbrev RegIndex := BitVec 3

/-- `PinRef`: an opaque 8-bit name of one digital pin (30_encoding.md R87). -/
abbrev PinRef := BitVec 8

/-- `CallbackRef`: an opaque 16-bit name of a callback; 0 is the null reference (30_encoding.md R87). -/
abbrev CallbackRef := BitVec 16

end Sys2Proof
end

