-- ==== Sys2Proof/Syntax.lean ====
section
/-! DEFINITION. The operations of the block as syntax: one constructor for each row of spec/opcode_table.json
(spec/30_encoding.md R81, R90), each operand at exactly the width its field has. -/

namespace Sys2Proof

inductive Instr where
  /-- `PLAN_DELAY ms` (41_delay_planner.md R130). -/
  | planDelay (ms : Word32)
  /-- `DELAY_BLOCKING cs, preload, repeat` (42_blocking_timer.md R150). -/
  | delayBlocking (cs : ClockCode) (preload : Byte) (rep : Word32)
  /-- `PWM_CONFIGURE khz, pin` (43_pwm_engine.md R171). -/
  | pwmConfigure (pin : PinRef) (khz : Word32)
  /-- `PWM_START duty` (43_pwm_engine.md R172). -/
  | pwmStart (duty : Byte)
  /-- `PWM_STOP` (43_pwm_engine.md R177). -/
  | pwmStop
  /-- `SCHEDULE ms, callback, periodic` (44_callback_timer.md R201). -/
  | schedule (periodic : Bool) (callback : CallbackRef) (ms : Word32)
  /-- `CANCEL` (44_callback_timer.md R202). -/
  | cancel
  /-- `SET_DIVIDER cs` (45_register_ops.md R230). -/
  | setDivider (cs : ClockCode)
  /-- `SET_PRELOAD value` (45_register_ops.md R231). -/
  | setPreload (value : Byte)
  /-- `READ_OVF` (45_register_ops.md R232). -/
  | readOvf
  /-- `CLEAR_OVF` (45_register_ops.md R233). -/
  | clearOvf
  /-- `REG_READ idx` (45_register_ops.md R234). -/
  | regRead (idx : RegIndex)
  /-- `REG_WRITE idx, value` (45_register_ops.md R235). -/
  | regWrite (idx : RegIndex) (value : Byte)
  /-- `IRQ_DISABLE` (45_register_ops.md R236). -/
  | irqDisable
  /-- `IRQ_ENABLE` (45_register_ops.md R237). -/
  | irqEnable
  /-- `ON_COMPARE_MATCH` (44_callback_timer.md R205). -/
  | onCompareMatch
  /-- `ON_OVERFLOW` (44_callback_timer.md R203). -/
  | onOverflow
deriving DecidableEq, Repr, Inhabited

end Sys2Proof
end

