-- ==== Sys2Proof/Decode.lean ====
section
/-! DEFINITION. The decoder, total on any command word and rejecting by name, and after it the encoder, both written
from the formats and the opcode map of spec/30_encoding.md R80 to R91. -/

namespace Sys2Proof

/-- Why a word is ILLEGAL (30_encoding.md R91). -/
inductive Illegal where
  /-- The opcode is in no row of the table. -/
  | unassignedOpcode (op : Byte)
  /-- A listed opcode with a 1 in a bit that its format reserves as zero. -/
  | reservedBits (op : Byte)
deriving DecidableEq, Repr

/-- `w[63:56]` (30_encoding.md R80). -/
def opcodeOf (w : Word) : Byte := w.extractLsb' 56 8

/-- The word carries `i` if its reserved bits, those of `mask` below the opcode, are 0 (30_encoding.md R80, R91). -/
def ifReservedZero (w : Word) (reserved : Word) (i : Instr) : Except Illegal Instr :=
  if w &&& reserved = 0 then .ok i else .error (.reservedBits (opcodeOf w))

/-- The decoder (30_encoding.md R81 to R91): formats F, P, C, B, N, S, K, R and W. -/
def decode (w : Word) : Except Illegal Instr :=
  match (opcodeOf w).toNat with
  | 0x01 => ifReservedZero w 0x00FFFFFF00000000 (.planDelay (w.extractLsb' 0 32))
  | 0x02 => ifReservedZero w 0x00FFF80000000000
      (.delayBlocking (w.extractLsb' 40 3) (w.extractLsb' 32 8) (w.extractLsb' 0 32))
  | 0x03 => ifReservedZero w 0x00FFFF0000000000 (.pwmConfigure (w.extractLsb' 32 8) (w.extractLsb' 0 32))
  | 0x04 => ifReservedZero w 0x00FFFFFFFFFFFF00 (.pwmStart (w.extractLsb' 0 8))
  | 0x05 => ifReservedZero w 0x00FFFFFFFFFFFFFF .pwmStop
  | 0x06 => ifReservedZero w 0x00FE000000000000
      (.schedule (w.getLsbD 48) (w.extractLsb' 32 16) (w.extractLsb' 0 32))
  | 0x07 => ifReservedZero w 0x00FFFFFFFFFFFFFF .cancel
  | 0x10 => ifReservedZero w 0x00FFFFFFFFFFFFF8 (.setDivider (w.extractLsb' 0 3))
  | 0x11 => ifReservedZero w 0x00FFFFFFFFFFFF00 (.setPreload (w.extractLsb' 0 8))
  | 0x12 => ifReservedZero w 0x00FFFFFFFFFFFFFF .readOvf
  | 0x13 => ifReservedZero w 0x00FFFFFFFFFFFFFF .clearOvf
  | 0x14 => ifReservedZero w 0x00FFFFFFFFFFF8FF (.regRead (w.extractLsb' 8 3))
  | 0x15 => ifReservedZero w 0x00FFFFFFFFFFF800 (.regWrite (w.extractLsb' 8 3) (w.extractLsb' 0 8))
  | 0x18 => ifReservedZero w 0x00FFFFFFFFFFFFFF .irqDisable
  | 0x19 => ifReservedZero w 0x00FFFFFFFFFFFFFF .irqEnable
  | 0x20 => ifReservedZero w 0x00FFFFFFFFFFFFFF .onCompareMatch
  | 0x21 => ifReservedZero w 0x00FFFFFFFFFFFFFF .onOverflow
  | _ => .error (.unassignedOpcode (opcodeOf w))

/-- The command word of an operation (30_encoding.md R81 to R85): opcode, zeros in the reserved places, operands. -/
def encode : Instr → Word
  | .planDelay ms => 0x01#8 ++ 0#24 ++ ms
  | .delayBlocking cs preload rep => 0x02#8 ++ 0#13 ++ cs ++ preload ++ rep
  | .pwmConfigure pin khz => 0x03#8 ++ 0#16 ++ pin ++ khz
  | .pwmStart duty => 0x04#8 ++ 0#48 ++ duty
  | .pwmStop => 0x05#8 ++ 0#56
  | .schedule periodic callback ms => 0x06#8 ++ 0#7 ++ BitVec.ofBool periodic ++ callback ++ ms
  | .cancel => 0x07#8 ++ 0#56
  | .setDivider cs => 0x10#8 ++ 0#53 ++ cs
  | .setPreload value => 0x11#8 ++ 0#48 ++ value
  | .readOvf => 0x12#8 ++ 0#56
  | .clearOvf => 0x13#8 ++ 0#56
  | .regRead idx => 0x14#8 ++ 0#45 ++ idx ++ 0#8
  | .regWrite idx value => 0x15#8 ++ 0#45 ++ idx ++ value
  | .irqDisable => 0x18#8 ++ 0#56
  | .irqEnable => 0x19#8 ++ 0#56
  | .onCompareMatch => 0x20#8 ++ 0#56
  | .onOverflow => 0x21#8 ++ 0#56

/-- One row of the opcode map: the constructor family by its mnemonic, `match` and `mask` (30_encoding.md R90). -/
structure OpcodeRow where
  mnemonic : String
  matchBits : Word
  maskBits : Word
deriving DecidableEq, Repr

/-- The row an operation belongs to, as 30_encoding.md R90 prints it. -/
def Instr.row : Instr → OpcodeRow
  | .planDelay _ => ⟨"PLAN_DELAY", 0x0100000000000000, 0xFFFFFFFF00000000⟩
  | .delayBlocking _ _ _ => ⟨"DELAY_BLOCKING", 0x0200000000000000, 0xFFFFF80000000000⟩
  | .pwmConfigure _ _ => ⟨"PWM_CONFIGURE", 0x0300000000000000, 0xFFFFFF0000000000⟩
  | .pwmStart _ => ⟨"PWM_START", 0x0400000000000000, 0xFFFFFFFFFFFFFF00⟩
  | .pwmStop => ⟨"PWM_STOP", 0x0500000000000000, 0xFFFFFFFFFFFFFFFF⟩
  | .schedule _ _ _ => ⟨"SCHEDULE", 0x0600000000000000, 0xFFFE000000000000⟩
  | .cancel => ⟨"CANCEL", 0x0700000000000000, 0xFFFFFFFFFFFFFFFF⟩
  | .setDivider _ => ⟨"SET_DIVIDER", 0x1000000000000000, 0xFFFFFFFFFFFFFFF8⟩
  | .setPreload _ => ⟨"SET_PRELOAD", 0x1100000000000000, 0xFFFFFFFFFFFFFF00⟩
  | .readOvf => ⟨"READ_OVF", 0x1200000000000000, 0xFFFFFFFFFFFFFFFF⟩
  | .clearOvf => ⟨"CLEAR_OVF", 0x1300000000000000, 0xFFFFFFFFFFFFFFFF⟩
  | .regRead _ => ⟨"REG_READ", 0x1400000000000000, 0xFFFFFFFFFFFFF8FF⟩
  | .regWrite _ _ => ⟨"REG_WRITE", 0x1500000000000000, 0xFFFFFFFFFFFFF800⟩
  | .irqDisable => ⟨"IRQ_DISABLE", 0x1800000000000000, 0xFFFFFFFFFFFFFFFF⟩
  | .irqEnable => ⟨"IRQ_ENABLE", 0x1900000000000000, 0xFFFFFFFFFFFFFFFF⟩
  | .onCompareMatch => ⟨"ON_COMPARE_MATCH", 0x2000000000000000, 0xFFFFFFFFFFFFFFFF⟩
  | .onOverflow => ⟨"ON_OVERFLOW", 0x2100000000000000, 0xFFFFFFFFFFFFFFFF⟩

/-- The instruction read from a word whose bits are `w`, of which the table gives `nbits`; the bits above are 0. A
command word has one length, 64 bits, so a number of 2^64 or more is no command word (30_encoding.md R80, R93). -/
def decodeTableWord (nbits w : Nat) : Option Instr :=
  let v := w % 2 ^ nbits
  if v < 2 ^ 64 then
    match decode (BitVec.ofNat 64 v) with
    | .ok i => some i
    | .error _ => none
  else none

end Sys2Proof
end

