-- ==== Sys2Proof/Config.lean ====
section
/-! DEFINITION. What an implementation fixes (spec/00_scope.md R6) and the values the spec leaves free
(spec/93_implementation_defined.md, treatment "any value"). The parameters are carried in State
(notes/assumptions/1.md); the free values are constants without a body. -/

namespace Sys2Proof

/-- The seven dividers of the fixed ordered set {1, 8, 32, 64, 128, 256, 1024} (40_prescaler_counter.md R110). -/
inductive Divider where
  | d1 | d8 | d32 | d64 | d128 | d256 | d1024
deriving DecidableEq, Repr, Inhabited

/-- `pin(p).dir` (10_state.md R41). -/
inductive PinDir where
  | input | output
deriving DecidableEq, Repr, Inhabited

/-- `pin(p).level` (10_state.md R41). -/
inductive PinLevel where
  | low | high
deriving DecidableEq, Repr, Inhabited

/-- One digital pin: its direction and its output latch (10_state.md R41, 60_exceptions.md R285). -/
structure PinState where
  dir   : PinDir
  level : PinLevel
deriving DecidableEq, Repr, Inhabited

/-- `IRQ_POLICY` (70_reset_and_hazards.md R311, R312). -/
inductive IrqPolicy where
  | prompt | free
deriving DecidableEq, Repr, Inhabited

/-- The parameters of one timer unit: `F_CPU` in Hz and `DIVIDER_SET`, ascending (00_scope.md R6). -/
structure UnitConfig where
  fCpu     : Nat
  dividers : List Divider
deriving DecidableEq, Repr, Inhabited

/-- A choice of which agent takes the next step (70_reset_and_hazards.md R310). A number names a timer unit.
`pinWrite` is a write of a pin by the rest of the firmware (60_exceptions.md R289). -/
inductive Turn where
  | host
  | tick     (k : Nat)
  | poll     (k : Nat)
  | dispatch (k : Nat)
  | pinWrite (k : Nat) (p : PinRef) (st : PinState)
deriving DecidableEq, Repr, Inhabited

/-- The spec's default `DIVIDER_SET`, all seven (00_scope.md R6). -/
def Config.fullSet : List Divider := [.d1, .d8, .d32, .d64, .d128, .d256, .d1024]

/-- The spec's default parameters of a unit: 8 MHz and the full set (00_scope.md R6, 92_eei_decisions.md D1, D2). -/
def Config.default : UnitConfig := { fCpu := 8000000, dividers := Config.fullSet }

/-- FREE VALUE: which agent moves next where the input list of turns has ended. 70_reset_and_hazards.md R310 to R312
give no rule for it, so nothing can be proved of it (notes/assumptions/3.md). -/
opaque Config.freeTurn : Nat → Turn

/-- FREE VALUE: how many more free choices may be made under FREE before a fair turn is due, after the n-th turn that
was not chosen. It has no bound that a proof could use, since 70_reset_and_hazards.md R312 says "eventually" only
(notes/assumptions/8.md). -/
opaque Config.freePatience : Nat → Nat

/-- FREE VALUE: the level `get()` reads on a pin whose direction is `In`, at the n-th reading
(93_implementation_defined.md U19; notes/assumptions/10.md). -/
opaque Config.externalLevel : Nat → PinRef → PinLevel

end Sys2Proof
end

