-- ==== Sys2Proof/Machine/State.lean ====
section
/-! DEFINITION. Every piece of state the spec gives the machine (spec/10_state.md R22 to R41), as plain data, and its
value after reset (spec/10_state.md R44). The parameters of spec/00_scope.md R6 and the inputs of the environment stand
beside it; INVENTORY.md, State, says which is which. -/

namespace Sys2Proof.Machine

/-- TimerPlan: "{divider: ClockDivider, preload_value: u8, repeat_count: u32 (0 if the delay fits in one period)}"
(10_state.md R35). -/
structure TimerPlan where
  divider : Divider
  preload : Byte
  rep     : Word32
deriving DecidableEq, Repr, Inhabited

/-- The fields of the five hardware registers; reserved bits read 0 and are not stored (10_state.md R22 to R28, R30). -/
structure Regs where
  cs      : ClockCode
  count   : Byte
  compare : Byte
  ovf     : Bool
  cmf     : Bool
  ovfIe   : Bool
  cmpIe   : Bool
deriving DecidableEq, Repr

/-- Which engine the counter currently works for (10_state.md R31). -/
inductive Owner where
  | idle | blocking | pwm | callback
deriving DecidableEq, Repr

/-- Which phase the counter is timing now (10_state.md R34). -/
inductive Phase where
  | onPhase | offPhase
deriving DecidableEq, Repr

/-- `pwm_pin` and `pwm_period_ms`, which hold a value exactly when `pwm_configured` is 1 (10_state.md R32). -/
structure PwmConfig where
  pin      : PinRef
  periodMs : Rat
deriving DecidableEq, Repr

/-- PWMState (10_state.md R32 to R34). `pwm_configured` is `config.isSome` (notes/assumptions/9.md). -/
structure Pwm where
  config  : Option PwmConfig
  onPlan  : Option TimerPlan
  offPlan : Option TimerPlan
  phase   : Phase
deriving DecidableEq, Repr

/-- CallbackSchedule and `cb_log`, oldest invocation first (10_state.md R36, R37, R40). -/
structure Callback where
  callback : Option CallbackRef
  target   : Word32
  count    : Word32
  preload  : Byte
  periodic : Bool
  log      : List CallbackRef
deriving DecidableEq, Repr

/-- The blocking executor (10_state.md R38). -/
structure Blocking where
  active    : Bool
  remaining : Word32
deriving DecidableEq, Repr

/-- The result registers `res_status` and `res_value` (10_state.md R39). -/
structure Results where
  status : Byte
  value  : Word
deriving DecidableEq, Repr

/-- What one invocation of a callback does to the block, a value of the parameter CALLBACK_EFFECT: it issues operations
and returns, or it never returns (44_callback_timer.md R214, 93_implementation_defined.md U9, U10). -/
inductive CallbackRun where
  | returns (ops : List Instr)
  | never
deriving DecidableEq, Repr

/-- One timer unit: all state of 10_state.md but `GIE` (60_exceptions.md R290), with its parameters `cfg` and
`cbEffect`. `cbEffect` is CALLBACK_EFFECT as an input, one entry for each coming invocation of a callback; where it
has ended an invocation does nothing to the block, the spec's default (44_callback_timer.md R214;
notes/assumptions/7.md). -/
structure TimerUnit where
  cfg      : UnitConfig
  regs     : Regs
  owner    : Owner
  pwm      : Pwm
  cb       : Callback
  bt       : Blocking
  res      : Results
  pins     : Vector PinState 256
  cbEffect : List CallbackRun
deriving DecidableEq, Repr

/-- A command word the host has still to issue, and the number of the timer unit it is issued to
(10_state.md R21, 60_exceptions.md R290). -/
structure Command where
  unit : Nat
  word : Word
deriving DecidableEq, Repr

/-- The whole system: its timer units (`before`, `unit`, `after`, in their fixed order, `unit` being the one the current
operation addresses), the global interrupt enable they share, IRQ_POLICY, and the inputs: the host's remaining commands
and the choices of the coming steps with the two counters of weak fairness (70_reset_and_hazards.md R310, R312;
notes/assumptions/3.md, 5.md, 6.md, 8.md). -/
structure State where
  gie       : Bool
  policy    : IrqPolicy
  before    : List TimerUnit
  unit      : TimerUnit
  after     : List TimerUnit
  hostQueue : List Command
  turns     : List Turn
  freeIndex : Nat
  fairIndex : Nat
  patience  : Nat
deriving DecidableEq, Repr

/-- Why the machine stops. The spec has no trap (60_exceptions.md R260), so this is the model's own and safe. -/
inductive Fault where
  /-- Raised by `Machine.perform`: the host addressed a timer unit whose number is not below `N_UNITS`. Safe: the
  spec says nothing of such a command and the model goes no further. -/
  | noSuchUnit
  /-- Raised by a handler body (`Machine.execOnOverflow`, `Machine.execOnCompareMatch`, `Machine.dispatchStep`) that
  invokes a callback which never returns: the handler's atomic step never ends and nobody makes further progress, a
  stuck state (93_implementation_defined.md U10, 70_reset_and_hazards.md R325). Safe: the machine really stops. -/
  | callbackNeverReturns
deriving DecidableEq, Repr

/-- Why an instruction has no meaning. -/
inductive Refusal where
  /-- Raised by an arm of `Machine.exec` whose instruction has no meaning yet. Safe. No arm raises it now. -/
  | notModelled (mnemonic : String)
deriving DecidableEq, Repr

/-- One timer unit after reset, value by value from 10_state.md R44, at the parameters `cfg`. -/
def TimerUnit.reset (cfg : UnitConfig) : TimerUnit where
  cfg := cfg
  regs := { cs := 0, count := 0, compare := 0, ovf := false, cmf := false, ovfIe := false, cmpIe := false }
  owner := .idle
  pwm := { config := none, onPlan := none, offPlan := none, phase := .onPhase }
  cb := { callback := none, target := 0, count := 0, preload := 0, periodic := false, log := [] }
  bt := { active := false, remaining := 0 }
  res := { status := 0, value := 0 }
  pins := Vector.replicate 256 { dir := .input, level := .low }
  cbEffect := []

/-- The machine right after reset (10_state.md R44, 70_reset_and_hazards.md R301) at the spec's default parameters
(00_scope.md R6): one unit, PROMPT, nothing for the host to issue. -/
def State.reset : State where
  gie := false
  policy := .prompt
  before := []
  unit := TimerUnit.reset Config.default
  after := []
  hostQueue := []
  turns := []
  freeIndex := 0
  fairIndex := 0
  patience := 0

end Sys2Proof.Machine
end

