-- ==== Sys2Proof/Machine/Flags.lean ====
section
/-! DEFINITION. Every flag computation of the spec: the two counter events, write-one-to-clear, pending and eligible
interrupts (spec/40_prescaler_counter.md R118 to R120; spec/20_memory.md R66; spec/60_exceptions.md R268, R269). -/

namespace Sys2Proof.Machine

/-- The two interrupt sources of a unit (60_exceptions.md R267). -/
inductive Source where
  | overflow | compareMatch
deriving DecidableEq, Repr

/-- `OVF` after a tick that takes the counter to `new`: set on a wrap to 0, sticky otherwise (R118, R119). -/
def ovfAfterTick (new : Byte) (ovf : Bool) : Bool := ovf || decide (new = 0)

/-- `CMF` after a tick that takes the counter to `new`: set when it equals `COMPARE`, sticky otherwise (R118, R120). -/
def cmfAfterTick (new compare : Byte) (cmf : Bool) : Bool := cmf || decide (new = compare)

/-- Write-one-to-clear of one flag: a 1 clears it, a 0 leaves it alone, no write sets it (20_memory.md R66). -/
def writeOneToClear (bit flag : Bool) : Bool := flag && !bit

/-- A source is pending while its flag is 1 (60_exceptions.md R268). -/
def Regs.pending (r : Regs) : Source → Bool
  | .overflow => r.ovf
  | .compareMatch => r.cmf

/-- A source is enabled while its bit in MASK is 1 (60_exceptions.md R268). -/
def Regs.enabled (r : Regs) : Source → Bool
  | .overflow => r.ovfIe
  | .compareMatch => r.cmpIe

/-- A source is eligible when pending and enabled and `GIE` = 1 (60_exceptions.md R268). -/
def eligible (gie : Bool) (u : TimerUnit) (src : Source) : Bool :=
  u.regs.pending src && u.regs.enabled src && gie

/-- The eligible source of highest priority: compare match above overflow (60_exceptions.md R269). -/
def topSource (gie : Bool) (u : TimerUnit) : Option Source :=
  if eligible gie u .compareMatch then some .compareMatch
  else if eligible gie u .overflow then some .overflow
  else none

/-- The flag of the served source, cleared (60_exceptions.md R270). -/
def Regs.clearFlag (r : Regs) : Source → Regs
  | .overflow => { r with ovf := false }
  | .compareMatch => { r with cmf := false }

end Sys2Proof.Machine
end

