-- ==== Sys2Proof/Machine/Operands.lean ====
section
/-! DEFINITION. Operand forms: the clock-select code and its divider, the ClockDivider table, binary32 operands,
and the dump enumerations (spec/30_encoding.md R86 to R88, R96; spec/40_prescaler_counter.md R110 to R114). -/

namespace Sys2Proof

/-- The clock-rate reduction factor of a divider (40_prescaler_counter.md R110). -/
def Divider.value : Divider → Nat
  | .d1 => 1
  | .d8 => 8
  | .d32 => 32
  | .d64 => 64
  | .d128 => 128
  | .d256 => 256
  | .d1024 => 1024

/-- `code(d)` (30_encoding.md R86). -/
def Divider.code : Divider → ClockCode
  | .d1 => 1
  | .d8 => 2
  | .d32 => 3
  | .d64 => 4
  | .d128 => 5
  | .d256 => 6
  | .d1024 => 7

/-- `div(c)`; `none` is the stopped clock (30_encoding.md R86). -/
def divOf (c : ClockCode) : Option Divider :=
  match c.toNat with
  | 1 => some .d1
  | 2 => some .d8
  | 3 => some .d32
  | 4 => some .d64
  | 5 => some .d128
  | 6 => some .d256
  | 7 => some .d1024
  | _ => none

/-- May the code be stored in `CS`: it is 0, or its divider is a member of `DIVIDER_SET`
(40_prescaler_counter.md R116, 20_memory.md R63). -/
def codeSupported (cfg : UnitConfig) (c : ClockCode) : Bool :=
  match divOf c with
  | none => true
  | some d => cfg.dividers.contains d

/-- `D_MIN`, the first element of `DIVIDER_SET`; the fallback is never used when the set is well formed (00_scope.md R6). -/
def dMin (cfg : UnitConfig) : Divider := cfg.dividers.headD .d1

/-- `D_MAX`, the last element of `DIVIDER_SET`; the fallback is never used when the set is well formed (00_scope.md R6). -/
def dMax (cfg : UnitConfig) : Divider := cfg.dividers.getLastD .d1024

/-- `MAX_COUNT` (00_scope.md R6). -/
def maxCount : Nat := 256

/-- `REPEAT_MAX` = 2^32 − 2 (00_scope.md R6, 41_delay_planner.md R135). -/
def repeatMax : Nat := 2 ^ 32 - 2

/-- `tick_ms(d) = 1000 · d / F_CPU`, exact (40_prescaler_counter.md R112). -/
def tickMs (cfg : UnitConfig) (d : Divider) : Rat := 1000 * (d.value : Rat) / (cfg.fCpu : Rat)

/-- `max_delay(d) = MAX_COUNT · tick_ms(d)` (40_prescaler_counter.md R113). -/
def maxDelay (cfg : UnitConfig) (d : Divider) : Rat := (maxCount : Rat) * tickMs cfg d

/-- `min_delay(d) = tick_ms(d)` (40_prescaler_counter.md R113). -/
def minDelay (cfg : UnitConfig) (d : Divider) : Rat := tickMs cfg d

/-- The magnitude of a finite binary32 pattern with exponent field `e` (not 255) and fraction `m`
(30_encoding.md R88). -/
def binary32Magnitude (e m : Nat) : Rat :=
  if e = 0 then ((m : Nat) : Rat) / ((2 ^ 149 : Nat) : Rat)
  else if 150 ≤ e then (((2 ^ 23 + m) * 2 ^ (e - 150) : Nat) : Rat)
  else ((2 ^ 23 + m : Nat) : Rat) / ((2 ^ (150 - e) : Nat) : Rat)

/-- `val32(b)`: the exact rational of a binary32 pattern, `none` for the non-finite marker (30_encoding.md R88). -/
def val32 (b : Word32) : Option Rat :=
  let e := (b.extractLsb' 23 8).toNat
  let m := (b.extractLsb' 0 23).toNat
  if e = 255 then none
  else some (if b.getLsbD 31 then -binary32Magnitude e m else binary32Magnitude e m)

/-- Is the delay operand a finite value not below 0 (41_delay_planner.md R132)? -/
def delayOk (ms : Word32) : Bool :=
  match val32 ms with
  | none => false
  | some x => decide (0 ≤ x)

/-- Is the frequency operand a finite value above 0 (43_pwm_engine.md R171)? -/
def frequencyOk (khz : Word32) : Bool :=
  match val32 khz with
  | none => false
  | some f => decide (0 < f)

/-- Pin level in a state dump (30_encoding.md R96). -/
def PinLevel.code : PinLevel → Nat
  | .low => 0
  | .high => 1

/-- Pin direction in a state dump (30_encoding.md R96). -/
def PinDir.code : PinDir → Nat
  | .input => 0
  | .output => 1

end Sys2Proof
end

