-- ==== Sys2Proof/Machine/Ops.lean ====
section
/-! DEFINITION. The operations every meaning is made of: ending an operation with a result or an error, the register
space, the pins, the counter's tick, choosing a unit, and taking an interrupt with the return from it
(spec/00_scope.md R8; spec/20_memory.md R62 to R69; spec/60_exceptions.md R260, R270, R272, R285 to R288). -/

namespace Sys2Proof.Machine

/-! Ending an operation. -/

/-- The errors of 60_exceptions.md R261. -/
inductive ErrorCode where
  | invalidArgument | unsupportedRange | frequencyOutOfRange
deriving DecidableEq, Repr

/-- The number of an error in `res_status`; 0 is OK (60_exceptions.md R261). -/
def ErrorCode.code : ErrorCode → Byte
  | .invalidArgument => 1
  | .unsupportedRange => 2
  | .frequencyOutOfRange => 3

/-- `return v`: `res_status <- 0`, `res_value <- v` (00_scope.md R8). -/
def TimerUnit.ret (v : Word) (u : TimerUnit) : TimerUnit := { u with res := { status := 0, value := v } }

/-- `raise e`: `res_status <- code(e)`, `res_value <- 0`, nothing else (00_scope.md R8, 60_exceptions.md R260). -/
def TimerUnit.raise (e : ErrorCode) (u : TimerUnit) : TimerUnit := { u with res := { status := e.code, value := 0 } }

/-- What an operation comes to on a unit: an error, or the unit it leaves and the value it returns. -/
abbrev OpResult := Except ErrorCode (TimerUnit × Word)

/-- Runs an operation on a unit to its end: an error is raised on the unit AS IT WAS (60_exceptions.md R260: the
operation "has changed no state"). -/
def finish (op : TimerUnit → OpResult) (u : TimerUnit) : TimerUnit :=
  match op u with
  | .ok (u', v) => u'.ret v
  | .error e => u.raise e

/-! The system's units. -/

/-- Changes the addressed unit alone. -/
def State.onUnit (s : State) (f : TimerUnit → TimerUnit) : State := { s with unit := f s.unit }

/-- All timer units, in their order (60_exceptions.md R290). -/
def State.allUnits (s : State) : List TimerUnit := s.before ++ s.unit :: s.after

/-- The number of the addressed unit. -/
def State.selected (s : State) : Nat := s.before.length

/-- Addresses the unit numbered `k`, none where the system has no such unit. No unit changes and none moves. -/
def State.focus (s : State) (k : Nat) : Option State :=
  match s.allUnits.drop k with
  | [] => none
  | u :: rest => some { s with before := s.allUnits.take k, unit := u, after := rest }

/-! The register space. -/

/-- `MemRead(i, 1)` (20_memory.md R68, R69). -/
def memRead (idx : RegIndex) (u : TimerUnit) : Except ErrorCode Byte :=
  match idx.toNat with
  | 0 => .ok (0#5 ++ u.regs.cs)
  | 1 => .ok u.regs.count
  | 2 => .ok u.regs.compare
  | 3 => .ok (0#6 ++ BitVec.ofBool u.regs.cmf ++ BitVec.ofBool u.regs.ovf)
  | 4 => .ok (0#6 ++ BitVec.ofBool u.regs.cmpIe ++ BitVec.ofBool u.regs.ovfIe)
  | _ => .error .invalidArgument

/-- `set_divider`: the checked write of `CS` (20_memory.md R63, 40_prescaler_counter.md R116). -/
def writeClock (cs : ClockCode) (u : TimerUnit) : Except ErrorCode TimerUnit :=
  if codeSupported u.cfg cs then .ok { u with regs := { u.regs with cs := cs } } else .error .invalidArgument

/-- `MemWrite(i, 1, v)` (20_memory.md R63 to R67, R69). -/
def memWrite (idx : RegIndex) (v : Byte) (u : TimerUnit) : Except ErrorCode TimerUnit :=
  match idx.toNat with
  | 0 => writeClock (v.extractLsb' 0 3) u
  | 1 => .ok { u with regs := { u.regs with count := v } }
  | 2 => .ok { u with regs := { u.regs with compare := v } }
  | 3 => .ok { u with regs :=
      { u.regs with
        ovf := writeOneToClear (v.getLsbD 0) u.regs.ovf
        cmf := writeOneToClear (v.getLsbD 1) u.regs.cmf } }
  | 4 => .ok { u with regs := { u.regs with ovfIe := v.getLsbD 0, cmpIe := v.getLsbD 1 } }
  | _ => .error .invalidArgument

/-! The pins. -/

/-- The state of pin `p` (10_state.md R41). -/
def TimerUnit.pin (u : TimerUnit) (p : PinRef) : PinState := u.pins[p.toNat]'p.isLt

/-- Replaces the state of pin `p`. -/
def TimerUnit.writePin (p : PinRef) (st : PinState) (u : TimerUnit) : TimerUnit :=
  { u with pins := u.pins.set p.toNat st p.isLt }

/-- `pin(p).set(l)`, whatever the direction is (60_exceptions.md R285). -/
def TimerUnit.setPin (p : PinRef) (l : PinLevel) (u : TimerUnit) : TimerUnit :=
  u.writePin p { u.pin p with level := l }

/-- The opposite level (60_exceptions.md R286). -/
def flipLevel : PinLevel → PinLevel
  | .low => .high
  | .high => .low

/-- `pin(p).toggle()` (60_exceptions.md R286). -/
def TimerUnit.togglePin (p : PinRef) (u : TimerUnit) : TimerUnit := u.setPin p (flipLevel (u.pin p).level)

/-- `pin(p).configure_direction(d)`; the level is not changed (60_exceptions.md R287). -/
def TimerUnit.configurePin (p : PinRef) (d : PinDir) (u : TimerUnit) : TimerUnit :=
  u.writePin p { u.pin p with dir := d }

/-- `pin(p).get()`, which no operation of the block calls: the latch of an output pin, and on an input pin the free
external level of the n-th reading (60_exceptions.md R288, 93_implementation_defined.md U19). -/
def TimerUnit.getPin (u : TimerUnit) (n : Nat) (p : PinRef) : PinLevel :=
  match (u.pin p).dir with
  | .output => (u.pin p).level
  | .input => Config.externalLevel n p

/-! The counter. -/

/-- The effect of `TICK` (40_prescaler_counter.md R118). -/
def tick (u : TimerUnit) : TimerUnit :=
  let new := u.regs.count + 1
  { u with regs :=
      { u.regs with
        count := new
        ovf := ovfAfterTick new u.regs.ovf
        cmf := cmfAfterTick new u.regs.compare u.regs.cmf } }

/-! Taking an interrupt and returning from it. -/

/-- Entry: the flag of the source is cleared and `GIE` becomes 0; nothing is saved (60_exceptions.md R270, R271). -/
def enterHandler (src : Source) (s : State) : State :=
  { s with gie := false, unit := { s.unit with regs := s.unit.regs.clearFlag src } }

/-- Return: `GIE` becomes 1 (60_exceptions.md R270, R272). -/
def leaveHandler (s : State) : State := { s with gie := true }

/-- Taking the interrupt of a source: entry, the handler body, return, as one atomic step (60_exceptions.md R270). -/
def takeInterrupt (src : Source) (body : State → State) (s : State) : State :=
  leaveHandler (body (enterHandler src s))

/-! State dumps. -/

/-- `owner` in a state dump (10_state.md R31, 30_encoding.md R96). -/
def Owner.code : Owner → Nat
  | .idle => 0
  | .blocking => 1
  | .pwm => 2
  | .callback => 3

/-- `phase` in a state dump (10_state.md R34, 30_encoding.md R96). -/
def Phase.code : Phase → Nat
  | .onPhase => 0
  | .offPhase => 1

end Sys2Proof.Machine
end

