-- ==== Sys2Proof/Machine/Planner.lean ====
section
/-! DEFINITION. The DelayPlanner and `PLAN_DELAY` (spec/41_delay_planner.md R130 to R141), in exact rationals. -/

namespace Sys2Proof.Machine

/-- `rem_ticks(p)` (41_delay_planner.md R136). -/
def TimerPlan.remTicks (p : TimerPlan) : Nat :=
  if p.rep = 0 then 256 - p.preload.toNat else (256 - p.preload.toNat) % 256

/-- `total_ticks(p)` (41_delay_planner.md R136). -/
def TimerPlan.totalTicks (p : TimerPlan) : Nat := 256 * p.rep.toNat + p.remTicks

/-- `overflows_to_wait(p)`, a `u32` (41_delay_planner.md R136). -/
def TimerPlan.overflowsToWait (p : TimerPlan) : Word32 := p.rep + (if 0 < p.remTicks then 1 else 0)

/-- `realized_ms(p)` (41_delay_planner.md R136). -/
def TimerPlan.realizedMs (cfg : UnitConfig) (p : TimerPlan) : Rat := (p.totalTicks : Rat) * tickMs cfg p.divider

/-- A plan packed into `res_value` (30_encoding.md R89). -/
def TimerPlan.pack (p : TimerPlan) : Word := 0#21 ++ p.divider.code ++ p.preload ++ p.rep

/-- The single-period branch at divider `d` (41_delay_planner.md R133). -/
def planSingle (cfg : UnitConfig) (d : Divider) (x : Rat) : TimerPlan :=
  let ticks := max 1 (x / tickMs cfg d).floor.toNat
  { divider := d, preload := BitVec.ofNat 8 (256 - ticks), rep := 0 }

/-- The multi-period branch at `D_MAX`, with the range guard (41_delay_planner.md R134, R135). -/
def planMulti (cfg : UnitConfig) (x : Rat) : Except ErrorCode TimerPlan :=
  let d := dMax cfg
  let n := (x / maxDelay cfg d).floor.toNat
  if repeatMax < n then .error .unsupportedRange
  else
    let rticks := ((x - (n : Rat) * maxDelay cfg d) / tickMs cfg d).floor.toNat
    .ok { divider := d, preload := BitVec.ofNat 8 ((256 - rticks) % 256), rep := BitVec.ofNat 32 n }

/-- The function `plan_delay(x)`; `none` is the non-finite marker (41_delay_planner.md R132 to R135, R141). -/
def planDelay (cfg : UnitConfig) (x : Option Rat) : Except ErrorCode TimerPlan :=
  match x with
  | none => .error .invalidArgument
  | some x =>
    if x < 0 then .error .invalidArgument
    else
      match cfg.dividers.find? (fun d => decide (x ≤ maxDelay cfg d)) with
      | some d => .ok (planSingle cfg d x)
      | none => planMulti cfg x

/-- `PLAN_DELAY` on a unit (41_delay_planner.md R130). -/
def opPlanDelay (ms : Word32) (u : TimerUnit) : OpResult :=
  match planDelay u.cfg (val32 ms) with
  | .error e => .error e
  | .ok p => .ok (u, p.pack)

/-- `PLAN_DELAY ms` (41_delay_planner.md R130). -/
def execPlanDelay (ms : Word32) (s : State) : Host.Outcome State Fault Refusal :=
  .next (s.onUnit (finish (opPlanDelay ms)))

end Sys2Proof.Machine
end

