-- ==== Sys2Proof/Machine/BlockingTimer.lean ====
section
/-! DEFINITION. The BlockingTimer: the start step `DELAY_BLOCKING` and the `BT_POLL` step
(spec/42_blocking_timer.md R150 to R158). -/

namespace Sys2Proof.Machine

/-- The plan of a `DELAY_BLOCKING`, if its operands pass the check of 42_blocking_timer.md R151. -/
def blockingPlan (cfg : UnitConfig) (cs : ClockCode) (preload : Byte) (rep : Word32) : Option TimerPlan :=
  match divOf cs with
  | none => none
  | some d =>
    if codeSupported cfg cs && decide (rep.toNat ≤ repeatMax) then
      some { divider := d, preload := preload, rep := rep }
    else none

/-- The start step of the blocking executor (42_blocking_timer.md R152). -/
def startBlocking (p : TimerPlan) (u : TimerUnit) : TimerUnit :=
  { u with
    owner := .blocking
    regs := { u.regs with count := p.preload, ovf := false, cs := p.divider.code }
    bt := { active := true, remaining := p.overflowsToWait } }

/-- The start step of `DELAY_BLOCKING` on a unit. The result registers are written when the delay completes
(42_blocking_timer.md R150 to R154; notes/assumptions/16.md). -/
def opDelayBlocking (cs : ClockCode) (preload : Byte) (rep : Word32) (u : TimerUnit) : TimerUnit :=
  match blockingPlan u.cfg cs preload rep with
  | none => u.raise .invalidArgument
  | some p => startBlocking p u

/-- `DELAY_BLOCKING cs, preload, repeat` (42_blocking_timer.md R150). -/
def execDelayBlocking (cs : ClockCode) (preload : Byte) (rep : Word32) (s : State) : Host.Outcome State Fault Refusal :=
  .next (s.onUnit (opDelayBlocking cs preload rep))

/-- Completion of a blocking delay, with the `OVF` clear and the last decrement of the same step
(42_blocking_timer.md R153, R154). -/
def completeBlocking (u : TimerUnit) : TimerUnit :=
  ({ u with
     regs := { u.regs with ovf := false, cs := 0 }
     bt := { active := false, remaining := 0 }
     owner := .idle } : TimerUnit).ret 0

/-- `BT_POLL`, taken while `bt_active` = 1 (42_blocking_timer.md R153). -/
def btPoll (u : TimerUnit) : TimerUnit :=
  if u.regs.ovf then
    if u.bt.remaining - 1 = 0 then completeBlocking u
    else { u with regs := { u.regs with ovf := false }, bt := { u.bt with remaining := u.bt.remaining - 1 } }
  else u

end Sys2Proof.Machine
end

