-- ==== Sys2Proof/Machine/CallbackTimer.lean ====
section
/-! DEFINITION. The CallbackTimer's operations `SCHEDULE` and `CANCEL` (spec/44_callback_timer.md R200 to R202). Its
service is in Machine/Handlers.lean. -/

namespace Sys2Proof.Machine

/-- `none` for the null reference (30_encoding.md R87). -/
def callbackOf (c : CallbackRef) : Option CallbackRef := if c = 0 then none else some c

/-- Arming the counter for a schedule (44_callback_timer.md R201). -/
def armSchedule (periodic : Bool) (callback : CallbackRef) (p : TimerPlan) (u : TimerUnit) : TimerUnit :=
  { u with
    cb :=
      { u.cb with
        callback := callbackOf callback
        target := p.overflowsToWait
        count := 0
        preload := p.preload
        periodic := periodic }
    owner := .callback
    regs := { u.regs with count := p.preload, ovf := false, cs := p.divider.code, ovfIe := true } }

/-- `SCHEDULE` on a unit (44_callback_timer.md R201). -/
def opSchedule (periodic : Bool) (callback : CallbackRef) (ms : Word32) (u : TimerUnit) : OpResult :=
  match planDelay u.cfg (val32 ms) with
  | .error e => .error e
  | .ok p => .ok (armSchedule periodic callback p u, 0)

/-- `CANCEL` on a unit (44_callback_timer.md R202). -/
def opCancel (u : TimerUnit) : OpResult :=
  .ok ({ u with
         regs := { u.regs with ovfIe := false, cmpIe := false }
         cb := { u.cb with callback := none, count := 0 }
         owner := if u.owner = .callback then .idle else u.owner }, 0)

/-- `SCHEDULE ms, callback, periodic` (44_callback_timer.md R201). -/
def execSchedule (periodic : Bool) (callback : CallbackRef) (ms : Word32) (s : State) :
    Host.Outcome State Fault Refusal :=
  .next (s.onUnit (finish (opSchedule periodic callback ms)))

/-- `CANCEL` (44_callback_timer.md R202). -/
def execCancel (s : State) : Host.Outcome State Fault Refusal := .next (s.onUnit (finish opCancel))

end Sys2Proof.Machine
end

