-- ==== Sys2Proof/Machine/PwmEngine.lean ====
section
/-! DEFINITION. The SoftwarePWMEngine: `PWM_CONFIGURE`, `PWM_START`, `PWM_STOP` and the PWM overflow service
(spec/43_pwm_engine.md R170 to R182). -/

namespace Sys2Proof.Machine

/-- `pwm_configured` (10_state.md R32). -/
def Pwm.configured (p : Pwm) : Bool := p.config.isSome

/-- `PWM_CONFIGURE` on a unit (43_pwm_engine.md R171). -/
def opPwmConfigure (pin : PinRef) (khz : Word32) (u : TimerUnit) : OpResult :=
  match val32 khz with
  | none => .error .invalidArgument
  | some f =>
    if f ≤ 0 then .error .invalidArgument
    else
      .ok (({ u with
              pwm := { u.pwm with config := some { pin := pin, periodMs := 1 / f } }
              regs := { u.regs with ovfIe := true } } : TimerUnit).configurePin pin .output, 0)

/-- `on_time = T · duty / 100` (43_pwm_engine.md R173). -/
def onTime (t : Rat) (duty : Byte) : Rat := t * (duty.toNat : Rat) / 100

/-- `off_time = T − on_time` (43_pwm_engine.md R173). -/
def offTime (t : Rat) (duty : Byte) : Rat := t - onTime t duty

/-- The constant level of duty 0 and 100 (43_pwm_engine.md R174). -/
def startConstant (pin : PinRef) (duty : Byte) (u : TimerUnit) : TimerUnit :=
  ({ u with
     pwm := { u.pwm with onPlan := none, offPlan := none, phase := .onPhase }
     owner := .pwm
     regs := { u.regs with cs := 0, ovf := false, ovfIe := true } } : TimerUnit).setPin pin
    (if duty = 0 then .low else .high)

/-- The two phase plans of a duty between 1 and 99, or the first error (43_pwm_engine.md R175). -/
def phasePlans (cfg : UnitConfig) (t : Rat) (duty : Byte) : Except ErrorCode (TimerPlan × TimerPlan) :=
  if onTime t duty < minDelay cfg (dMin cfg) ∨ offTime t duty < minDelay cfg (dMin cfg) then
    .error .frequencyOutOfRange
  else
    match planDelay cfg (some (onTime t duty)), planDelay cfg (some (offTime t duty)) with
    | .ok a, .ok b => if a.rep = 0 ∧ b.rep = 0 then .ok (a, b) else .error .unsupportedRange
    | _, _ => .error .unsupportedRange

/-- The start transition (43_pwm_engine.md R176). -/
def startWaveform (pin : PinRef) (a b : TimerPlan) (u : TimerUnit) : TimerUnit :=
  ({ u with
     pwm := { u.pwm with onPlan := some a, offPlan := some b, phase := .onPhase }
     owner := .pwm
     regs := { u.regs with count := a.preload, ovf := false, cs := a.divider.code, ovfIe := true } } : TimerUnit).setPin
    pin .high

/-- `PWM_START` on a unit (43_pwm_engine.md R172 to R176). -/
def opPwmStart (duty : Byte) (u : TimerUnit) : OpResult :=
  if 100 < duty.toNat then .error .invalidArgument
  else
    match u.pwm.config with
    | none => .error .invalidArgument
    | some c =>
      if duty = 0 ∨ duty = 100 then .ok (startConstant c.pin duty u, 0)
      else
        match phasePlans u.cfg c.periodMs duty with
        | .error e => .error e
        | .ok (a, b) => .ok (startWaveform c.pin a b u, 0)

/-- `PWM_STOP` on a unit (43_pwm_engine.md R177). -/
def opPwmStop (u : TimerUnit) : OpResult := .ok ({ u with regs := { u.regs with ovfIe := false } }, 0)

/-- `PWM_CONFIGURE khz, pin` (43_pwm_engine.md R171). -/
def execPwmConfigure (pin : PinRef) (khz : Word32) (s : State) : Host.Outcome State Fault Refusal :=
  .next (s.onUnit (finish (opPwmConfigure pin khz)))

/-- `PWM_START duty` (43_pwm_engine.md R172). -/
def execPwmStart (duty : Byte) (s : State) : Host.Outcome State Fault Refusal :=
  .next (s.onUnit (finish (opPwmStart duty)))

/-- `PWM_STOP` (43_pwm_engine.md R177). -/
def execPwmStop (s : State) : Host.Outcome State Fault Refusal := .next (s.onUnit (finish opPwmStop))

/-- The other phase (43_pwm_engine.md R178). -/
def flipPhase : Phase → Phase
  | .onPhase => .offPhase
  | .offPhase => .onPhase

/-- The plan of a phase (43_pwm_engine.md R178). -/
def Pwm.planOf (p : Pwm) : Phase → Option TimerPlan
  | .onPhase => p.onPlan
  | .offPhase => p.offPlan

/-- The PWM overflow service: toggle, flip, reload from the plan of the NEW phase; nothing where a precondition does
not hold (43_pwm_engine.md R178, 60_exceptions.md R266). -/
def pwmService (u : TimerUnit) : TimerUnit :=
  match u.pwm.onPlan, u.pwm.config, u.pwm.planOf (flipPhase u.pwm.phase) with
  | some _, some c, some q =>
    ({ u with
       pwm := { u.pwm with phase := flipPhase u.pwm.phase }
       regs := { u.regs with count := q.preload, cs := q.divider.code } } : TimerUnit).togglePin c.pin
  | _, _, _ => u

end Sys2Proof.Machine
end

