-- ==== Sys2Proof/Machine/RegisterOps.lean ====
section
/-! DEFINITION. The register and interrupt-mask operations (spec/45_register_ops.md R230 to R240). -/

namespace Sys2Proof.Machine

/-- A register-space write as an operation that returns 0 (20_memory.md R62). -/
def opWrite (idx : RegIndex) (v : Byte) (u : TimerUnit) : OpResult :=
  match memWrite idx v u with
  | .error e => .error e
  | .ok u' => .ok (u', 0)

/-- `SET_DIVIDER` on a unit: `MemWrite(0, 1, zext_8(cs))` (45_register_ops.md R230). -/
def opSetDivider (cs : ClockCode) (u : TimerUnit) : OpResult := opWrite 0 (0#5 ++ cs) u

/-- `SET_PRELOAD` on a unit: `MemWrite(1, 1, value)` (45_register_ops.md R231). -/
def opSetPreload (value : Byte) (u : TimerUnit) : OpResult := opWrite 1 value u

/-- `READ_OVF` on a unit (45_register_ops.md R232). -/
def opReadOvf (u : TimerUnit) : OpResult := .ok (u, (BitVec.ofBool u.regs.ovf).setWidth 64)

/-- `CLEAR_OVF` on a unit: `MemWrite(3, 1, 0x01)` (45_register_ops.md R233). -/
def opClearOvf (u : TimerUnit) : OpResult := opWrite 3 0x01 u

/-- `REG_READ` on a unit (45_register_ops.md R234). -/
def opRegRead (idx : RegIndex) (u : TimerUnit) : OpResult :=
  match memRead idx u with
  | .error e => .error e
  | .ok v => .ok (u, v.setWidth 64)

/-- `REG_WRITE` on a unit (45_register_ops.md R235). -/
def opRegWrite (idx : RegIndex) (value : Byte) (u : TimerUnit) : OpResult := opWrite idx value u

/-- `IRQ_DISABLE` on the system (45_register_ops.md R236). -/
def irqDisableOn (s : State) : State := { s with gie := false, unit := s.unit.ret 0 }

/-- `IRQ_ENABLE` on the system (45_register_ops.md R237). -/
def irqEnableOn (s : State) : State := { s with gie := true, unit := s.unit.ret 0 }

/-- `SET_DIVIDER cs` (45_register_ops.md R230). -/
def execSetDivider (cs : ClockCode) (s : State) : Host.Outcome State Fault Refusal :=
  .next (s.onUnit (finish (opSetDivider cs)))

/-- `SET_PRELOAD value` (45_register_ops.md R231). -/
def execSetPreload (value : Byte) (s : State) : Host.Outcome State Fault Refusal :=
  .next (s.onUnit (finish (opSetPreload value)))

/-- `READ_OVF` (45_register_ops.md R232). -/
def execReadOvf (s : State) : Host.Outcome State Fault Refusal := .next (s.onUnit (finish opReadOvf))

/-- `CLEAR_OVF` (45_register_ops.md R233). -/
def execClearOvf (s : State) : Host.Outcome State Fault Refusal := .next (s.onUnit (finish opClearOvf))

/-- `REG_READ idx` (45_register_ops.md R234). -/
def execRegRead (idx : RegIndex) (s : State) : Host.Outcome State Fault Refusal :=
  .next (s.onUnit (finish (opRegRead idx)))

/-- `REG_WRITE idx, value` (45_register_ops.md R235). -/
def execRegWrite (idx : RegIndex) (value : Byte) (s : State) : Host.Outcome State Fault Refusal :=
  .next (s.onUnit (finish (opRegWrite idx value)))

/-- `IRQ_DISABLE` (45_register_ops.md R236). -/
def execIrqDisable (s : State) : Host.Outcome State Fault Refusal := .next (irqDisableOn s)

/-- `IRQ_ENABLE` (45_register_ops.md R237). -/
def execIrqEnable (s : State) : Host.Outcome State Fault Refusal := .next (irqEnableOn s)

end Sys2Proof.Machine
end

