-- ==== Sys2Proof/Machine/Handlers.lean ====
section
/-! DEFINITION. The callback service, the two handler entry points `ON_OVERFLOW` and `ON_COMPARE_MATCH`, and the
interrupt dispatcher (spec/44_callback_timer.md R203 to R214; spec/60_exceptions.md R266 to R273). -/

namespace Sys2Proof.Machine

/-- One operation that a callback issues from inside the handler, where CALLBACK_EFFECT lets it: as the host would, but
`DELAY_BLOCKING` is refused (60_exceptions.md R280), and so are the handler entry points, since handlers never nest
(60_exceptions.md R273; notes/assumptions/7.md). -/
def issueFromCallback (s : State) (i : Instr) : State :=
  match i with
  | .planDelay ms => s.onUnit (finish (opPlanDelay ms))
  | .delayBlocking _ _ _ => s.onUnit (TimerUnit.raise .invalidArgument)
  | .pwmConfigure pin khz => s.onUnit (finish (opPwmConfigure pin khz))
  | .pwmStart duty => s.onUnit (finish (opPwmStart duty))
  | .pwmStop => s.onUnit (finish opPwmStop)
  | .schedule periodic callback ms => s.onUnit (finish (opSchedule periodic callback ms))
  | .cancel => s.onUnit (finish opCancel)
  | .setDivider cs => s.onUnit (finish (opSetDivider cs))
  | .setPreload value => s.onUnit (finish (opSetPreload value))
  | .readOvf => s.onUnit (finish opReadOvf)
  | .clearOvf => s.onUnit (finish opClearOvf)
  | .regRead idx => s.onUnit (finish (opRegRead idx))
  | .regWrite idx value => s.onUnit (finish (opRegWrite idx value))
  | .irqDisable => irqDisableOn s
  | .irqEnable => irqEnableOn s
  | .onCompareMatch => s.onUnit (TimerUnit.raise .invalidArgument)
  | .onOverflow => s.onUnit (TimerUnit.raise .invalidArgument)

/-- CALLBACK_EFFECT of the coming invocation; nothing, the default, where the input has ended
(44_callback_timer.md R214, 70_reset_and_hazards.md R330). A callback that never returns stops the machine before this is
reached (`serviceHangs`). -/
def callbackEffect (s : State) : State :=
  match s.unit.cbEffect with
  | [] => s
  | .never :: _ => s
  | .returns ops :: rest => ops.foldl issueFromCallback (s.onUnit fun u => { u with cbEffect := rest })

/-- `cb_log <- cb_log ++ [c]` (44_callback_timer.md R214). -/
def logCallback (c : CallbackRef) (u : TimerUnit) : TimerUnit := { u with cb := { u.cb with log := u.cb.log ++ [c] } }

/-- `invoke(c)`: the log entry, then CALLBACK_EFFECT (44_callback_timer.md R214). -/
def invoke (c : CallbackRef) (s : State) : State := callbackEffect (s.onUnit (logCallback c))

/-- `cb_count <- cb_count + 1` (44_callback_timer.md R204). -/
def countOverflow (u : TimerUnit) : TimerUnit := { u with cb := { u.cb with count := u.cb.count + 1 } }

/-- One-shot completion: "the schedule disarms itself exactly as `CANCEL` would" (44_callback_timer.md R210). DEDUCED:
`owner` becomes IDLE only where it is CALLBACK, as 10_state.md R31 and 92_eei_decisions.md D27 say, though R210's
pseudocode sets it always; they differ only after a callback that took the counter by `PWM_START`
(notes/assumptions/20.md). -/
def completeOneShot (u : TimerUnit) : TimerUnit :=
  { u with
    regs := { u.regs with ovfIe := false, cmpIe := false }
    cb := { u.cb with callback := none }
    owner := if u.owner = .callback then .idle else u.owner }

/-- What follows an invocation: the count starts again, and the schedule re-arms or completes, on the state the
callback left (44_callback_timer.md R204, 70_reset_and_hazards.md R330). -/
def rearm (reload : Bool) (u : TimerUnit) : TimerUnit :=
  let u := { u with cb := { u.cb with count := 0 } }
  if u.cb.periodic then
    if reload then { u with regs := { u.regs with count := u.cb.preload } } else u
  else completeOneShot u

/-- The callback service; `reload` is 1 from `ON_OVERFLOW` and 0 from `ON_COMPARE_MATCH` (44_callback_timer.md R204). -/
def callbackService (reload : Bool) (s : State) : State :=
  let s := s.onUnit countOverflow
  if s.unit.cb.count = s.unit.cb.target then
    let s := match s.unit.cb.callback with
      | none => s
      | some c => invoke c s
    s.onUnit (rearm reload)
  else s

/-- The body of `on_overflow()`, by `owner` (44_callback_timer.md R203). -/
def overflowBody (s : State) : State :=
  match s.unit.owner with
  | .pwm => s.onUnit pwmService
  | .callback => callbackService true s
  | .idle => s
  | .blocking => s

/-- The body of `on_compare_match()`, by `owner` (44_callback_timer.md R205). -/
def compareBody (s : State) : State :=
  match s.unit.owner with
  | .callback => callbackService false s
  | .pwm => s
  | .idle => s
  | .blocking => s

/-- The handler body of a source (60_exceptions.md R267). -/
def handlerBody : Source → State → State
  | .overflow => overflowBody
  | .compareMatch => compareBody

/-- `IRQ_DISPATCH` on the addressed unit: the eligible source of highest priority is taken; no step where none is
eligible (60_exceptions.md R270). -/
def irqDispatch (s : State) : State :=
  match topSource s.gie s.unit with
  | none => s
  | some src => takeInterrupt src (handlerBody src) s

/-- Does a callback service on this unit invoke a callback that never returns (93_implementation_defined.md U10)? -/
def serviceHangs (u : TimerUnit) : Bool :=
  decide (u.owner = .callback) && decide (u.cb.count + 1 = u.cb.target) && u.cb.callback.isSome &&
    decide (u.cbEffect.head? = some .never)

/-- A step that runs a handler body on the addressed unit: stuck where the body never ends, else the state it leaves
(93_implementation_defined.md U10). -/
def unlessHung (s : State) (t : State) : Host.Outcome State Fault Refusal :=
  if serviceHangs s.unit then .fault .callbackNeverReturns else .next t

/-- The step `IRQ_DISPATCH` of the addressed unit (60_exceptions.md R270). -/
def dispatchStep (s : State) : Host.Outcome State Fault Refusal :=
  match topSource s.gie s.unit with
  | none => .next s
  | some _ => unlessHung s (irqDispatch s)

/-- `ON_COMPARE_MATCH` issued by the host: the body alone, then `return` (44_callback_timer.md R205,
92_eei_decisions.md D40). -/
def execOnCompareMatch (s : State) : Host.Outcome State Fault Refusal :=
  unlessHung s ((compareBody s).onUnit (TimerUnit.ret 0))

/-- `ON_OVERFLOW` issued by the host: the body alone, then `return` (44_callback_timer.md R203,
92_eei_decisions.md D40). -/
def execOnOverflow (s : State) : Host.Outcome State Fault Refusal :=
  unlessHung s ((overflowBody s).onUnit (TimerUnit.ret 0))

end Sys2Proof.Machine
end

