-- ==== Sys2Proof/Machine/Dispatch.lean ====
section
/-! DEFINITION. One arm for each operation of spec/30_encoding.md R90. -/

namespace Sys2Proof.Machine

def exec (i : Instr) (s : State) : Host.Outcome State Fault Refusal :=
  match i with
  | .planDelay ms => Sys2Proof.Machine.execPlanDelay ms s
  | .delayBlocking cs preload rep => Sys2Proof.Machine.execDelayBlocking cs preload rep s
  | .pwmConfigure pin khz => Sys2Proof.Machine.execPwmConfigure pin khz s
  | .pwmStart duty => Sys2Proof.Machine.execPwmStart duty s
  | .pwmStop => Sys2Proof.Machine.execPwmStop s
  | .schedule periodic callback ms => Sys2Proof.Machine.execSchedule periodic callback ms s
  | .cancel => Sys2Proof.Machine.execCancel s
  | .setDivider cs => Sys2Proof.Machine.execSetDivider cs s
  | .setPreload value => Sys2Proof.Machine.execSetPreload value s
  | .readOvf => Sys2Proof.Machine.execReadOvf s
  | .clearOvf => Sys2Proof.Machine.execClearOvf s
  | .regRead idx => Sys2Proof.Machine.execRegRead idx s
  | .regWrite idx value => Sys2Proof.Machine.execRegWrite idx value s
  | .irqDisable => Sys2Proof.Machine.execIrqDisable s
  | .irqEnable => Sys2Proof.Machine.execIrqEnable s
  | .onCompareMatch => Sys2Proof.Machine.execOnCompareMatch s
  | .onOverflow => Sys2Proof.Machine.execOnOverflow s

end Sys2Proof.Machine
end

