-- ==== Sys2Proof/Machine/Schedule.lean ====
section
/-! DEFINITION. The step relation of spec/70_reset_and_hazards.md R310 to R313: which steps are enabled, which of them
IRQ_POLICY lets come next, and what each does. The choice among them is read from `turns`, then from the free value
`Config.freeTurn`, under FREE with the weak fairness R312 asks for (notes/assumptions/3.md, 8.md). -/

namespace Sys2Proof.Machine

/-! Enabled steps. -/

/-- Does the system have a unit numbered `k`, and does it satisfy `f`? -/
def State.unitHas (s : State) (k : Nat) (f : TimerUnit → Bool) : Bool :=
  match s.allUnits[k]? with
  | none => false
  | some u => f u

/-- Is some source of the unit eligible, so that `IRQ_DISPATCH` is enabled on it (60_exceptions.md R270)? -/
def irqDue (gie : Bool) (u : TimerUnit) : Bool := (topSource gie u).isSome

/-- Would a poll of the blocking executor see a set flag (70_reset_and_hazards.md R311)? -/
def pollDue (u : TimerUnit) : Bool := u.bt.active && u.regs.ovf

/-- Does the counter run (40_prescaler_counter.md R115)? -/
def clockRuns (u : TimerUnit) : Bool := decide (u.regs.cs ≠ 0)

/-- Is an interrupt eligible anywhere in the system? -/
def State.anyIrqDue (s : State) : Bool := s.allUnits.any (irqDue s.gie)

/-- Is a poll due anywhere in the system? -/
def State.anyPollDue (s : State) : Bool := s.allUnits.any pollDue

/-- Is the host inside `delay_blocking` on some unit (42_blocking_timer.md R155)? -/
def State.hostBlocked (s : State) : Bool := s.allUnits.any (fun u => u.bt.active)

/-- May the step come next: it is enabled (R310), and under PROMPT no step of higher priority is due (R311); under FREE
any enabled step may (R312). A poll that would find `OVF` = 0 is a stutter step and is left out (42_blocking_timer.md
R153). The rest of the firmware may write a pin between any two steps (60_exceptions.md R289). -/
def allowed (s : State) : Turn → Bool
  | .pinWrite k _ _ => s.unitHas k fun _ => true
  | .dispatch k => s.unitHas k (irqDue s.gie)
  | .poll k => s.unitHas k pollDue && (decide (s.policy = .free) || !s.anyIrqDue)
  | .tick k => s.unitHas k clockRuns && (decide (s.policy = .free) || !(s.anyIrqDue || s.anyPollDue))
  | .host =>
    !s.hostQueue.isEmpty && !s.hostBlocked && (decide (s.policy = .free) || !(s.anyIrqDue || s.anyPollDue))

/-! The choice. -/

/-- The choice that waits: the head of the input list, or the free value where the list has ended. -/
def State.waitingTurn (s : State) : Turn := s.turns.headD (Config.freeTurn s.freeIndex)

/-- The state once the waiting choice has been used. A free choice uses up patience. -/
def State.useTurn (s : State) : State :=
  match s.turns with
  | [] => { s with freeIndex := s.freeIndex + 1, patience := s.patience - 1 }
  | _ :: rest => { s with turns := rest }

/-- The steps in a fixed order. -/
def State.candidates (s : State) : List Turn :=
  let units := List.range s.allUnits.length
  units.map Turn.dispatch ++ units.map Turn.poll ++ [Turn.host] ++ units.map Turn.tick

/-- The list from its n-th place on, then what stands before it; `n` counts round and round. -/
def rotated (n : Nat) (l : List Turn) : List Turn := l.drop (n % l.length) ++ l.take (n % l.length)

/-- The step that comes in turn, each step having its place by rotation; none where no step is allowed. -/
def State.turnInOrder (s : State) : Option Turn := (rotated s.fairIndex s.candidates).find? (allowed s)

/-- The state once a step has come in turn: the rotation moves on, the waiting choice goes on waiting, and patience is
fresh. -/
def State.passTurn (s : State) : State :=
  { s with fairIndex := s.fairIndex + 1, patience := Config.freePatience s.fairIndex }

/-- Under FREE, where the input list has ended and patience is used up, a step comes in turn whatever the free value
says: so every run is weakly fair (70_reset_and_hazards.md R312; notes/assumptions/8.md). -/
def State.fairTurnDue (s : State) : Bool := s.turns.isEmpty && decide (s.policy = .free) && decide (s.patience = 0)

/-- The step that comes next and the state it starts from: the waiting choice if it is allowed and no fair turn is due,
else the step that comes in turn; none where no step is allowed (a quiescent state, 70_reset_and_hazards.md R313). -/
def chooseStep (s : State) : Option (Turn × State) :=
  if allowed s s.waitingTurn && !s.fairTurnDue then some (s.waitingTurn, s.useTurn)
  else
    match s.turnInOrder with
    | some t => some (t, s.passTurn)
    | none => if allowed s s.waitingTurn then some (s.waitingTurn, s.useTurn) else none

/-! The steps. -/

/-- The host issues a command word to the addressed unit: the operation it decodes to, or `raise InvalidArgument` for an
ILLEGAL word (30_encoding.md R91). -/
def issueWord (w : Word) (s : State) : Host.Outcome State Fault Refusal :=
  match decode w with
  | .ok i => exec i s
  | .error _ => .next (s.onUnit (TimerUnit.raise .invalidArgument))

/-- Addresses unit `k` and goes on, or stops where there is no such unit. -/
def atUnit (k : Nat) (s : State) (f : State → Host.Outcome State Fault Refusal) : Host.Outcome State Fault Refusal :=
  match s.focus k with
  | none => .fault .noSuchUnit
  | some s' => f s'

/-- One step of an agent (70_reset_and_hazards.md R310). -/
def perform (t : Turn) (s : State) : Host.Outcome State Fault Refusal :=
  match t with
  | .host =>
    match s.hostQueue with
    | [] => .next s
    | c :: rest => atUnit c.unit { s with hostQueue := rest } (issueWord c.word)
  | .tick k => atUnit k s fun s => .next (s.onUnit tick)
  | .poll k => atUnit k s fun s => .next (s.onUnit btPoll)
  | .dispatch k => atUnit k s dispatchStep
  | .pinWrite k p st => atUnit k s fun s => .next (s.onUnit (TimerUnit.writePin p st))

/-- One step of the machine; a quiescent state stays as it is (70_reset_and_hazards.md R313). -/
def stepOnce (s : State) : Host.Outcome State Fault Refusal :=
  match chooseStep s with
  | none => .next s
  | some (t, s') => perform t s'

/-- The command placed first in the host's program, and the next turn given to the host. -/
def placeCommand (c : Command) (s : State) : State :=
  { s with hostQueue := c :: s.hostQueue, turns := .host :: s.turns }

/-- The command word whose bits are `w`, of which the table gives `nbits`; the bits above are 0. -/
def tableWord (nbits w : Nat) : Word := BitVec.ofNat 64 (w % 2 ^ nbits)

end Sys2Proof.Machine
end

