-- ==== Sys2Proof/Machine/Step.lean ====
section
/-! DEFINITION. The machine's step, and how a command word comes to run next. -/

namespace Sys2Proof.Machine

/-- One step (70_reset_and_hazards.md R310 to R313). -/
def step (s : State) : Host.Outcome State Fault Refusal := stepOnce s

/-- `s` with the command word `w` as the one the host issues next, to the addressed unit, and the next turn the host's
(the block fetches nothing, 10_state.md R21; notes/assumptions/5.md). -/
def State.withFetchWord (s : State) (nbits w : Nat) : State :=
  placeCommand { unit := s.selected, word := tableWord nbits w } s

end Sys2Proof.Machine
end

