-- ==== Sys2Proof/Machine/Text.lean ====
section
/-! DEFINITION. The textual syntax of an operation, on tokens, with the aliases and fixed expansions of the
pseudo-operations (spec/30_encoding.md R94, R95). No step of the machine reads a text. -/

namespace Sys2Proof

/-- An operand of a line of text: a name, or a decimal or hexadecimal number (30_encoding.md R94). -/
inductive Token where
  | name (s : String)
  | num (q : Rat)
deriving DecidableEq, Repr

/-- `n / d` to the nearest integer, ties to even, for `d` above 0. -/
def divTiesEven (n d : Nat) : Nat :=
  let f := n / d
  let r := n % d
  if 2 * r < d then f else if d < 2 * r then f + 1 else if f % 2 = 0 then f else f + 1

/-- The exponent of the last place of the binary32 values near a positive `n / d`, never below −149. -/
def lastPlace (n d : Nat) : Int :=
  let k : Int := (n.log2 : Int) - (d.log2 : Int)
  let below : Bool := if 0 ≤ k then decide (n < d * 2 ^ k.toNat) else decide (n * 2 ^ (-k).toNat < d)
  max ((if below then k - 1 else k) - 23) (-149)

/-- The nearest binary32 pattern of a number, ties to even; a magnitude that rounds above the largest finite value
gives infinity (30_encoding.md R94). -/
def toBinary32 (q : Rat) : Word32 :=
  let n := q.num.natAbs
  let d := q.den
  if n = 0 then 0
  else
    let u := lastPlace n d
    let sig := if 0 ≤ u then divTiesEven n (d * 2 ^ u.toNat) else divTiesEven (n * 2 ^ (-u).toNat) d
    let bits := min ((u + 149).toNat * 2 ^ 23 + sig) 0x7F800000
    BitVec.ofNat 32 (if q < 0 then 2 ^ 31 + bits else bits)

/-- An integer operand of `bits` bits. -/
def Token.int (bits : Nat) : Token → Option (BitVec bits)
  | .name _ => none
  | .num q => if q.den = 1 ∧ 0 ≤ q ∧ q.num.toNat < 2 ^ bits then some (BitVec.ofNat bits q.num.toNat) else none

/-- `<ms>` or `<khz>` (30_encoding.md R94). -/
def Token.binary32 : Token → Option Word32
  | .name _ => none
  | .num q => some (toBinary32 q)

/-- `<divider>`: one of `none 1 8 32 64 128 256 1024` (30_encoding.md R94). -/
def Token.divider : Token → Option ClockCode
  | .name s => if s = "none" then some 0 else none
  | .num q => (Config.fullSet.find? fun d => decide (q = (d.value : Rat))).map Divider.code

/-- `<reg>`: one of `ctrl count compare flags mask` or an index 0 to 7 (30_encoding.md R94). -/
def Token.reg : Token → Option RegIndex
  | .name s =>
    match s with
    | "ctrl" => some 0
    | "count" => some 1
    | "compare" => some 2
    | "flags" => some 3
    | "mask" => some 4
    | _ => none
  | .num q => (Token.num q).int 3

/-- `<callback>`: an integer, or `null` for 0 (30_encoding.md R94). -/
def Token.callback : Token → Option CallbackRef
  | .name s => if s = "null" then some 0 else none
  | .num q => (Token.num q).int 16

/-- `once` or `periodic` (30_encoding.md R94). -/
def Token.periodic : Token → Option Bool
  | .name s => if s = "once" then some false else if s = "periodic" then some true else none
  | .num _ => none

/-- The operation of a line of text, the aliases `pwm_init`, `configure` and `start` included (30_encoding.md R94,
R95). -/
def assemble (op : String) (args : List Token) : Option Instr :=
  match op, args with
  | "plan_delay", [a] => a.binary32.map .planDelay
  | "delay_blocking", [a, b, c] => do
      let cs ← a.divider
      let preload ← b.int 8
      let rep ← c.int 32
      some (.delayBlocking cs preload rep)
  | "pwm_configure", [a, b] => do
      let khz ← a.binary32
      let pin ← b.int 8
      some (.pwmConfigure pin khz)
  | "pwm_init", [a, b] => do
      let khz ← a.binary32
      let pin ← b.int 8
      some (.pwmConfigure pin khz)
  | "configure", [a, b] => do
      let khz ← a.binary32
      let pin ← b.int 8
      some (.pwmConfigure pin khz)
  | "pwm_start", [a] => (a.int 8).map .pwmStart
  | "start", [a] => (a.int 8).map .pwmStart
  | "pwm_stop", [] => some .pwmStop
  | "schedule", [a, b, c] => do
      let ms ← a.binary32
      let callback ← b.callback
      let periodic ← c.periodic
      some (.schedule periodic callback ms)
  | "cancel", [] => some .cancel
  | "set_divider", [a] => a.divider.map .setDivider
  | "set_preload", [a] => (a.int 8).map .setPreload
  | "read_overflow_flag", [] => some .readOvf
  | "clear_overflow_flag", [] => some .clearOvf
  | "reg_read", [a] => a.reg.map .regRead
  | "reg_write", [a, b] => do
      let idx ← a.reg
      let value ← b.int 8
      some (.regWrite idx value)
  | "irq_disable", [] => some .irqDisable
  | "irq_enable", [] => some .irqEnable
  | "on_compare_match", [] => some .onCompareMatch
  | "on_overflow", [] => some .onOverflow
  | _, _ => none

/-- The engine of which `stop` is said (30_encoding.md R95). -/
inductive StopSubject where
  | callbackTimer | pwmEngine
deriving DecidableEq, Repr

/-- The alias `stop` (30_encoding.md R95). -/
def stopOf : StopSubject → Instr
  | .callbackTimer => .cancel
  | .pwmEngine => .pwmStop

/-- `critical` around operations (30_encoding.md R95). -/
def critical (ops : List Instr) : List Instr := .irqDisable :: ops ++ [.irqEnable]

/-- The `DELAY_BLOCKING` word of a plan returned by `PLAN_DELAY`: `0x02 ++ res_value[55:0]` (30_encoding.md R83). -/
def delayWord (resValue : Word) : Word := 0x02#8 ++ resValue.extractLsb' 0 56

/-- `delay_ms`, after its `PLAN_DELAY` has left the result registers: stop on an error, else the `DELAY_BLOCKING` word
to issue (30_encoding.md R95). -/
def delayMsNext (r : Machine.Results) : Option Word := if r.status = 0 then some (delayWord r.value) else none

end Sys2Proof
end

