-- ==== Sys2Proof/WellFormed.lean ====
section
/-! DEFINITION. Checks on data before the machine runs it. Every operand of `Instr` has exactly the width of its field
(spec/30_encoding.md R85: "All eight values of a 3-bit field are encodable"), so every term is encodable; what can be
ill-formed is an operand VALUE that a legal word carries and the operation rejects whatever the state is
(spec/30_encoding.md R92, spec/60_exceptions.md R262), and a set of parameters that spec/00_scope.md R6 forbids. -/

namespace Sys2Proof

/-- The operand checks of 60_exceptions.md R262 (a), (b), (d), (e), (f), (g) on a unit with these parameters. The cause
(c), a start of an unconfigured PWM engine, depends on the state and is not a matter of form. -/
def Instr.wellFormed (cfg : UnitConfig) : Instr → Bool
  | .planDelay ms => delayOk ms
  | .delayBlocking cs _ rep => decide (cs ≠ 0) && codeSupported cfg cs && decide (rep.toNat ≤ repeatMax)
  | .pwmConfigure _ khz => frequencyOk khz
  | .pwmStart duty => decide (duty.toNat ≤ 100)
  | .pwmStop => true
  | .schedule _ _ ms => delayOk ms
  | .cancel => true
  | .setDivider cs => codeSupported cfg cs
  | .setPreload _ => true
  | .readOvf => true
  | .clearOvf => true
  | .regRead idx => decide (idx.toNat ≤ 4)
  | .regWrite idx value => decide (idx.toNat ≤ 4) && (decide (idx ≠ 0) || codeSupported cfg (value.extractLsb' 0 3))
  | .irqDisable => true
  | .irqEnable => true
  | .onCompareMatch => true
  | .onOverflow => true

/-- `F_CPU` is positive, `DIVIDER_SET` is not empty and stands in ascending order without repeats
(00_scope.md R6, 40_prescaler_counter.md R111). -/
abbrev UnitConfig.wellFormed (cfg : UnitConfig) : Prop :=
  0 < cfg.fCpu ∧ cfg.dividers ≠ [] ∧ cfg.dividers.Pairwise (fun a b => a.value < b.value)

end Sys2Proof
end

