-- ==== Sys2Proof/Safety.lean ====
section
/-! DEFINITION. What a sound state of the block is: the invariants of spec/10_state.md R45, with what they need to be
kept by every step (spec/10_state.md R32, R33, R35; spec/43_pwm_engine.md R175), and what a quiescent state and the end
of a run are (spec/70_reset_and_hazards.md R313). -/

namespace Sys2Proof.Machine

/-- A phase plan the PWM engine may hold: its divider is a member of `DIVIDER_SET` (10_state.md R35) and it fits one
counter period (43_pwm_engine.md R175). -/
def PhasePlanOk (cfg : UnitConfig) (p : TimerPlan) : Prop := p.divider ∈ cfg.dividers ∧ p.rep = 0

/-- The invariants of one timer unit. -/
structure UnitInv (u : TimerUnit) : Prop where
  /-- The parameters are ones 00_scope.md R6 allows. -/
  params : u.cfg.wellFormed
  /-- (a) `CS` = 0 or `div(CS)` ∈ `DIVIDER_SET`. -/
  clock : ∀ d, divOf u.regs.cs = some d → d ∈ u.cfg.dividers
  /-- (b) `on_plan` is `some` iff `off_plan` is `some`. -/
  plansTogether : u.pwm.onPlan.isSome = u.pwm.offPlan.isSome
  /-- The phase plans are ones `PWM_START` accepts. -/
  onPlanOk : ∀ p, u.pwm.onPlan = some p → PhasePlanOk u.cfg p
  offPlanOk : ∀ p, u.pwm.offPlan = some p → PhasePlanOk u.cfg p
  /-- Plans exist only in a configured engine. -/
  plansConfigured : u.pwm.onPlan.isSome = true → u.pwm.configured = true
  /-- `pwm_period_ms` is a positive rational (10_state.md R32). -/
  periodPositive : ∀ c, u.pwm.config = some c → 0 < c.periodMs
  /-- (c) `bt_active` = 1 implies `owner` = `BLOCKING` and `bt_remaining` ≥ 1. -/
  blocking : u.bt.active = true → u.owner = .blocking ∧ u.bt.remaining ≠ 0
  /-- (d) `owner` = `CALLBACK` implies `cb_target` ≥ 1 and `cb_count` < `cb_target`. -/
  callback : u.owner = .callback → u.cb.count < u.cb.target
  /-- (e) `owner` = `PWM` implies `pwm_configured` = 1. -/
  pwmConfigured : u.owner = .pwm → u.pwm.configured = true
  /-- The null reference is never stored as a callback (44_callback_timer.md R201). -/
  callbackNamed : u.cb.callback ≠ some 0

/-- The invariants of the system: every unit's, and the single host is inside at most one blocking delay
(42_blocking_timer.md R155). -/
structure Inv (s : State) : Prop where
  units : ∀ u ∈ s.allUnits, UnitInv u
  oneDelay : s.allUnits.countP (fun u => u.bt.active) ≤ 1

/-- Only a host operation can change the state: no counter runs and no source is eligible
(70_reset_and_hazards.md R313). -/
def State.quiescent (s : State) : Bool := s.allUnits.all (fun u => !clockRuns u) && !s.anyIrqDue

/-- The host has issued its last operation and no blocking delay is active (70_reset_and_hazards.md R313). -/
def State.runEnded (s : State) : Bool := s.hostQueue.isEmpty && !s.hostBlocked

/-- The parameters of every unit, which no step changes (00_scope.md R6, 10_state.md R42). -/
def State.params (s : State) : IrqPolicy × List UnitConfig := (s.policy, s.allUnits.map (·.cfg))

/-- `n` steps, stopping at the first that answers no next state. -/
def runSteps : Nat → State → Host.Outcome State Fault Refusal
  | 0, s => .next s
  | n + 1, s =>
    match step s with
    | .next s' => runSteps n s'
    | .fault r => .fault r
    | .refused r => .refused r

/-- An execution that goes on for ever: a sequence of states each of which steps to the next
(70_reset_and_hazards.md R310). -/
def IsRun (r : Nat → State) : Prop := ∀ n, step (r n) = .next (r (n + 1))

/-- The step taken at `s` is `a`. -/
def Takes (s : State) (a : Turn) : Prop := ∃ s0, chooseStep s = some (a, s0)

/-- Is it one of the steps (a) to (d) of 70_reset_and_hazards.md R310, and not a pin write of the rest of the firmware? -/
def isBlockStep : Turn → Bool
  | .host => true
  | .tick _ => true
  | .poll _ => true
  | .dispatch _ => true
  | .pinWrite _ _ _ => false

/-- `n` ticks of a unit whose counter nobody writes (40_prescaler_counter.md R121). -/
def tickTimes : Nat → TimerUnit → TimerUnit
  | 0, u => u
  | n + 1, u => tickTimes n (tick u)

/-- An interrupt is eligible on some unit (60_exceptions.md R268). -/
def InterruptWaiting (s : State) : Prop := ∃ u ∈ s.allUnits, ∃ src, eligible s.gie u src = true

/-- A blocking delay would observe a set flag on some unit (70_reset_and_hazards.md R311). -/
def PollWaiting (s : State) : Prop := ∃ u ∈ s.allUnits, u.bt.active = true ∧ u.regs.ovf = true

/-- The enabled steps of 70_reset_and_hazards.md R310 (a) to (d), less the poll that finds `OVF` = 0 (a stutter step,
42_blocking_timer.md R153), with the pin write of 60_exceptions.md R289. -/
def Enabled (s : State) : Turn → Prop
  | .tick k => ∃ u, s.allUnits[k]? = some u ∧ u.regs.cs ≠ 0
  | .dispatch k => ∃ u, s.allUnits[k]? = some u ∧ ∃ src, eligible s.gie u src = true
  | .poll k => ∃ u, s.allUnits[k]? = some u ∧ u.bt.active = true ∧ u.regs.ovf = true
  | .host => s.hostQueue ≠ [] ∧ ∀ u ∈ s.allUnits, u.bt.active = false
  | .pinWrite k _ _ => k < s.allUnits.length

/-- The enabled steps that may come next: any under FREE (70_reset_and_hazards.md R312); under PROMPT a poll only
where no interrupt waits, a tick or a host operation only where neither an interrupt nor a poll waits (R311). -/
def MayComeNext (s : State) (t : Turn) : Prop :=
  Enabled s t ∧
    (s.policy = .prompt →
      match t with
      | .poll _ => ¬InterruptWaiting s
      | .tick _ => ¬InterruptWaiting s ∧ ¬PollWaiting s
      | .host => ¬InterruptWaiting s ∧ ¬PollWaiting s
      | .dispatch _ => True
      | .pinWrite _ _ _ => True)

/-- Weak fairness: "a step that stays enabled is eventually taken" (70_reset_and_hazards.md R312). -/
def WeaklyFair (r : Nat → State) : Prop :=
  ∀ (a : Turn) (n : Nat), isBlockStep a = true → (∀ m, n ≤ m → Enabled (r m) a) → ∃ m, n ≤ m ∧ Takes (r m) a

end Sys2Proof.Machine
end

