-- ==== Sys2Proof/Certificates/Slice0/Obligations.lean ====
section
/-! DEFINITION. The statements for the provers, from the numbered rules of spec/. A state `s` is any state, reached or
not; `s.unit` is the unit the operation addresses. -/

open Sys2Proof Sys2Proof.Machine

/-! Encoding. -/

/-- The opcode map as 30_encoding.md R90 prints it: mnemonic, match, mask. -/
def Sys2Proof.Claims.opcodeMap : List OpcodeRow :=
  [⟨"PLAN_DELAY", 0x0100000000000000, 0xFFFFFFFF00000000⟩,
   ⟨"DELAY_BLOCKING", 0x0200000000000000, 0xFFFFF80000000000⟩,
   ⟨"PWM_CONFIGURE", 0x0300000000000000, 0xFFFFFF0000000000⟩,
   ⟨"PWM_START", 0x0400000000000000, 0xFFFFFFFFFFFFFF00⟩,
   ⟨"PWM_STOP", 0x0500000000000000, 0xFFFFFFFFFFFFFFFF⟩,
   ⟨"SCHEDULE", 0x0600000000000000, 0xFFFE000000000000⟩,
   ⟨"CANCEL", 0x0700000000000000, 0xFFFFFFFFFFFFFFFF⟩,
   ⟨"SET_DIVIDER", 0x1000000000000000, 0xFFFFFFFFFFFFFFF8⟩,
   ⟨"SET_PRELOAD", 0x1100000000000000, 0xFFFFFFFFFFFFFF00⟩,
   ⟨"READ_OVF", 0x1200000000000000, 0xFFFFFFFFFFFFFFFF⟩,
   ⟨"CLEAR_OVF", 0x1300000000000000, 0xFFFFFFFFFFFFFFFF⟩,
   ⟨"REG_READ", 0x1400000000000000, 0xFFFFFFFFFFFFF8FF⟩,
   ⟨"REG_WRITE", 0x1500000000000000, 0xFFFFFFFFFFFFF800⟩,
   ⟨"IRQ_DISABLE", 0x1800000000000000, 0xFFFFFFFFFFFFFFFF⟩,
   ⟨"IRQ_ENABLE", 0x1900000000000000, 0xFFFFFFFFFFFFFFFF⟩,
   ⟨"ON_COMPARE_MATCH", 0x2000000000000000, 0xFFFFFFFFFFFFFFFF⟩,
   ⟨"ON_OVERFLOW", 0x2100000000000000, 0xFFFFFFFFFFFFFFFF⟩]

/-- 95_test_vectors.md section 3.1: words written out by the spec, one for each format, and illegal ones. -/
def Obligations.DecodesTheSpecsWords : Prop :=
  decode 0x0100000041200000 = .ok (.planDelay 0x41200000) ∧
  decode 0x020007F300000003 = .ok (.delayBlocking 7 243 3) ∧
  decode 0x030000053F800000 = .ok (.pwmConfigure 5 0x3F800000) ∧
  decode 0x0400000000000032 = .ok (.pwmStart 50) ∧
  decode 0x0601000942C80000 = .ok (.schedule true 9 0x42C80000) ∧
  decode 0x1000000000000007 = .ok (.setDivider 7) ∧
  decode 0x1400000000000300 = .ok (.regRead 3) ∧
  decode 0x1500000000000402 = .ok (.regWrite 4 0x02) ∧
  decode 0x2100000000000000 = .ok .onOverflow ∧
  decode 0x0800000000000000 = .error (.unassignedOpcode 0x08) ∧
  decode 0x0500000000000001 = .error (.reservedBits 0x05)

/-- 30_encoding.md R80 to R85: no operand bit of any operation is lost by encoding and decoding. -/
def Obligations.DecodeInvertsEncode : Prop := ∀ i : Instr, decode (encode i) = .ok i

/-- 30_encoding.md R80 to R85: every legal word is the encoding of what it decodes to. -/
def Obligations.EncodeInvertsDecode : Prop := ∀ (w : Word) (i : Instr), decode w = .ok i → encode i = w

/-- 30_encoding.md R90: the 17 rows, and a word is the operation of a row iff `w & mask = match`. -/
def Obligations.WordIsTheOperationIffItMatchesItsRow : Prop :=
  (∀ i : Instr, i.row ∈ Claims.opcodeMap) ∧
  ∀ r ∈ Claims.opcodeMap, ∀ w : Word,
    (w &&& r.maskBits = r.matchBits ↔ ∃ i : Instr, decode w = .ok i ∧ i.row = r)

/-- 30_encoding.md R91: a word that matches no row is illegal, and issued it raises InvalidArgument and changes nothing
but the result registers. -/
def Obligations.IllegalWordRaisesInvalidArgument : Prop :=
  ∀ (w : Word) (s : State), (∀ r ∈ Claims.opcodeMap, w &&& r.maskBits ≠ r.matchBits) →
    (∃ e, decode w = .error e) ∧ issueWord w s = .next { s with unit := { s.unit with res := ⟨1, 0⟩ } }

/-- 30_encoding.md R83, 42_blocking_timer.md R158: the plan `PLAN_DELAY` returns is turned into a `DELAY_BLOCKING` word
by `0x02 ++ res_value[55:0]`, and that operation does not fail. -/
def Obligations.PlannedDelayIsAccepted : Prop :=
  ∀ (ms : Word32) (s t : State), s.unit.cfg.wellFormed → exec (.planDelay ms) s = .next t → t.unit.res.status = 0 →
    ∃ p : TimerPlan, planDelay s.unit.cfg (val32 ms) = .ok p ∧
      decode (delayWord t.unit.res.value) = .ok (.delayBlocking p.divider.code p.preload p.rep) ∧
      (Instr.delayBlocking p.divider.code p.preload p.rep).wellFormed s.unit.cfg = true ∧
      ∃ t', exec (.delayBlocking p.divider.code p.preload p.rep) t = .next t' ∧ t'.unit.bt.active = true

/-! The step. -/

/-- 70_reset_and_hazards.md R310(d), 42_blocking_timer.md R155: where it is the host's turn, the step is the next command
of its program: `exec` of what the word decodes to, on the unit the command addresses. -/
def Obligations.StepRunsTheIssuedCommand : Prop :=
  ∀ (s : State) (c : Command) (rest : List Command) (ts : List Turn) (u : TimerUnit),
    s.hostQueue = c :: rest → s.turns = .host :: ts → MayComeNext s .host → s.allUnits[c.unit]? = some u →
    ∃ s', ({ s with hostQueue := rest, turns := ts } : State).focus c.unit = some s' ∧ step s = issueWord c.word s' ∧
      ∀ i, decode c.word = .ok i → step s = exec i s'

/-- The word placed by `withFetchWord` runs as the very next step, on the state it was placed in
(70_reset_and_hazards.md R310). How a program comes to the host is the model's choice (notes/assumptions/5.md). -/
def Obligations.PlacedWordRunsNext : Prop :=
  ∀ (s : State) (nbits w : Nat) (i : Instr), decodeTableWord nbits w = some i →
    (∀ u ∈ s.allUnits, u.bt.active = false) → (s.policy = .prompt → ¬InterruptWaiting s ∧ ¬PollWaiting s) →
    step (s.withFetchWord nbits w) = exec i s

/-- 70_reset_and_hazards.md R310 to R312: a step is an enabled one that the policy lets come next; the state stays as it
is only where nothing may come next but a pin write of the rest of the firmware (R313, 60_exceptions.md R289). How the
choice falls, and that polls which find no flag are left out, is the model's (notes/assumptions/3.md, 4.md). -/
def Obligations.StepIsOneThePolicyLetsComeNext : Prop :=
  ∀ s t : State, step s = .next t →
    (t = s ∧ ∀ a, MayComeNext s a → ∃ k p st, a = .pinWrite k p st) ∨
    ∃ a s0, MayComeNext s a ∧ (s0 = s.useTurn ∨ s0 = s.passTurn) ∧ perform a s0 = .next t

/-- 70_reset_and_hazards.md R310 to R312: no order is imposed beyond the policy, so each step that may come next does
come next under some choice; and under FREE "a step that stays enabled is eventually taken" in every run that goes on for
ever (R312; by what means is the model's, notes/assumptions/8.md). -/
def Obligations.EveryStepThePolicyAllowsCanComeNext : Prop :=
  (∀ (s : State) (a : Turn) (ts : List Turn), s.turns = a :: ts → MayComeNext s a →
    step s = perform a { s with turns := ts }) ∧
  ∀ r : Nat → State, IsRun r → (r 0).policy = .free → WeaklyFair r

/-- 40_prescaler_counter.md R118: `TICK` is enabled iff `CS` ≠ 0 (and under PROMPT nothing is due first), its whole
effect, and the rule's example. -/
def Obligations.TickCountsAndSetsTheFlags : Prop :=
  (∀ (s s1 : State) (k : Nat) (ts : List Turn), s.turns = .tick k :: ts → MayComeNext s (.tick k) →
    ({ s with turns := ts } : State).focus k = some s1 →
    step s = .next { s1 with unit := { s1.unit with regs :=
      { s1.unit.regs with
        count := s1.unit.regs.count + 1
        ovf := if s1.unit.regs.count + 1 = 0 then true else s1.unit.regs.ovf
        cmf := if s1.unit.regs.count + 1 = s1.unit.regs.compare then true else s1.unit.regs.cmf } } }) ∧
  (∀ (s : State) (k : Nat),
    (allowed s (.tick k) = true ↔
      (∃ u, s.allUnits[k]? = some u ∧ u.regs.cs ≠ 0) ∧
        (s.policy = .prompt → ¬InterruptWaiting s ∧ ¬PollWaiting s))) ∧
  (∀ u : TimerUnit, u.regs.count = 255 → u.regs.compare = 0 →
    (tick u).regs.count = 0 ∧ (tick u).regs.ovf = true ∧ (tick u).regs.cmf = true)

/-- 40_prescaler_counter.md R121: with `COUNT` = p and no one writing it, the counter wraps at the (256 − p)-th next tick
and every 256 ticks after that, and at no other. -/
def Obligations.CounterOverflowsEvery256Ticks : Prop :=
  ∀ (u : TimerUnit) (n : Nat), 0 < n →
    ((tickTimes n u).regs.count = 0 ↔ ∃ k, n = (256 - u.regs.count.toNat) + 256 * k) ∧
    ((tickTimes n u).regs.ovf = true ↔ u.regs.ovf = true ∨ 256 - u.regs.count.toNat ≤ n)

/-- 42_blocking_timer.md R153, R154: one poll, in its three cases. -/
def Obligations.PollCountsOverflowsAndCompletes : Prop :=
  ∀ s : State,
    (s.unit.regs.ovf = false → perform (.poll s.selected) s = .next s) ∧
    (s.unit.regs.ovf = true → s.unit.bt.remaining ≠ 1 →
      perform (.poll s.selected) s = .next { s with unit := { s.unit with
        regs := { s.unit.regs with ovf := false }
        bt := { s.unit.bt with remaining := s.unit.bt.remaining - 1 } } }) ∧
    (s.unit.regs.ovf = true → s.unit.bt.remaining = 1 →
      perform (.poll s.selected) s = .next { s with unit := { s.unit with
        regs := { s.unit.regs with ovf := false, cs := 0 }
        bt := { active := false, remaining := 0 }
        owner := .idle
        res := ⟨0, 0⟩ } })

/-! Invariants. -/

/-- 10_state.md R44, 70_reset_and_hazards.md R301: every value after reset, at the spec's default parameters
(00_scope.md R6); no step is enabled then but host operations (and the rest of the firmware may write a pin,
60_exceptions.md R289). -/
def Obligations.ResetStateIsTheSpecs : Prop :=
  State.reset.unit.regs = ⟨0, 0, 0, false, false, false, false⟩ ∧ State.reset.gie = false ∧
  State.reset.unit.owner = .idle ∧ State.reset.unit.pwm = ⟨none, none, none, .onPhase⟩ ∧
  State.reset.unit.cb = ⟨none, 0, 0, 0, false, []⟩ ∧ State.reset.unit.bt = ⟨false, 0⟩ ∧
  State.reset.unit.res = ⟨0, 0⟩ ∧ (∀ p, State.reset.unit.pin p = ⟨.input, .low⟩) ∧
  (∀ (q : List Command) (a : Turn), Enabled { State.reset with hostQueue := q } a →
    (a = .host ∧ q ≠ []) ∨ ∃ p st, a = .pinWrite 0 p st)

/-- 10_state.md R45: the invariants hold of the state after reset. -/
def Obligations.ResetSatisfiesTheInvariants : Prop := Inv State.reset

/-- 10_state.md R45: every step keeps the invariants (a) to (e), with those they rest on. -/
def Obligations.StepKeepsTheInvariants : Prop := ∀ s t : State, Inv s → step s = .next t → Inv t

/-- 00_scope.md R6, 10_state.md R42: no step changes a parameter or the number of units. -/
def Obligations.StepKeepsTheParameters : Prop := ∀ s t : State, step s = .next t → t.params = s.params

/-- 60_exceptions.md R290: "Units do not interact except through `GIE`": a step leaves all units but one as they are. -/
def Obligations.StepChangesAtMostOneUnit : Prop :=
  ∀ s t : State, step s = .next t → ∃ k : Nat, ∀ j : Nat, j ≠ k → t.allUnits[j]? = s.allUnits[j]?

/-- 10_state.md R40: `cb_log` holds every invocation since reset, oldest first: a step only ever appends to it. -/
def Obligations.StepOnlyAppendsToTheCallbackLog : Prop :=
  ∀ (s t : State) (k : Nat) (u : TimerUnit), step s = .next t → s.allUnits[k]? = some u →
    ∃ u', t.allUnits[k]? = some u' ∧ u.cb.log <+: u'.cb.log

/-! Rules over all operations. -/

/-- Every operation, in every state, ends in a next state, the block having no trap (60_exceptions.md R260, R266), but
where its service invokes a callback that never returns, and there it is stuck (93_implementation_defined.md U10); it
changes the addressed unit and `GIE` alone: no other unit, no input, no policy, no parameter (R290). -/
def Obligations.OperationCompletesOnTheAddressedUnitAlone : Prop :=
  (∀ (i : Instr) (s : State),
    (i = .onOverflow ∨ i = .onCompareMatch →
      ¬(s.unit.owner = .callback ∧ s.unit.cb.count + 1 = s.unit.cb.target ∧ s.unit.cb.callback ≠ none ∧
        s.unit.cbEffect.head? = some .never)) →
    ∃ t, exec i s = .next t ∧
      t.before = s.before ∧ t.after = s.after ∧ t.policy = s.policy ∧ t.hostQueue = s.hostQueue ∧ t.turns = s.turns ∧
        t.freeIndex = s.freeIndex ∧ t.fairIndex = s.fairIndex ∧ t.patience = s.patience ∧
        t.unit.cfg = s.unit.cfg) ∧
  (∀ (i : Instr) (s : State), i = .onOverflow ∨ i = .onCompareMatch → s.unit.owner = .callback →
    s.unit.cb.count + 1 = s.unit.cb.target → s.unit.cb.callback ≠ none → s.unit.cbEffect.head? = some .never →
    exec i s = .fault .callbackNeverReturns)

/-- 60_exceptions.md R260, 43_pwm_engine.md R181: an operation that raises an error has changed nothing but the result
registers. (`DELAY_BLOCKING` writes no status where it starts; its error is `DelayBlockingStartsTheExecutor`.) -/
def Obligations.ErrorChangesOnlyTheResultRegisters : Prop :=
  ∀ (i : Instr) (s t : State), (∀ cs preload rep, i ≠ .delayBlocking cs preload rep) → exec i s = .next t →
    t.unit.res.status ≠ 0 → t = { s with unit := { s.unit with res := ⟨t.unit.res.status, 0⟩ } }

/-- 60_exceptions.md R262: the causes of InvalidArgument (a) to (g), and no other. That the start of a blocking delay
leaves the result registers as they were is the model's reading (notes/assumptions/16.md). -/
def Obligations.InvalidArgumentHasExactlyItsCauses : Prop :=
  (∀ (i : Instr) (s t : State), (∀ cs preload rep, i ≠ .delayBlocking cs preload rep) → exec i s = .next t →
    (t.unit.res.status = 1 ↔
      i.wellFormed s.unit.cfg = false ∨ ((∃ duty, i = .pwmStart duty) ∧ s.unit.pwm.configured = false))) ∧
  (∀ (cs : ClockCode) (preload : Byte) (rep : Word32) (s : State),
    ((Instr.delayBlocking cs preload rep).wellFormed s.unit.cfg = false →
      exec (.delayBlocking cs preload rep) s = .next { s with unit := { s.unit with res := ⟨1, 0⟩ } }) ∧
    ((Instr.delayBlocking cs preload rep).wellFormed s.unit.cfg = true →
      ∃ t, exec (.delayBlocking cs preload rep) s = .next t ∧ t.unit.res = s.unit.res ∧ t.unit.bt.active = true))

/-- 60_exceptions.md R268: no operation sets a flag; a flag is set only by `TICK`. Neither does a poll or a dispatch. -/
def Obligations.FlagsAreSetOnlyByTicks : Prop :=
  (∀ (i : Instr) (s t : State), exec i s = .next t →
    (t.unit.regs.ovf = true → s.unit.regs.ovf = true) ∧ (t.unit.regs.cmf = true → s.unit.regs.cmf = true)) ∧
  (∀ u : TimerUnit, ((btPoll u).regs.ovf = true → u.regs.ovf = true) ∧ (btPoll u).regs.cmf = u.regs.cmf) ∧
  (∀ s : State, ((irqDispatch s).unit.regs.ovf = true → s.unit.regs.ovf = true) ∧
    ((irqDispatch s).unit.regs.cmf = true → s.unit.regs.cmf = true))

/-- 10_state.md R29: `IRQ_ENABLE` sets `GIE`, `IRQ_DISABLE` clears it, and no other operation changes it (where no
callback issues one, 44_callback_timer.md R214); a dispatch leaves it 1, as it was. -/
def Obligations.OnlyTheInterruptMaskOperationsChangeGie : Prop :=
  (∀ (i : Instr) (s t : State), s.unit.cbEffect = [] → exec i s = .next t →
    t.gie = if i = .irqEnable then true else if i = .irqDisable then false else s.gie) ∧
  (∀ s : State, (irqDispatch s).gie = s.gie)

/-- 10_state.md R25: only `REG_WRITE` (to index 2) writes COMPARE: no other operation, no tick, no poll and, where no
callback issues a `REG_WRITE`, no dispatch. -/
def Obligations.OnlyRegWriteChangesCompare : Prop :=
  (∀ (i : Instr) (s t : State), s.unit.cbEffect = [] → (∀ value, i ≠ .regWrite 2 value) → exec i s = .next t →
    t.unit.regs.compare = s.unit.regs.compare) ∧
  (∀ u : TimerUnit, (tick u).regs.compare = u.regs.compare ∧ (btPoll u).regs.compare = u.regs.compare) ∧
  (∀ s : State, s.unit.cbEffect = [] → (irqDispatch s).unit.regs.compare = s.unit.regs.compare)

/-! The planner. -/

/-- 30_encoding.md R88: the value of a binary32 pattern, sign `sgn`, exponent field `e`, fraction `m`. -/
def Obligations.Val32IsTheBinary32Value : Prop :=
  ∀ (sgn : BitVec 1) (e : BitVec 8) (m : BitVec 23),
    (e = 255 → val32 (sgn ++ e ++ m) = none) ∧
    (e = 0 → val32 (sgn ++ e ++ m) = some ((-1) ^ sgn.toNat * (m.toNat : Rat) * (2 : Rat) ^ (-149 : Int))) ∧
    (e ≠ 255 → e ≠ 0 →
      val32 (sgn ++ e ++ m) =
        some ((-1) ^ sgn.toNat * (2 ^ 23 + (m.toNat : Rat)) * (2 : Rat) ^ ((e.toNat : Int) - 150)))

/-- 41_delay_planner.md R133: the single-period branch, with the range of `q`, the corner cases and the example. -/
def Obligations.SinglePeriodPlan : Prop :=
  (∀ (cfg : UnitConfig) (x : Rat) (d : Divider) (smaller larger : List Divider), cfg.wellFormed → 0 ≤ x →
    cfg.dividers = smaller ++ d :: larger → (∀ d' ∈ smaller, maxDelay cfg d' < x) → x ≤ maxDelay cfg d →
    0 ≤ x / tickMs cfg d ∧ x / tickMs cfg d ≤ 256 ∧
    ∃ p, planDelay cfg (some x) = .ok p ∧ p.divider = d ∧ p.rep = 0 ∧
      (256 - p.preload.toNat : Int) = max 1 (x / tickMs cfg d).floor) ∧
  (∀ (cfg : UnitConfig) (x : Rat), cfg.wellFormed → 0 ≤ x → x < tickMs cfg (dMin cfg) →
    planDelay cfg (some x) = .ok ⟨dMin cfg, 255, 0⟩) ∧
  planDelay Config.default (some (1 / 2)) = .ok ⟨.d32, 131, 0⟩

/-- 41_delay_planner.md R134, R135: the multi-period branch and its range guard, with the example. -/
def Obligations.MultiPeriodPlan : Prop :=
  (∀ (cfg : UnitConfig) (x : Rat) (n : Nat), cfg.wellFormed → (∀ d ∈ cfg.dividers, maxDelay cfg d < x) →
    (n : Int) = (x / maxDelay cfg (dMax cfg)).floor →
    1 ≤ n ∧
    (2 ^ 32 - 2 < n → planDelay cfg (some x) = .error .unsupportedRange) ∧
    (n ≤ 2 ^ 32 - 2 →
      ∃ (p : TimerPlan) (rticks : Nat), planDelay cfg (some x) = .ok p ∧ p.divider = dMax cfg ∧ p.rep.toNat = n ∧
        (rticks : Int) = ((x - (n : Rat) * maxDelay cfg (dMax cfg)) / tickMs cfg (dMax cfg)).floor ∧ rticks ≤ 255 ∧
        p.preload.toNat = (256 - rticks) % 256)) ∧
  planDelay Config.default (some 10000) = .ok ⟨.d1024, 211, 305⟩

/-- 41_delay_planner.md R132: the argument check, negative zero included. -/
def Obligations.PlannerRejectsBadDelays : Prop :=
  ∀ cfg : UnitConfig, planDelay cfg none = .error .invalidArgument ∧
    (∀ x : Rat, planDelay cfg (some x) = .error .invalidArgument ↔ x < 0) ∧
    planDelay cfg (val32 0x80000000) = planDelay cfg (some 0)

/-- 41_delay_planner.md R137: the closed form of a plan, and the realised delay within one tick of the request. -/
def Obligations.PlanIsWithinOneTick : Prop :=
  ∀ (cfg : UnitConfig) (x : Rat) (p : TimerPlan), cfg.wellFormed → planDelay cfg (some x) = .ok p →
    (p.rep = 0 → (p.totalTicks : Int) = max 1 (x / tickMs cfg p.divider).floor) ∧
    (p.rep ≠ 0 → p.divider = dMax cfg ∧ (p.totalTicks : Int) = (x / tickMs cfg p.divider).floor ∧
      p.rep.toNat = p.totalTicks / 256 ∧ p.remTicks = p.totalTicks % 256) ∧
    (tickMs cfg p.divider ≤ x →
      0 ≤ x - p.realizedMs cfg ∧ x - p.realizedMs cfg < tickMs cfg p.divider) ∧
    (x < tickMs cfg p.divider →
      0 < p.realizedMs cfg - x ∧ p.realizedMs cfg - x ≤ tickMs cfg p.divider)

/-- 41_delay_planner.md R138: a longer delay never selects a smaller divider. -/
def Obligations.DividerSelectionIsMonotonic : Prop :=
  ∀ (cfg : UnitConfig) (x y : Rat) (p q : TimerPlan), cfg.wellFormed → x ≤ y → planDelay cfg (some x) = .ok p →
    planDelay cfg (some y) = .ok q → p.divider.value ≤ q.divider.value

/-- 41_delay_planner.md R136, R139, 10_state.md R35: what the planner returns is a plan: a divider of the set, a repeat
count up to REPEAT_MAX, and a number of overflows to wait that is at least 1 and does not wrap. -/
def Obligations.PlannerReturnsAPlan : Prop :=
  ∀ (cfg : UnitConfig) (x : Rat) (p : TimerPlan), cfg.wellFormed → planDelay cfg (some x) = .ok p →
    p.divider ∈ cfg.dividers ∧ p.rep.toNat ≤ 2 ^ 32 - 2 ∧ 1 ≤ p.overflowsToWait.toNat ∧
      p.overflowsToWait.toNat = p.rep.toNat + (if 0 < p.remTicks then 1 else 0)

/-- 41_delay_planner.md R130: `PLAN_DELAY` writes the packed plan or the error to the result registers and touches
nothing else. -/
def Obligations.PlanDelayWritesOnlyTheResultRegisters : Prop :=
  ∀ (ms : Word32) (s : State),
    (∀ p, planDelay s.unit.cfg (val32 ms) = .ok p →
      exec (.planDelay ms) s =
        .next { s with unit := { s.unit with res := ⟨0, 0#21 ++ p.divider.code ++ p.preload ++ p.rep⟩ } }) ∧
    (∀ e, planDelay s.unit.cfg (val32 ms) = .error e →
      exec (.planDelay ms) s = .next { s with unit := { s.unit with res := ⟨e.code, 0⟩ } })

/-! The blocking timer. -/

/-- 42_blocking_timer.md R151, R152: the operand check and the start step of `DELAY_BLOCKING`. That the start step leaves
the result registers as they were is the model's reading (notes/assumptions/16.md). -/
def Obligations.DelayBlockingStartsTheExecutor : Prop :=
  ∀ (cs : ClockCode) (preload : Byte) (rep : Word32) (s : State),
    (∀ d, divOf cs = some d → d ∈ s.unit.cfg.dividers → rep.toNat ≤ 2 ^ 32 - 2 →
      exec (.delayBlocking cs preload rep) s = .next { s with unit := { s.unit with
        owner := .blocking
        regs := { s.unit.regs with count := preload, ovf := false, cs := cs }
        bt := { active := true, remaining := rep + (if rep = 0 ∨ preload ≠ 0 then 1 else 0) } } } ∧
      rep + (if rep = 0 ∨ preload ≠ 0 then 1 else 0) ≠ 0) ∧
    ((cs = 0 ∨ (∀ d, divOf cs = some d → d ∉ s.unit.cfg.dividers) ∨ 2 ^ 32 - 2 < rep.toNat) →
      exec (.delayBlocking cs preload rep) s = .next { s with unit := { s.unit with res := ⟨1, 0⟩ } })

/-- 42_blocking_timer.md R156: under PROMPT with no eligible interrupt source, exactly `total_ticks(p)` ticks occur
between the start step and completion (one unit; the other steps of the run are the polls, one an overflow). The input
offers ticks only (notes/assumptions/3.md), one more than the delay needs. -/
def Obligations.BlockingDelayLastsItsTotalTicks : Prop :=
  ∀ (s t : State) (cs : ClockCode) (p : TimerPlan), s.before = [] → s.after = [] → s.policy = .prompt →
    (s.gie = false ∨ (s.unit.regs.ovfIe = false ∧ s.unit.regs.cmpIe = false)) →
    divOf cs = some p.divider → p.divider ∈ s.unit.cfg.dividers → p.rep.toNat ≤ 2 ^ 32 - 2 →
    s.turns = List.replicate (p.totalTicks + 1) (.tick 0) →
    exec (.delayBlocking cs p.preload p.rep) s = .next t →
    ∃ t', runSteps (p.totalTicks + p.overflowsToWait.toNat) t = .next t' ∧
      t'.turns = [.tick 0] ∧ t'.unit.bt = ⟨false, 0⟩ ∧ t'.unit.regs.cs = 0 ∧ t'.unit.regs.count = 0 ∧
      t'.unit.regs.ovf = false ∧ t'.unit.owner = .idle ∧ t'.unit.res = ⟨0, 0⟩ ∧
      ∀ n t'', n < p.totalTicks + p.overflowsToWait.toNat → runSteps n t = .next t'' → t''.unit.bt.active = true

/-- 42_blocking_timer.md R157, 70_reset_and_hazards.md R321: a blocking delay with the overflow interrupt live never
completes under PROMPT. -/
def Obligations.LiveOverflowInterruptStarvesABlockingDelay : Prop :=
  ∀ (s t : State) (k : Nat) (u : TimerUnit), s.policy = .prompt → s.gie = true → s.allUnits[k]? = some u →
    u.bt.active = true → u.owner = .blocking → u.regs.ovfIe = true → step s = .next t →
    t.policy = .prompt ∧ t.gie = true ∧
      ∃ u', t.allUnits[k]? = some u' ∧ u'.bt = u.bt ∧ u'.owner = .blocking ∧ u'.regs.ovfIe = true

/-! The PWM engine. -/

/-- 43_pwm_engine.md R171: `PWM_CONFIGURE`. -/
def Obligations.PwmConfigureStoresPinAndPeriod : Prop :=
  ∀ (pin : PinRef) (khz : Word32) (s : State),
    (∀ f, val32 khz = some f → 0 < f →
      exec (.pwmConfigure pin khz) s = .next { s with unit := { s.unit with
        pwm := { s.unit.pwm with config := some ⟨pin, 1 / f⟩ }
        regs := { s.unit.regs with ovfIe := true }
        pins := s.unit.pins.set pin.toNat ⟨.output, (s.unit.pin pin).level⟩ pin.isLt
        res := ⟨0, 0⟩ } }) ∧
    ((∀ f, val32 khz = some f → f ≤ 0) →
      exec (.pwmConfigure pin khz) s = .next { s with unit := { s.unit with res := ⟨1, 0⟩ } })

/-- 43_pwm_engine.md R173: on and off times sum to the period exactly, and are equal at duty 50. -/
def Obligations.OnAndOffTimesSumToThePeriod : Prop :=
  (∀ (t : Rat) (duty : Byte), onTime t duty = t * (duty.toNat : Rat) / 100 ∧ onTime t duty + offTime t duty = t) ∧
  (∀ t : Rat, onTime t 50 = t / 2 ∧ offTime t 50 = t / 2)

/-- 43_pwm_engine.md R174: the constant level of duty 0 and 100. -/
def Obligations.PwmStartAtTheExtremesIsAConstantLevel : Prop :=
  ∀ (duty : Byte) (s : State) (c : PwmConfig), s.unit.pwm.config = some c → duty = 0 ∨ duty = 100 →
    exec (.pwmStart duty) s = .next { s with unit := { s.unit with
      pwm := { s.unit.pwm with onPlan := none, offPlan := none, phase := .onPhase }
      owner := .pwm
      regs := { s.unit.regs with cs := 0, ovf := false, ovfIe := true }
      pins := s.unit.pins.set c.pin.toNat
        ⟨(s.unit.pin c.pin).dir, if duty = 0 then .low else .high⟩ c.pin.isLt
      res := ⟨0, 0⟩ } }

/-- 43_pwm_engine.md R172, R175, 60_exceptions.md R265: the errors of `PWM_START`, in the order tested. -/
def Obligations.PwmStartRaisesItsErrorsInOrder : Prop :=
  ∀ (duty : Byte) (s : State),
    (100 < duty.toNat → exec (.pwmStart duty) s = .next { s with unit := { s.unit with res := ⟨1, 0⟩ } }) ∧
    (duty.toNat ≤ 100 → s.unit.pwm.config = none →
      exec (.pwmStart duty) s = .next { s with unit := { s.unit with res := ⟨1, 0⟩ } }) ∧
    (∀ c, 0 < duty.toNat → duty.toNat < 100 → s.unit.pwm.config = some c →
      onTime c.periodMs duty < minDelay s.unit.cfg (dMin s.unit.cfg) ∨
        offTime c.periodMs duty < minDelay s.unit.cfg (dMin s.unit.cfg) →
      exec (.pwmStart duty) s = .next { s with unit := { s.unit with res := ⟨3, 0⟩ } }) ∧
    (∀ c, 0 < duty.toNat → duty.toNat < 100 → s.unit.pwm.config = some c →
      minDelay s.unit.cfg (dMin s.unit.cfg) ≤ onTime c.periodMs duty →
      minDelay s.unit.cfg (dMin s.unit.cfg) ≤ offTime c.periodMs duty →
      (¬∃ a b, planDelay s.unit.cfg (some (onTime c.periodMs duty)) = .ok a ∧
        planDelay s.unit.cfg (some (offTime c.periodMs duty)) = .ok b ∧ a.rep = 0 ∧ b.rep = 0) →
      exec (.pwmStart duty) s = .next { s with unit := { s.unit with res := ⟨2, 0⟩ } })

/-- 43_pwm_engine.md R176: the start transition. -/
def Obligations.PwmStartBeginsTheOnPhase : Prop :=
  ∀ (duty : Byte) (s : State) (c : PwmConfig) (a b : TimerPlan), 0 < duty.toNat → duty.toNat < 100 →
    s.unit.pwm.config = some c →
    minDelay s.unit.cfg (dMin s.unit.cfg) ≤ onTime c.periodMs duty →
    minDelay s.unit.cfg (dMin s.unit.cfg) ≤ offTime c.periodMs duty →
    planDelay s.unit.cfg (some (onTime c.periodMs duty)) = .ok a →
    planDelay s.unit.cfg (some (offTime c.periodMs duty)) = .ok b → a.rep = 0 → b.rep = 0 →
    exec (.pwmStart duty) s = .next { s with unit := { s.unit with
      pwm := { s.unit.pwm with onPlan := some a, offPlan := some b, phase := .onPhase }
      owner := .pwm
      regs := { s.unit.regs with count := a.preload, ovf := false, cs := a.divider.code, ovfIe := true }
      pins := s.unit.pins.set c.pin.toNat ⟨(s.unit.pin c.pin).dir, .high⟩ c.pin.isLt
      res := ⟨0, 0⟩ } }

/-- 43_pwm_engine.md R177: `PWM_STOP` clears `OVF_IE` and nothing else. -/
def Obligations.PwmStopClearsTheOverflowEnable : Prop :=
  ∀ s : State, exec .pwmStop s =
    .next { s with unit := { s.unit with regs := { s.unit.regs with ovfIe := false }, res := ⟨0, 0⟩ } }

/-- 43_pwm_engine.md R178, through `ON_OVERFLOW`: nothing without plans; else toggle, flip and reload from the plan of
the new phase. -/
def Obligations.PwmOverflowServiceAlternatesThePhases : Prop :=
  ∀ s : State, s.unit.owner = .pwm →
    (s.unit.pwm.onPlan = none →
      exec .onOverflow s = .next { s with unit := { s.unit with res := ⟨0, 0⟩ } }) ∧
    (∀ c a b, s.unit.pwm.config = some c → s.unit.pwm.onPlan = some a → s.unit.pwm.offPlan = some b →
      exec .onOverflow s = .next { s with unit := { s.unit with
        pwm := { s.unit.pwm with phase := if s.unit.pwm.phase = .onPhase then .offPhase else .onPhase }
        regs := { s.unit.regs with
          count := if s.unit.pwm.phase = .onPhase then b.preload else a.preload
          cs := if s.unit.pwm.phase = .onPhase then b.divider.code else a.divider.code }
        pins := s.unit.pins.set c.pin.toNat
          ⟨(s.unit.pin c.pin).dir, if (s.unit.pin c.pin).level = .low then .high else .low⟩ c.pin.isLt
        res := ⟨0, 0⟩ } })

/-- 43_pwm_engine.md R179: under PROMPT with `GIE` = 1 and nothing else touching the unit, a phase lasts exactly the
ticks of its plan, and the dispatch that ends it toggles the pin and loads the opposite plan. The input offers ticks only
(notes/assumptions/3.md), one more than the phase needs. -/
def Obligations.PwmPhaseLastsItsPlan : Prop :=
  ∀ (s : State) (c : PwmConfig) (a b q r : TimerPlan), s.before = [] → s.after = [] → s.policy = .prompt →
    s.gie = true → s.unit.bt.active = false → s.unit.owner = .pwm → s.unit.regs.ovfIe = true →
    s.unit.regs.cmpIe = false → s.unit.regs.ovf = false → s.unit.pwm.config = some c →
    s.unit.pwm.onPlan = some a → s.unit.pwm.offPlan = some b →
    q = (if s.unit.pwm.phase = .onPhase then a else b) → r = (if s.unit.pwm.phase = .onPhase then b else a) →
    s.unit.regs.count = q.preload → s.unit.regs.cs = q.divider.code →
    s.turns = List.replicate (256 - q.preload.toNat + 1) (.tick 0) →
    (∀ n t, n ≤ 256 - q.preload.toNat → runSteps n s = .next t →
      t.unit.pwm.phase = s.unit.pwm.phase ∧ t.unit.pins = s.unit.pins) ∧
    ∃ t, runSteps (256 - q.preload.toNat + 1) s = .next t ∧ t.turns = [.tick 0] ∧
      t.unit.pwm.phase = flipPhase s.unit.pwm.phase ∧
      t.unit.pin c.pin = ⟨(s.unit.pin c.pin).dir, flipLevel (s.unit.pin c.pin).level⟩ ∧
      t.unit.regs.count = r.preload ∧ t.unit.regs.cs = r.divider.code ∧ t.unit.regs.ovf = false

/-- 60_exceptions.md R285 to R287: what the three pin operations do to each pin. -/
def Obligations.PinOperationsChangeOnePin : Prop :=
  ∀ (u : TimerUnit) (p q : PinRef),
    (∀ l, (u.setPin p l).pin q = if q = p then ⟨(u.pin p).dir, l⟩ else u.pin q) ∧
    ((u.togglePin p).pin q =
      if q = p then ⟨(u.pin p).dir, if (u.pin p).level = .low then .high else .low⟩ else u.pin q) ∧
    (∀ d, (u.configurePin p d).pin q = if q = p then ⟨d, (u.pin p).level⟩ else u.pin q)

/-! The callback timer. -/

/-- 44_callback_timer.md R201: `SCHEDULE`. -/
def Obligations.ScheduleArmsTheCounter : Prop :=
  ∀ (periodic : Bool) (callback : CallbackRef) (ms : Word32) (s : State),
    (∀ p, planDelay s.unit.cfg (val32 ms) = .ok p →
      exec (.schedule periodic callback ms) s = .next { s with unit := { s.unit with
        cb := { s.unit.cb with
          callback := if callback = 0 then none else some callback
          target := p.overflowsToWait
          count := 0
          preload := p.preload
          periodic := periodic }
        owner := .callback
        regs := { s.unit.regs with count := p.preload, ovf := false, cs := p.divider.code, ovfIe := true }
        res := ⟨0, 0⟩ } }) ∧
    (∀ e, planDelay s.unit.cfg (val32 ms) = .error e →
      exec (.schedule periodic callback ms) s = .next { s with unit := { s.unit with res := ⟨e.code, 0⟩ } })

/-- 44_callback_timer.md R202: `CANCEL`. -/
def Obligations.CancelDropsTheSchedule : Prop :=
  ∀ s : State, exec .cancel s = .next { s with unit := { s.unit with
    regs := { s.unit.regs with ovfIe := false, cmpIe := false }
    cb := { s.unit.cb with callback := none, count := 0 }
    owner := if s.unit.owner = .callback then .idle else s.unit.owner
    res := ⟨0, 0⟩ } }

/-- 44_callback_timer.md R204, R210: the callback service, through both handler entry points, where CALLBACK_EFFECT is
the default (none). -/
def Obligations.CallbackServiceCountsToItsTarget : Prop :=
  ∀ (s : State) (i : Instr) (reload : Bool), (i = .onOverflow ∧ reload = true) ∨ (i = .onCompareMatch ∧ reload = false) →
    s.unit.owner = .callback → s.unit.cbEffect = [] →
    (s.unit.cb.count + 1 ≠ s.unit.cb.target →
      exec i s = .next { s with unit := { s.unit with
        cb := { s.unit.cb with count := s.unit.cb.count + 1 }, res := ⟨0, 0⟩ } }) ∧
    (s.unit.cb.count + 1 = s.unit.cb.target → s.unit.cb.periodic = true →
      exec i s = .next { s with unit := { s.unit with
        cb := { s.unit.cb with count := 0, log := s.unit.cb.log ++ s.unit.cb.callback.toList }
        regs := { s.unit.regs with count := if reload then s.unit.cb.preload else s.unit.regs.count }
        res := ⟨0, 0⟩ } }) ∧
    (s.unit.cb.count + 1 = s.unit.cb.target → s.unit.cb.periodic = false →
      exec i s = .next { s with unit := { s.unit with
        cb := { s.unit.cb with count := 0, log := s.unit.cb.log ++ s.unit.cb.callback.toList, callback := none }
        regs := { s.unit.regs with ovfIe := false, cmpIe := false }
        owner := .idle
        res := ⟨0, 0⟩ } })

/-- 70_reset_and_hazards.md R330: where CALLBACK_EFFECT lets a callback issue operations they run after `invoke` and
before the rest of the service; so a one-shot callback that schedules again as a one-shot is disarmed by the completion
that follows; and one that starts the PWM engine keeps `owner` PWM, since one-shot completion sets IDLE "only when the
owner was `CALLBACK`" (10_state.md R31; notes/assumptions/7.md, 20.md). -/
def Obligations.CallbackOperationsRunInsideTheService : Prop :=
  ∀ (s : State) (c : CallbackRef) (rest : List CallbackRun),
    s.unit.owner = .callback → s.unit.cb.count + 1 = s.unit.cb.target → s.unit.cb.callback = some c →
    (∀ (cb : CallbackRef) (ms : Word32) (p : TimerPlan),
      s.unit.cbEffect = .returns [.schedule false cb ms] :: rest → planDelay s.unit.cfg (val32 ms) = .ok p →
      exec .onOverflow s = .next { s with unit := { s.unit with
        cb := { s.unit.cb with
          callback := none, target := p.overflowsToWait, count := 0, preload := p.preload, periodic := false
          log := s.unit.cb.log ++ [c] }
        regs := { s.unit.regs with
          count := p.preload, ovf := false, cs := p.divider.code, ovfIe := false, cmpIe := false }
        owner := .idle
        cbEffect := rest
        res := ⟨0, 0⟩ } }) ∧
    (∀ (duty : Byte) (k : PwmConfig),
      s.unit.cbEffect = .returns [.pwmStart duty] :: rest → s.unit.cb.periodic = false →
      s.unit.pwm.config = some k → duty = 0 ∨ duty = 100 →
      exec .onOverflow s = .next { s with unit := { s.unit with
        cb := { s.unit.cb with callback := none, count := 0, log := s.unit.cb.log ++ [c] }
        pwm := { s.unit.pwm with onPlan := none, offPlan := none, phase := .onPhase }
        regs := { s.unit.regs with cs := 0, ovf := false, ovfIe := false, cmpIe := false }
        owner := .pwm
        pins := s.unit.pins.set k.pin.toNat
          ⟨(s.unit.pin k.pin).dir, if duty = 0 then .low else .high⟩ k.pin.isLt
        cbEffect := rest
        res := ⟨0, 0⟩ } })

/-- 44_callback_timer.md R203, R205, 60_exceptions.md R266: a handler entry point does nothing where the owner has no
service for it. -/
def Obligations.HandlersWithoutAServiceDoNothing : Prop :=
  ∀ s : State,
    (s.unit.owner = .idle ∨ s.unit.owner = .blocking →
      exec .onOverflow s = .next { s with unit := { s.unit with res := ⟨0, 0⟩ } }) ∧
    (s.unit.owner ≠ .callback →
      exec .onCompareMatch s = .next { s with unit := { s.unit with res := ⟨0, 0⟩ } })

/-- 44_callback_timer.md R202, R215: after `CANCEL`, waiting for any number of steps in which the host issues nothing
does not invoke the callback. (A callback of another unit issues operations to its own unit alone,
notes/assumptions/7.md.) -/
def Obligations.CancelledCallbackIsNeverInvoked : Prop :=
  ∀ (s t t' : State) (n : Nat), exec .cancel s = .next t → t.hostQueue = [] → runSteps n t = .next t' →
    ∃ u', t'.allUnits[s.selected]? = some u' ∧ u'.cb.log = s.unit.cb.log

/-- 44_callback_timer.md R215: under PROMPT with `GIE` = 1 and nobody else touching the unit, the callback is invoked
when exactly `total_ticks(p)` ticks have passed (the other steps of the run are the dispatches, one an overflow). The
input offers ticks only (notes/assumptions/3.md), one more than the schedule needs. -/
def Obligations.ScheduleInvokesAfterItsTotalTicks : Prop :=
  ∀ (s t : State) (periodic : Bool) (cb : CallbackRef) (ms : Word32) (p : TimerPlan), s.before = [] → s.after = [] →
    s.policy = .prompt → s.gie = true → s.unit.bt.active = false → s.unit.regs.cmpIe = false → s.unit.cbEffect = [] →
    s.unit.cfg.wellFormed → cb ≠ 0 → planDelay s.unit.cfg (val32 ms) = .ok p →
    s.turns = List.replicate (p.totalTicks + 1) (.tick 0) → exec (.schedule periodic cb ms) s = .next t →
    (∀ n t'', n < p.totalTicks + p.overflowsToWait.toNat → runSteps n t = .next t'' →
      t''.unit.cb.log = s.unit.cb.log) ∧
    ∃ t', runSteps (p.totalTicks + p.overflowsToWait.toNat) t = .next t' ∧ t'.turns = [.tick 0] ∧
      t'.unit.cb.log = s.unit.cb.log ++ [cb] ∧
      (periodic = true → t'.unit.regs.count = p.preload ∧ t'.unit.owner = .callback ∧ t'.unit.cb.count = 0) ∧
      (periodic = false → t'.unit.owner = .idle ∧ t'.unit.cb.callback = none ∧ t'.unit.regs.ovfIe = false)

/-! Registers and the interrupt mask. -/

/-- 45_register_ops.md R230: `SET_DIVIDER`. -/
def Obligations.SetDividerWritesTheClockSelect : Prop :=
  ∀ (cs : ClockCode) (s : State),
    ((cs = 0 ∨ ∃ d, divOf cs = some d ∧ d ∈ s.unit.cfg.dividers) →
      exec (.setDivider cs) s =
        .next { s with unit := { s.unit with regs := { s.unit.regs with cs := cs }, res := ⟨0, 0⟩ } }) ∧
    ((cs ≠ 0 ∧ ∀ d, divOf cs = some d → d ∉ s.unit.cfg.dividers) →
      exec (.setDivider cs) s = .next { s with unit := { s.unit with res := ⟨1, 0⟩ } })

/-- 45_register_ops.md R231 to R233: `SET_PRELOAD`, `READ_OVF` and `CLEAR_OVF`. -/
def Obligations.PreloadAndOverflowFlagMethods : Prop :=
  ∀ s : State,
    (∀ value, exec (.setPreload value) s =
      .next { s with unit := { s.unit with regs := { s.unit.regs with count := value }, res := ⟨0, 0⟩ } }) ∧
    exec .readOvf s =
      .next { s with unit := { s.unit with res := ⟨0, if s.unit.regs.ovf then 1 else 0⟩ } } ∧
    exec .clearOvf s =
      .next { s with unit := { s.unit with regs := { s.unit.regs with ovf := false }, res := ⟨0, 0⟩ } }

/-- 20_memory.md R68, R69: a register read, with reserved bits 0, has no effect but its result. -/
def Obligations.RegReadReturnsTheRegister : Prop :=
  ∀ s : State,
    exec (.regRead 0) s = .next { s with unit := { s.unit with res := ⟨0, 0#61 ++ s.unit.regs.cs⟩ } } ∧
    exec (.regRead 1) s = .next { s with unit := { s.unit with res := ⟨0, 0#56 ++ s.unit.regs.count⟩ } } ∧
    exec (.regRead 2) s = .next { s with unit := { s.unit with res := ⟨0, 0#56 ++ s.unit.regs.compare⟩ } } ∧
    exec (.regRead 3) s = .next { s with unit := { s.unit with res :=
      ⟨0, 0#62 ++ BitVec.ofBool s.unit.regs.cmf ++ BitVec.ofBool s.unit.regs.ovf⟩ } } ∧
    exec (.regRead 4) s = .next { s with unit := { s.unit with res :=
      ⟨0, 0#62 ++ BitVec.ofBool s.unit.regs.cmpIe ++ BitVec.ofBool s.unit.regs.ovfIe⟩ } } ∧
    ∀ idx : RegIndex, 4 < idx.toNat → exec (.regRead idx) s = .next { s with unit := { s.unit with res := ⟨1, 0⟩ } }

/-- 20_memory.md R63 to R67, R69: a register write, each register by its own rule. -/
def Obligations.RegWriteFollowsEachRegistersRule : Prop :=
  ∀ (v : Byte) (s : State),
    ((v.extractLsb' 0 3 = 0 ∨ ∃ d, divOf (v.extractLsb' 0 3) = some d ∧ d ∈ s.unit.cfg.dividers) →
      exec (.regWrite 0 v) s = .next { s with unit := { s.unit with
        regs := { s.unit.regs with cs := v.extractLsb' 0 3 }, res := ⟨0, 0⟩ } }) ∧
    ((v.extractLsb' 0 3 ≠ 0 ∧ ∀ d, divOf (v.extractLsb' 0 3) = some d → d ∉ s.unit.cfg.dividers) →
      exec (.regWrite 0 v) s = .next { s with unit := { s.unit with res := ⟨1, 0⟩ } }) ∧
    exec (.regWrite 1 v) s = .next { s with unit := { s.unit with
      regs := { s.unit.regs with count := v }, res := ⟨0, 0⟩ } } ∧
    exec (.regWrite 2 v) s = .next { s with unit := { s.unit with
      regs := { s.unit.regs with compare := v }, res := ⟨0, 0⟩ } } ∧
    exec (.regWrite 3 v) s = .next { s with unit := { s.unit with
      regs := { s.unit.regs with
        ovf := if v.getLsbD 0 then false else s.unit.regs.ovf
        cmf := if v.getLsbD 1 then false else s.unit.regs.cmf }
      res := ⟨0, 0⟩ } } ∧
    exec (.regWrite 4 v) s = .next { s with unit := { s.unit with
      regs := { s.unit.regs with ovfIe := v.getLsbD 0, cmpIe := v.getLsbD 1 }, res := ⟨0, 0⟩ } } ∧
    ∀ idx : RegIndex, 4 < idx.toNat →
      exec (.regWrite idx v) s = .next { s with unit := { s.unit with res := ⟨1, 0⟩ } }

/-- 20_memory.md R63 to R68: reading a register right after a successful write of it gives the bits that were stored,
reserved bits 0, and for FLAGS the flags the write did not clear. -/
def Obligations.ReadAfterWrite : Prop :=
  ∀ (idx : RegIndex) (v : Byte) (s t t' : State), exec (.regWrite idx v) s = .next t → t.unit.res.status = 0 →
    exec (.regRead idx) t = .next t' →
    t'.unit.res = ⟨0, 0#56 ++
      (if idx = 0 then v &&& 0x07 else if idx = 3 then
          (0#6 ++ BitVec.ofBool s.unit.regs.cmf ++ BitVec.ofBool s.unit.regs.ovf) &&& ~~~v
        else if idx = 4 then v &&& 0x03 else v : Byte)⟩

/-- 45_register_ops.md R236, R237: the two halves of the critical section; after `IRQ_DISABLE` no source is eligible. -/
def Obligations.InterruptMaskOperations : Prop :=
  ∀ s : State,
    exec .irqDisable s = .next { s with gie := false, unit := { s.unit with res := ⟨0, 0⟩ } } ∧
    exec .irqEnable s = .next { s with gie := true, unit := { s.unit with res := ⟨0, 0⟩ } } ∧
    (∀ t k, exec .irqDisable s = .next t → ¬Enabled t (.dispatch k)) ∧
    (∀ t src, exec .irqEnable s = .next t → s.unit.regs.pending src = true → s.unit.regs.enabled src = true →
      Enabled t (.dispatch s.selected))

/-! Taking an interrupt. -/

/-- 60_exceptions.md R268, R269: a source is eligible iff its flag, its enable bit and `GIE` are all 1, and compare match
is taken before overflow. -/
def Obligations.CompareMatchIsTakenBeforeOverflow : Prop :=
  ∀ s : State,
    (eligible s.gie s.unit .overflow = true ↔
      s.unit.regs.ovf = true ∧ s.unit.regs.ovfIe = true ∧ s.gie = true) ∧
    (eligible s.gie s.unit .compareMatch = true ↔
      s.unit.regs.cmf = true ∧ s.unit.regs.cmpIe = true ∧ s.gie = true) ∧
    (eligible s.gie s.unit .compareMatch = true → irqDispatch s = takeInterrupt .compareMatch compareBody s) ∧
    (eligible s.gie s.unit .compareMatch = false → eligible s.gie s.unit .overflow = true →
      irqDispatch s = takeInterrupt .overflow overflowBody s)

/-- 60_exceptions.md R270 to R272: taking an interrupt clears the flag of its source before the body, which sees `GIE` =
0, and leaves `GIE` at 1; the other flag stays and, where no callback issues operations, the result registers too. The
step `IRQ_DISPATCH` of a unit is this, for the eligible source of highest priority, but where its service invokes a
callback that never returns, and there it is stuck (93_implementation_defined.md U10). -/
def Obligations.TakingAnInterruptClearsServesAndReturns : Prop :=
  ∀ s : State,
    takeInterrupt .overflow overflowBody s =
      { overflowBody { s with gie := false, unit := { s.unit with regs := { s.unit.regs with ovf := false } } } with
        gie := true } ∧
    takeInterrupt .compareMatch compareBody s =
      { compareBody { s with gie := false, unit := { s.unit with regs := { s.unit.regs with cmf := false } } } with
        gie := true } ∧
    (takeInterrupt .overflow overflowBody s).unit.regs.ovf = false ∧
    (takeInterrupt .compareMatch compareBody s).unit.regs.cmf = false ∧
    (s.unit.cbEffect = [] →
      (takeInterrupt .overflow overflowBody s).unit.res = s.unit.res ∧
      (takeInterrupt .overflow overflowBody s).unit.regs.cmf = s.unit.regs.cmf ∧
      (takeInterrupt .compareMatch compareBody s).unit.res = s.unit.res ∧
      (takeInterrupt .compareMatch compareBody s).unit.regs.ovf = s.unit.regs.ovf) ∧
    (¬(s.unit.owner = .callback ∧ s.unit.cb.count + 1 = s.unit.cb.target ∧ s.unit.cb.callback ≠ none ∧
        s.unit.cbEffect.head? = some .never) →
      (eligible s.gie s.unit .compareMatch = true →
        perform (.dispatch s.selected) s = .next (takeInterrupt .compareMatch compareBody s)) ∧
      (eligible s.gie s.unit .compareMatch = false → eligible s.gie s.unit .overflow = true →
        perform (.dispatch s.selected) s = .next (takeInterrupt .overflow overflowBody s))) ∧
    (s.unit.owner = .callback → s.unit.cb.count + 1 = s.unit.cb.target → s.unit.cb.callback ≠ none →
      s.unit.cbEffect.head? = some .never → Enabled s (.dispatch s.selected) →
      perform (.dispatch s.selected) s = .fault .callbackNeverReturns)
end

