-- ==== Sys2Proof/Laws/PerInstr.lean ====
section
/-! SUPPORT. One lemma an operation: its encoding lies in its row of the opcode map (spec/30_encoding.md R90). -/

namespace Sys2Proof.Laws

/-- The encoding of an operation matches the row that 30_encoding.md R90 gives it. -/
def EncodesInRow.Statement (i : Instr) : Prop := encode i &&& i.row.maskBits = i.row.matchBits

namespace EncodesInRow

/-- A mask with no bit in the operand's place drops the operand. -/
theorem drop_operand {k l : Nat} (a m : BitVec k) (b : BitVec l) : (a ++ b) &&& (m ++ 0#l) = (a &&& m) ++ 0#l := by
  rw [BitVec.and_append]
  simp

theorem planDelay (ms : Word32) : Statement (.planDelay ms) :=
  (drop_operand (0x01#8 ++ 0#24) 0xFFFFFFFF#32 ms).trans rfl

theorem delayBlocking (cs : ClockCode) (preload : Byte) (rep : Word32) :
    Statement (.delayBlocking cs preload rep) := by
  show ((0x02#8 ++ 0#13) ++ cs ++ preload ++ rep) &&& (0x1FFFFF#21 ++ 0#3 ++ 0#8 ++ 0#32) = _
  rw [drop_operand, drop_operand, drop_operand]
  rfl

theorem pwmConfigure (pin : PinRef) (khz : Word32) : Statement (.pwmConfigure pin khz) := by
  show ((0x03#8 ++ 0#16) ++ pin ++ khz) &&& (0xFFFFFF#24 ++ 0#8 ++ 0#32) = _
  rw [drop_operand, drop_operand]
  rfl

theorem pwmStart (duty : Byte) : Statement (.pwmStart duty) :=
  (drop_operand (0x04#8 ++ 0#48) 0xFFFFFFFFFFFFFF#56 duty).trans rfl

theorem pwmStop : Statement .pwmStop := rfl

theorem schedule (periodic : Bool) (callback : CallbackRef) (ms : Word32) :
    Statement (.schedule periodic callback ms) := by
  show ((0x06#8 ++ 0#7) ++ BitVec.ofBool periodic ++ callback ++ ms) &&& (0x7FFF#15 ++ 0#1 ++ 0#16 ++ 0#32) = _
  rw [drop_operand, drop_operand, drop_operand]
  rfl

theorem cancel : Statement .cancel := rfl

theorem setDivider (cs : ClockCode) : Statement (.setDivider cs) :=
  (drop_operand (0x10#8 ++ 0#53) 0x1FFFFFFFFFFFFFFF#61 cs).trans rfl

theorem setPreload (value : Byte) : Statement (.setPreload value) :=
  (drop_operand (0x11#8 ++ 0#48) 0xFFFFFFFFFFFFFF#56 value).trans rfl

theorem readOvf : Statement .readOvf := rfl

theorem clearOvf : Statement .clearOvf := rfl

theorem regRead (idx : RegIndex) : Statement (.regRead idx) := by
  show ((0x14#8 ++ 0#45) ++ idx ++ 0#8) &&& (0x1FFFFFFFFFFFFF#53 ++ 0#3 ++ 0xFF#8) = _
  rw [BitVec.and_append, drop_operand]
  rfl

theorem regWrite (idx : RegIndex) (value : Byte) : Statement (.regWrite idx value) := by
  show ((0x15#8 ++ 0#45) ++ idx ++ value) &&& (0x1FFFFFFFFFFFFF#53 ++ 0#3 ++ 0#8) = _
  rw [drop_operand, drop_operand]
  rfl

theorem irqDisable : Statement .irqDisable := rfl

theorem irqEnable : Statement .irqEnable := rfl

theorem onCompareMatch : Statement .onCompareMatch := rfl

theorem onOverflow : Statement .onOverflow := rfl

end EncodesInRow

end Sys2Proof.Laws
end

