-- ==== Sys2Proof/Laws/Encoding.lean ====
section
/-! SUPPORT. Taking fields out of a word built by appending, and what the decoder's outcome says of a word
(spec/30_encoding.md R80, R81, R91). -/

namespace Sys2Proof

/-- The low field of an appended word. -/
theorem extract_low {k l : Nat} (a : BitVec k) (b : BitVec l) : (a ++ b).extractLsb' 0 l = b := by
  apply BitVec.eq_of_getLsbD_eq
  intro i hi
  simp [BitVec.getLsbD_append, hi]

/-- A field above the low part of an appended word. -/
theorem extract_above {k l : Nat} (a : BitVec k) (b : BitVec l) (start len : Nat) :
    (a ++ b).extractLsb' (l + start) len = a.extractLsb' start len := by
  apply BitVec.eq_of_getLsbD_eq
  intro i hi
  have h1 : ¬l + start + i < l := by omega
  have h2 : l + start + i - l = start + i := by omega
  simp [BitVec.getLsbD_append, hi, h1, h2]

/-- The whole high part of an appended word. -/
theorem extract_high {k l : Nat} (a : BitVec k) (b : BitVec l) : (a ++ b).extractLsb' l k = a := by
  have h := extract_above a b 0 k
  simpa using h

/-- A word is its high part appended to its low part. -/
theorem append_extract {k l : Nat} (w : BitVec (k + l)) : w.extractLsb' l k ++ w.extractLsb' 0 l = w := by
  apply BitVec.eq_of_getLsbD_eq
  intro i hi
  simp

/-- The decoder's one way to accept. -/
theorem ifReservedZero_ok {w m : Word} {i j : Instr} :
    ifReservedZero w m i = .ok j ↔ w &&& m = 0 ∧ i = j := by
  unfold ifReservedZero
  split <;> simp_all

/-- The bits below an opcode, by masks: a mask with the opcode in it splits into the opcode and the reserved bits. -/
theorem row_matches_iff {w : Word} (op : Byte) (reserved : BitVec 56) :
    w &&& (0xFF#8 ++ reserved : Word) = (op ++ 0#56 : Word) ↔ opcodeOf w = op ∧ w &&& (0#8 ++ reserved : Word) = 0 := by
  have key : ∀ hi : BitVec 8, ∀ lo : BitVec 56,
      ((hi ++ lo) &&& (0xFF#8 ++ reserved) = op ++ 0#56 ↔
        (hi ++ lo).extractLsb' 56 8 = op ∧ (hi ++ lo) &&& (0#8 ++ reserved) = 0#8 ++ 0#56) := by
    intro hi lo
    rw [BitVec.and_append, BitVec.and_append, extract_high]
    have e : hi &&& 0xFF#8 = hi := BitVec.and_allOnes
    have z : hi &&& 0#8 = 0#8 := BitVec.and_zero
    rw [e, z]
    constructor
    · intro h
      have h1 := congrArg (fun x => BitVec.extractLsb' 56 8 x) h
      have h2 := congrArg (fun x => BitVec.extractLsb' 0 56 x) h
      simp only [extract_high, extract_low] at h1 h2
      exact ⟨h1, by rw [h2]⟩
    · rintro ⟨rfl, h⟩
      have h2 := congrArg (fun x => BitVec.extractLsb' 0 56 x) h
      simp only [extract_low] at h2
      rw [h2]
  have h := key (w.extractLsb' 56 8) (w.extractLsb' 0 56)
  rw [append_extract (k := 8) (l := 56) w] at h
  exact h

/-- The opcode of an encoded operation is the opcode of its row. -/
theorem opcodeOf_encode (i : Instr) : opcodeOf (encode i) = opcodeOf i.row.matchBits := by
  cases i with
  | planDelay ms =>
    simp only [Instr.row]
    exact (extract_above (k := 32) (l := 32) (0x01#8 ++ 0#24) ms 24 8).trans (by decide)
  | delayBlocking cs preload rep =>
    simp only [Instr.row]
    exact (extract_above (k := 32) (l := 32) ((0x02#8 ++ 0#13) ++ cs ++ preload) rep 24 8).trans
      ((extract_above (k := 24) (l := 8) ((0x02#8 ++ 0#13) ++ cs) preload 16 8).trans
      ((extract_above (k := 21) (l := 3) (0x02#8 ++ 0#13) cs 13 8).trans (by decide)))
  | pwmConfigure pin khz =>
    simp only [Instr.row]
    exact (extract_above (k := 32) (l := 32) ((0x03#8 ++ 0#16) ++ pin) khz 24 8).trans
      ((extract_above (k := 24) (l := 8) (0x03#8 ++ 0#16) pin 16 8).trans (by decide))
  | pwmStart duty =>
    simp only [Instr.row]
    exact (extract_above (k := 56) (l := 8) (0x04#8 ++ 0#48) duty 48 8).trans (by decide)
  | pwmStop => decide
  | schedule periodic callback ms =>
    simp only [Instr.row]
    exact (extract_above (k := 32) (l := 32) ((0x06#8 ++ 0#7) ++ BitVec.ofBool periodic ++ callback) ms 24 8).trans
      ((extract_above (k := 16) (l := 16) ((0x06#8 ++ 0#7) ++ BitVec.ofBool periodic) callback 8 8).trans
      ((extract_above (k := 15) (l := 1) (0x06#8 ++ 0#7) (BitVec.ofBool periodic) 7 8).trans (by decide)))
  | cancel => decide
  | setDivider cs =>
    simp only [Instr.row]
    exact (extract_above (k := 61) (l := 3) (0x10#8 ++ 0#53) cs 53 8).trans (by decide)
  | setPreload value =>
    simp only [Instr.row]
    exact (extract_above (k := 56) (l := 8) (0x11#8 ++ 0#48) value 48 8).trans (by decide)
  | readOvf => decide
  | clearOvf => decide
  | regRead idx =>
    simp only [Instr.row]
    exact (extract_above (k := 56) (l := 8) ((0x14#8 ++ 0#45) ++ idx) 0#8 48 8).trans
      ((extract_above (k := 53) (l := 3) (0x14#8 ++ 0#45) idx 45 8).trans (by decide))
  | regWrite idx value =>
    simp only [Instr.row]
    exact (extract_above (k := 56) (l := 8) ((0x15#8 ++ 0#45) ++ idx) value 48 8).trans
      ((extract_above (k := 53) (l := 3) (0x15#8 ++ 0#45) idx 45 8).trans (by decide))
  | irqDisable => decide
  | irqEnable => decide
  | onCompareMatch => decide
  | onOverflow => decide

end Sys2Proof
end

