-- ==== Sys2Proof/Laws/Operands.lean ====
section
/-! SUPPORT. What the operand forms say once and for all: codes and dividers are inverse, ticks are positive, `D_MIN` and
`D_MAX` are members (spec/30_encoding.md R86; spec/40_prescaler_counter.md R111 to R113). -/

namespace Sys2Proof

@[simp] theorem divOf_code (d : Divider) : divOf d.code = some d := by cases d <;> rfl

theorem code_of_divOf {c : ClockCode} {d : Divider} (h : divOf c = some d) : d.code = c := by
  revert d
  revert c
  decide

@[simp] theorem divOf_eq_none {c : ClockCode} : divOf c = none ↔ c = 0 := by
  revert c
  decide

@[simp] theorem Divider.code_ne_zero (d : Divider) : d.code ≠ 0 := by cases d <;> decide

theorem Divider.value_pos (d : Divider) : 0 < d.value := by cases d <;> decide

theorem Divider.value_injective {a b : Divider} (h : a.value = b.value) : a = b := by
  revert h
  cases a <;> cases b <;> decide

/-- A code may be stored iff it has no divider or its divider is a member of the set. -/
theorem codeSupported_iff {cfg : UnitConfig} {c : ClockCode} :
    codeSupported cfg c = true ↔ ∀ d, divOf c = some d → d ∈ cfg.dividers := by
  unfold codeSupported
  cases h : divOf c <;> simp

theorem tickMs_pos {cfg : UnitConfig} (h : 0 < cfg.fCpu) (d : Divider) : 0 < tickMs cfg d := by
  have hf : (0 : Rat) < (cfg.fCpu : Rat) := by exact_mod_cast h
  have hd : (0 : Rat) < (d.value : Rat) := by exact_mod_cast d.value_pos
  unfold tickMs
  positivity

theorem maxDelay_eq (cfg : UnitConfig) (d : Divider) : maxDelay cfg d = 256 * tickMs cfg d := by
  simp [maxDelay, maxCount]

theorem maxDelay_pos {cfg : UnitConfig} (h : 0 < cfg.fCpu) (d : Divider) : 0 < maxDelay cfg d := by
  rw [maxDelay_eq]
  have := tickMs_pos h d
  positivity

/-- Ticks grow with the divider. -/
theorem tickMs_le {cfg : UnitConfig} (h : 0 < cfg.fCpu) {a b : Divider} (hab : a.value ≤ b.value) :
    tickMs cfg a ≤ tickMs cfg b := by
  have hf : (0 : Rat) < (cfg.fCpu : Rat) := by exact_mod_cast h
  have hv : (a.value : Rat) ≤ (b.value : Rat) := by exact_mod_cast hab
  unfold tickMs
  gcongr

theorem maxDelay_le {cfg : UnitConfig} (h : 0 < cfg.fCpu) {a b : Divider} (hab : a.value ≤ b.value) :
    maxDelay cfg a ≤ maxDelay cfg b := by
  rw [maxDelay_eq, maxDelay_eq]
  have := tickMs_le h hab
  linarith

/-- `D_MIN` is a member and no member is smaller. -/
theorem dMin_spec {cfg : UnitConfig} (h : cfg.wellFormed) :
    dMin cfg ∈ cfg.dividers ∧ ∀ d ∈ cfg.dividers, (dMin cfg).value ≤ d.value := by
  obtain ⟨-, hne, hp⟩ := h
  unfold dMin
  cases hd : cfg.dividers with
  | nil => exact absurd hd hne
  | cons a l =>
    rw [hd, List.pairwise_cons] at hp
    refine ⟨by simp, fun d hm => ?_⟩
    rcases List.mem_cons.mp hm with rfl | hm
    · simp
    · exact (hp.1 d hm).le

/-- `D_MAX` is a member and no member is larger. -/
theorem dMax_spec {cfg : UnitConfig} (h : cfg.wellFormed) :
    dMax cfg ∈ cfg.dividers ∧ ∀ d ∈ cfg.dividers, d.value ≤ (dMax cfg).value := by
  obtain ⟨-, hne, hp⟩ := h
  have hlast : dMax cfg = cfg.dividers.getLast hne := by
    unfold dMax
    rw [List.getLastD_eq_getLast?, List.getLast?_eq_some_getLast hne]
    rfl
  rw [hlast]
  refine ⟨List.getLast_mem hne, fun d hm => ?_⟩
  clear hlast
  generalize cfg.dividers = l at hne hp hm
  induction l with
  | nil => exact absurd rfl hne
  | cons a l ih =>
    rw [List.pairwise_cons] at hp
    by_cases hl : l = []
    · subst hl
      simp_all
    · rw [List.getLast_cons hl]
      rcases List.mem_cons.mp hm with rfl | hm
      · exact (hp.1 _ (List.getLast_mem hl)).le
      · exact ih hl hp.2 hm

/-- A delay operand is accepted iff it is finite and not negative. -/
theorem delayOk_iff {ms : Word32} : delayOk ms = true ↔ ∃ x, val32 ms = some x ∧ 0 ≤ x := by
  unfold delayOk
  cases val32 ms <;> simp

/-- A frequency operand is accepted iff it is finite and positive. -/
theorem frequencyOk_iff {khz : Word32} : frequencyOk khz = true ↔ ∃ f, val32 khz = some f ∧ 0 < f := by
  unfold frequencyOk
  cases val32 khz <;> simp

end Sys2Proof
end

