-- ==== Sys2Proof/Laws/State.lean ====
section
/-! SUPPORT. One lemma for each field and each named update of a unit and of the system, all true by unfolding, so that
no proof unfolds a record update (spec/10_state.md). -/

namespace Sys2Proof.Machine

/-! `TimerUnit.ret`. -/

@[simp] theorem TimerUnit_ret_cfg (v : Word) (u : TimerUnit) : (u.ret v).cfg = u.cfg := rfl
@[simp] theorem TimerUnit_ret_regs (v : Word) (u : TimerUnit) : (u.ret v).regs = u.regs := rfl
@[simp] theorem TimerUnit_ret_owner (v : Word) (u : TimerUnit) : (u.ret v).owner = u.owner := rfl
@[simp] theorem TimerUnit_ret_pwm (v : Word) (u : TimerUnit) : (u.ret v).pwm = u.pwm := rfl
@[simp] theorem TimerUnit_ret_cb (v : Word) (u : TimerUnit) : (u.ret v).cb = u.cb := rfl
@[simp] theorem TimerUnit_ret_bt (v : Word) (u : TimerUnit) : (u.ret v).bt = u.bt := rfl
@[simp] theorem TimerUnit_ret_res (v : Word) (u : TimerUnit) : (u.ret v).res = { status := 0, value := v } := rfl
@[simp] theorem TimerUnit_ret_pins (v : Word) (u : TimerUnit) : (u.ret v).pins = u.pins := rfl
@[simp] theorem TimerUnit_ret_cbEffect (v : Word) (u : TimerUnit) : (u.ret v).cbEffect = u.cbEffect := rfl

/-! `TimerUnit.raise`. -/

@[simp] theorem TimerUnit_raise_cfg (e : ErrorCode) (u : TimerUnit) : (u.raise e).cfg = u.cfg := rfl
@[simp] theorem TimerUnit_raise_regs (e : ErrorCode) (u : TimerUnit) : (u.raise e).regs = u.regs := rfl
@[simp] theorem TimerUnit_raise_owner (e : ErrorCode) (u : TimerUnit) : (u.raise e).owner = u.owner := rfl
@[simp] theorem TimerUnit_raise_pwm (e : ErrorCode) (u : TimerUnit) : (u.raise e).pwm = u.pwm := rfl
@[simp] theorem TimerUnit_raise_cb (e : ErrorCode) (u : TimerUnit) : (u.raise e).cb = u.cb := rfl
@[simp] theorem TimerUnit_raise_bt (e : ErrorCode) (u : TimerUnit) : (u.raise e).bt = u.bt := rfl
@[simp] theorem TimerUnit_raise_res (e : ErrorCode) (u : TimerUnit) : (u.raise e).res = { status := e.code, value := 0 } := rfl
@[simp] theorem TimerUnit_raise_pins (e : ErrorCode) (u : TimerUnit) : (u.raise e).pins = u.pins := rfl
@[simp] theorem TimerUnit_raise_cbEffect (e : ErrorCode) (u : TimerUnit) : (u.raise e).cbEffect = u.cbEffect := rfl

/-! `TimerUnit.writePin`. -/

@[simp] theorem TimerUnit_writePin_cfg (p : PinRef) (st : PinState) (u : TimerUnit) : (u.writePin p st).cfg = u.cfg := rfl
@[simp] theorem TimerUnit_writePin_regs (p : PinRef) (st : PinState) (u : TimerUnit) : (u.writePin p st).regs = u.regs := rfl
@[simp] theorem TimerUnit_writePin_owner (p : PinRef) (st : PinState) (u : TimerUnit) : (u.writePin p st).owner = u.owner := rfl
@[simp] theorem TimerUnit_writePin_pwm (p : PinRef) (st : PinState) (u : TimerUnit) : (u.writePin p st).pwm = u.pwm := rfl
@[simp] theorem TimerUnit_writePin_cb (p : PinRef) (st : PinState) (u : TimerUnit) : (u.writePin p st).cb = u.cb := rfl
@[simp] theorem TimerUnit_writePin_bt (p : PinRef) (st : PinState) (u : TimerUnit) : (u.writePin p st).bt = u.bt := rfl
@[simp] theorem TimerUnit_writePin_res (p : PinRef) (st : PinState) (u : TimerUnit) : (u.writePin p st).res = u.res := rfl
@[simp] theorem TimerUnit_writePin_pins (p : PinRef) (st : PinState) (u : TimerUnit) : (u.writePin p st).pins = u.pins.set p.toNat st p.isLt := rfl
@[simp] theorem TimerUnit_writePin_cbEffect (p : PinRef) (st : PinState) (u : TimerUnit) : (u.writePin p st).cbEffect = u.cbEffect := rfl

/-! `TimerUnit.setPin`. -/

@[simp] theorem TimerUnit_setPin_cfg (p : PinRef) (l : PinLevel) (u : TimerUnit) : (u.setPin p l).cfg = u.cfg := rfl
@[simp] theorem TimerUnit_setPin_regs (p : PinRef) (l : PinLevel) (u : TimerUnit) : (u.setPin p l).regs = u.regs := rfl
@[simp] theorem TimerUnit_setPin_owner (p : PinRef) (l : PinLevel) (u : TimerUnit) : (u.setPin p l).owner = u.owner := rfl
@[simp] theorem TimerUnit_setPin_pwm (p : PinRef) (l : PinLevel) (u : TimerUnit) : (u.setPin p l).pwm = u.pwm := rfl
@[simp] theorem TimerUnit_setPin_cb (p : PinRef) (l : PinLevel) (u : TimerUnit) : (u.setPin p l).cb = u.cb := rfl
@[simp] theorem TimerUnit_setPin_bt (p : PinRef) (l : PinLevel) (u : TimerUnit) : (u.setPin p l).bt = u.bt := rfl
@[simp] theorem TimerUnit_setPin_res (p : PinRef) (l : PinLevel) (u : TimerUnit) : (u.setPin p l).res = u.res := rfl
@[simp] theorem TimerUnit_setPin_cbEffect (p : PinRef) (l : PinLevel) (u : TimerUnit) : (u.setPin p l).cbEffect = u.cbEffect := rfl

/-! `TimerUnit.togglePin`. -/

@[simp] theorem TimerUnit_togglePin_cfg (p : PinRef) (u : TimerUnit) : (u.togglePin p).cfg = u.cfg := rfl
@[simp] theorem TimerUnit_togglePin_regs (p : PinRef) (u : TimerUnit) : (u.togglePin p).regs = u.regs := rfl
@[simp] theorem TimerUnit_togglePin_owner (p : PinRef) (u : TimerUnit) : (u.togglePin p).owner = u.owner := rfl
@[simp] theorem TimerUnit_togglePin_pwm (p : PinRef) (u : TimerUnit) : (u.togglePin p).pwm = u.pwm := rfl
@[simp] theorem TimerUnit_togglePin_cb (p : PinRef) (u : TimerUnit) : (u.togglePin p).cb = u.cb := rfl
@[simp] theorem TimerUnit_togglePin_bt (p : PinRef) (u : TimerUnit) : (u.togglePin p).bt = u.bt := rfl
@[simp] theorem TimerUnit_togglePin_res (p : PinRef) (u : TimerUnit) : (u.togglePin p).res = u.res := rfl
@[simp] theorem TimerUnit_togglePin_cbEffect (p : PinRef) (u : TimerUnit) : (u.togglePin p).cbEffect = u.cbEffect := rfl

/-! `TimerUnit.configurePin`. -/

@[simp] theorem TimerUnit_configurePin_cfg (p : PinRef) (d : PinDir) (u : TimerUnit) : (u.configurePin p d).cfg = u.cfg := rfl
@[simp] theorem TimerUnit_configurePin_regs (p : PinRef) (d : PinDir) (u : TimerUnit) : (u.configurePin p d).regs = u.regs := rfl
@[simp] theorem TimerUnit_configurePin_owner (p : PinRef) (d : PinDir) (u : TimerUnit) : (u.configurePin p d).owner = u.owner := rfl
@[simp] theorem TimerUnit_configurePin_pwm (p : PinRef) (d : PinDir) (u : TimerUnit) : (u.configurePin p d).pwm = u.pwm := rfl
@[simp] theorem TimerUnit_configurePin_cb (p : PinRef) (d : PinDir) (u : TimerUnit) : (u.configurePin p d).cb = u.cb := rfl
@[simp] theorem TimerUnit_configurePin_bt (p : PinRef) (d : PinDir) (u : TimerUnit) : (u.configurePin p d).bt = u.bt := rfl
@[simp] theorem TimerUnit_configurePin_res (p : PinRef) (d : PinDir) (u : TimerUnit) : (u.configurePin p d).res = u.res := rfl
@[simp] theorem TimerUnit_configurePin_cbEffect (p : PinRef) (d : PinDir) (u : TimerUnit) : (u.configurePin p d).cbEffect = u.cbEffect := rfl

/-! `tick`. -/

@[simp] theorem tick_cfg (u : TimerUnit) : (tick u).cfg = u.cfg := rfl
@[simp] theorem tick_owner (u : TimerUnit) : (tick u).owner = u.owner := rfl
@[simp] theorem tick_pwm (u : TimerUnit) : (tick u).pwm = u.pwm := rfl
@[simp] theorem tick_cb (u : TimerUnit) : (tick u).cb = u.cb := rfl
@[simp] theorem tick_bt (u : TimerUnit) : (tick u).bt = u.bt := rfl
@[simp] theorem tick_res (u : TimerUnit) : (tick u).res = u.res := rfl
@[simp] theorem tick_pins (u : TimerUnit) : (tick u).pins = u.pins := rfl
@[simp] theorem tick_cbEffect (u : TimerUnit) : (tick u).cbEffect = u.cbEffect := rfl

/-! `startBlocking`. -/

@[simp] theorem startBlocking_cfg (p : TimerPlan) (u : TimerUnit) : (startBlocking p u).cfg = u.cfg := rfl
@[simp] theorem startBlocking_regs (p : TimerPlan) (u : TimerUnit) : (startBlocking p u).regs = { u.regs with count := p.preload, ovf := false, cs := p.divider.code } := rfl
@[simp] theorem startBlocking_owner (p : TimerPlan) (u : TimerUnit) : (startBlocking p u).owner = .blocking := rfl
@[simp] theorem startBlocking_pwm (p : TimerPlan) (u : TimerUnit) : (startBlocking p u).pwm = u.pwm := rfl
@[simp] theorem startBlocking_cb (p : TimerPlan) (u : TimerUnit) : (startBlocking p u).cb = u.cb := rfl
@[simp] theorem startBlocking_bt (p : TimerPlan) (u : TimerUnit) : (startBlocking p u).bt = { active := true, remaining := p.overflowsToWait } := rfl
@[simp] theorem startBlocking_res (p : TimerPlan) (u : TimerUnit) : (startBlocking p u).res = u.res := rfl
@[simp] theorem startBlocking_pins (p : TimerPlan) (u : TimerUnit) : (startBlocking p u).pins = u.pins := rfl
@[simp] theorem startBlocking_cbEffect (p : TimerPlan) (u : TimerUnit) : (startBlocking p u).cbEffect = u.cbEffect := rfl

/-! `completeBlocking`. -/

@[simp] theorem completeBlocking_cfg (u : TimerUnit) : (completeBlocking u).cfg = u.cfg := rfl
@[simp] theorem completeBlocking_regs (u : TimerUnit) : (completeBlocking u).regs = { u.regs with ovf := false, cs := 0 } := rfl
@[simp] theorem completeBlocking_owner (u : TimerUnit) : (completeBlocking u).owner = .idle := rfl
@[simp] theorem completeBlocking_pwm (u : TimerUnit) : (completeBlocking u).pwm = u.pwm := rfl
@[simp] theorem completeBlocking_cb (u : TimerUnit) : (completeBlocking u).cb = u.cb := rfl
@[simp] theorem completeBlocking_bt (u : TimerUnit) : (completeBlocking u).bt = { active := false, remaining := 0 } := rfl
@[simp] theorem completeBlocking_res (u : TimerUnit) : (completeBlocking u).res = { status := 0, value := 0 } := rfl
@[simp] theorem completeBlocking_pins (u : TimerUnit) : (completeBlocking u).pins = u.pins := rfl
@[simp] theorem completeBlocking_cbEffect (u : TimerUnit) : (completeBlocking u).cbEffect = u.cbEffect := rfl

/-! `completeOneShot`. -/

@[simp] theorem completeOneShot_cfg (u : TimerUnit) : (completeOneShot u).cfg = u.cfg := rfl
@[simp] theorem completeOneShot_regs (u : TimerUnit) : (completeOneShot u).regs = { u.regs with ovfIe := false, cmpIe := false } := rfl
@[simp] theorem completeOneShot_owner (u : TimerUnit) : (completeOneShot u).owner = if u.owner = .callback then .idle else u.owner := rfl
@[simp] theorem completeOneShot_pwm (u : TimerUnit) : (completeOneShot u).pwm = u.pwm := rfl
@[simp] theorem completeOneShot_cb (u : TimerUnit) : (completeOneShot u).cb = { u.cb with callback := none } := rfl
@[simp] theorem completeOneShot_bt (u : TimerUnit) : (completeOneShot u).bt = u.bt := rfl
@[simp] theorem completeOneShot_res (u : TimerUnit) : (completeOneShot u).res = u.res := rfl
@[simp] theorem completeOneShot_pins (u : TimerUnit) : (completeOneShot u).pins = u.pins := rfl
@[simp] theorem completeOneShot_cbEffect (u : TimerUnit) : (completeOneShot u).cbEffect = u.cbEffect := rfl

/-! `armSchedule`. -/

@[simp] theorem armSchedule_cfg (b : Bool) (c : CallbackRef) (p : TimerPlan) (u : TimerUnit) : (armSchedule b c p u).cfg = u.cfg := rfl
@[simp] theorem armSchedule_regs (b : Bool) (c : CallbackRef) (p : TimerPlan) (u : TimerUnit) : (armSchedule b c p u).regs = 
    { u.regs with count := p.preload, ovf := false, cs := p.divider.code, ovfIe := true } := rfl
@[simp] theorem armSchedule_owner (b : Bool) (c : CallbackRef) (p : TimerPlan) (u : TimerUnit) : (armSchedule b c p u).owner = .callback := rfl
@[simp] theorem armSchedule_pwm (b : Bool) (c : CallbackRef) (p : TimerPlan) (u : TimerUnit) : (armSchedule b c p u).pwm = u.pwm := rfl
@[simp] theorem armSchedule_cb (b : Bool) (c : CallbackRef) (p : TimerPlan) (u : TimerUnit) : (armSchedule b c p u).cb = 
    { u.cb with callback := callbackOf c, target := p.overflowsToWait, count := 0, preload := p.preload, periodic := b } := rfl
@[simp] theorem armSchedule_bt (b : Bool) (c : CallbackRef) (p : TimerPlan) (u : TimerUnit) : (armSchedule b c p u).bt = u.bt := rfl
@[simp] theorem armSchedule_res (b : Bool) (c : CallbackRef) (p : TimerPlan) (u : TimerUnit) : (armSchedule b c p u).res = u.res := rfl
@[simp] theorem armSchedule_pins (b : Bool) (c : CallbackRef) (p : TimerPlan) (u : TimerUnit) : (armSchedule b c p u).pins = u.pins := rfl
@[simp] theorem armSchedule_cbEffect (b : Bool) (c : CallbackRef) (p : TimerPlan) (u : TimerUnit) : (armSchedule b c p u).cbEffect = u.cbEffect := rfl

/-! `startConstant`. -/

@[simp] theorem startConstant_cfg (p : PinRef) (d : Byte) (u : TimerUnit) : (startConstant p d u).cfg = u.cfg := rfl
@[simp] theorem startConstant_regs (p : PinRef) (d : Byte) (u : TimerUnit) : (startConstant p d u).regs = { u.regs with cs := 0, ovf := false, ovfIe := true } := rfl
@[simp] theorem startConstant_owner (p : PinRef) (d : Byte) (u : TimerUnit) : (startConstant p d u).owner = .pwm := rfl
@[simp] theorem startConstant_pwm (p : PinRef) (d : Byte) (u : TimerUnit) : (startConstant p d u).pwm = { u.pwm with onPlan := none, offPlan := none, phase := .onPhase } := rfl
@[simp] theorem startConstant_cb (p : PinRef) (d : Byte) (u : TimerUnit) : (startConstant p d u).cb = u.cb := rfl
@[simp] theorem startConstant_bt (p : PinRef) (d : Byte) (u : TimerUnit) : (startConstant p d u).bt = u.bt := rfl
@[simp] theorem startConstant_res (p : PinRef) (d : Byte) (u : TimerUnit) : (startConstant p d u).res = u.res := rfl
@[simp] theorem startConstant_cbEffect (p : PinRef) (d : Byte) (u : TimerUnit) : (startConstant p d u).cbEffect = u.cbEffect := rfl

/-! `startWaveform`. -/

@[simp] theorem startWaveform_cfg (p : PinRef) (a b : TimerPlan) (u : TimerUnit) : (startWaveform p a b u).cfg = u.cfg := rfl
@[simp] theorem startWaveform_regs (p : PinRef) (a b : TimerPlan) (u : TimerUnit) : (startWaveform p a b u).regs = 
    { u.regs with count := a.preload, ovf := false, cs := a.divider.code, ovfIe := true } := rfl
@[simp] theorem startWaveform_owner (p : PinRef) (a b : TimerPlan) (u : TimerUnit) : (startWaveform p a b u).owner = .pwm := rfl
@[simp] theorem startWaveform_pwm (p : PinRef) (a b : TimerPlan) (u : TimerUnit) : (startWaveform p a b u).pwm = { u.pwm with onPlan := some a, offPlan := some b, phase := .onPhase } := rfl
@[simp] theorem startWaveform_cb (p : PinRef) (a b : TimerPlan) (u : TimerUnit) : (startWaveform p a b u).cb = u.cb := rfl
@[simp] theorem startWaveform_bt (p : PinRef) (a b : TimerPlan) (u : TimerUnit) : (startWaveform p a b u).bt = u.bt := rfl
@[simp] theorem startWaveform_res (p : PinRef) (a b : TimerPlan) (u : TimerUnit) : (startWaveform p a b u).res = u.res := rfl
@[simp] theorem startWaveform_cbEffect (p : PinRef) (a b : TimerPlan) (u : TimerUnit) : (startWaveform p a b u).cbEffect = u.cbEffect := rfl

@[simp] theorem tick_regs_count (u : TimerUnit) : (tick u).regs.count = u.regs.count + 1 := rfl
@[simp] theorem tick_regs_cs (u : TimerUnit) : (tick u).regs.cs = u.regs.cs := rfl
@[simp] theorem tick_regs_compare (u : TimerUnit) : (tick u).regs.compare = u.regs.compare := rfl
@[simp] theorem tick_regs_ovfIe (u : TimerUnit) : (tick u).regs.ovfIe = u.regs.ovfIe := rfl
@[simp] theorem tick_regs_cmpIe (u : TimerUnit) : (tick u).regs.cmpIe = u.regs.cmpIe := rfl
@[simp] theorem tick_regs_ovf (u : TimerUnit) : (tick u).regs.ovf = ovfAfterTick (u.regs.count + 1) u.regs.ovf := rfl
@[simp] theorem tick_regs_cmf (u : TimerUnit) : (tick u).regs.cmf = cmfAfterTick (u.regs.count + 1) u.regs.compare u.regs.cmf := rfl

@[simp] theorem Regs_clearFlag_overflow_cs (r : Regs) : (r.clearFlag .overflow).cs = r.cs := rfl
@[simp] theorem Regs_clearFlag_overflow_count (r : Regs) : (r.clearFlag .overflow).count = r.count := rfl
@[simp] theorem Regs_clearFlag_overflow_compare (r : Regs) : (r.clearFlag .overflow).compare = r.compare := rfl
@[simp] theorem Regs_clearFlag_overflow_ovf (r : Regs) : (r.clearFlag .overflow).ovf = false := rfl
@[simp] theorem Regs_clearFlag_overflow_cmf (r : Regs) : (r.clearFlag .overflow).cmf = r.cmf := rfl
@[simp] theorem Regs_clearFlag_overflow_ovfIe (r : Regs) : (r.clearFlag .overflow).ovfIe = r.ovfIe := rfl
@[simp] theorem Regs_clearFlag_overflow_cmpIe (r : Regs) : (r.clearFlag .overflow).cmpIe = r.cmpIe := rfl
@[simp] theorem Regs_clearFlag_compareMatch_cs (r : Regs) : (r.clearFlag .compareMatch).cs = r.cs := rfl
@[simp] theorem Regs_clearFlag_compareMatch_count (r : Regs) : (r.clearFlag .compareMatch).count = r.count := rfl
@[simp] theorem Regs_clearFlag_compareMatch_compare (r : Regs) : (r.clearFlag .compareMatch).compare = r.compare := rfl
@[simp] theorem Regs_clearFlag_compareMatch_ovf (r : Regs) : (r.clearFlag .compareMatch).ovf = r.ovf := rfl
@[simp] theorem Regs_clearFlag_compareMatch_cmf (r : Regs) : (r.clearFlag .compareMatch).cmf = false := rfl
@[simp] theorem Regs_clearFlag_compareMatch_ovfIe (r : Regs) : (r.clearFlag .compareMatch).ovfIe = r.ovfIe := rfl
@[simp] theorem Regs_clearFlag_compareMatch_cmpIe (r : Regs) : (r.clearFlag .compareMatch).cmpIe = r.cmpIe := rfl

/-! `State.onUnit`. -/

@[simp] theorem State_onUnit_gie (f : TimerUnit → TimerUnit) (s : State) : (s.onUnit f).gie = s.gie := rfl
@[simp] theorem State_onUnit_policy (f : TimerUnit → TimerUnit) (s : State) : (s.onUnit f).policy = s.policy := rfl
@[simp] theorem State_onUnit_before (f : TimerUnit → TimerUnit) (s : State) : (s.onUnit f).before = s.before := rfl
@[simp] theorem State_onUnit_unit (f : TimerUnit → TimerUnit) (s : State) : (s.onUnit f).unit = f s.unit := rfl
@[simp] theorem State_onUnit_after (f : TimerUnit → TimerUnit) (s : State) : (s.onUnit f).after = s.after := rfl
@[simp] theorem State_onUnit_hostQueue (f : TimerUnit → TimerUnit) (s : State) : (s.onUnit f).hostQueue = s.hostQueue := rfl
@[simp] theorem State_onUnit_turns (f : TimerUnit → TimerUnit) (s : State) : (s.onUnit f).turns = s.turns := rfl
@[simp] theorem State_onUnit_freeIndex (f : TimerUnit → TimerUnit) (s : State) : (s.onUnit f).freeIndex = s.freeIndex := rfl
@[simp] theorem State_onUnit_fairIndex (f : TimerUnit → TimerUnit) (s : State) : (s.onUnit f).fairIndex = s.fairIndex := rfl
@[simp] theorem State_onUnit_patience (f : TimerUnit → TimerUnit) (s : State) : (s.onUnit f).patience = s.patience := rfl

/-! `enterHandler`. -/

@[simp] theorem enterHandler_gie (src : Source) (s : State) : (enterHandler src s).gie = false := rfl
@[simp] theorem enterHandler_policy (src : Source) (s : State) : (enterHandler src s).policy = s.policy := rfl
@[simp] theorem enterHandler_before (src : Source) (s : State) : (enterHandler src s).before = s.before := rfl
@[simp] theorem enterHandler_unit (src : Source) (s : State) : (enterHandler src s).unit = { s.unit with regs := s.unit.regs.clearFlag src } := rfl
@[simp] theorem enterHandler_after (src : Source) (s : State) : (enterHandler src s).after = s.after := rfl
@[simp] theorem enterHandler_hostQueue (src : Source) (s : State) : (enterHandler src s).hostQueue = s.hostQueue := rfl
@[simp] theorem enterHandler_turns (src : Source) (s : State) : (enterHandler src s).turns = s.turns := rfl
@[simp] theorem enterHandler_freeIndex (src : Source) (s : State) : (enterHandler src s).freeIndex = s.freeIndex := rfl
@[simp] theorem enterHandler_fairIndex (src : Source) (s : State) : (enterHandler src s).fairIndex = s.fairIndex := rfl
@[simp] theorem enterHandler_patience (src : Source) (s : State) : (enterHandler src s).patience = s.patience := rfl

/-! `leaveHandler`. -/

@[simp] theorem leaveHandler_gie (s : State) : (leaveHandler s).gie = true := rfl
@[simp] theorem leaveHandler_policy (s : State) : (leaveHandler s).policy = s.policy := rfl
@[simp] theorem leaveHandler_before (s : State) : (leaveHandler s).before = s.before := rfl
@[simp] theorem leaveHandler_unit (s : State) : (leaveHandler s).unit = s.unit := rfl
@[simp] theorem leaveHandler_after (s : State) : (leaveHandler s).after = s.after := rfl
@[simp] theorem leaveHandler_hostQueue (s : State) : (leaveHandler s).hostQueue = s.hostQueue := rfl
@[simp] theorem leaveHandler_turns (s : State) : (leaveHandler s).turns = s.turns := rfl
@[simp] theorem leaveHandler_freeIndex (s : State) : (leaveHandler s).freeIndex = s.freeIndex := rfl
@[simp] theorem leaveHandler_fairIndex (s : State) : (leaveHandler s).fairIndex = s.fairIndex := rfl
@[simp] theorem leaveHandler_patience (s : State) : (leaveHandler s).patience = s.patience := rfl

/-! `irqDisableOn`. -/

@[simp] theorem irqDisableOn_gie (s : State) : (irqDisableOn s).gie = false := rfl
@[simp] theorem irqDisableOn_policy (s : State) : (irqDisableOn s).policy = s.policy := rfl
@[simp] theorem irqDisableOn_before (s : State) : (irqDisableOn s).before = s.before := rfl
@[simp] theorem irqDisableOn_unit (s : State) : (irqDisableOn s).unit = s.unit.ret 0 := rfl
@[simp] theorem irqDisableOn_after (s : State) : (irqDisableOn s).after = s.after := rfl
@[simp] theorem irqDisableOn_hostQueue (s : State) : (irqDisableOn s).hostQueue = s.hostQueue := rfl
@[simp] theorem irqDisableOn_turns (s : State) : (irqDisableOn s).turns = s.turns := rfl
@[simp] theorem irqDisableOn_freeIndex (s : State) : (irqDisableOn s).freeIndex = s.freeIndex := rfl
@[simp] theorem irqDisableOn_fairIndex (s : State) : (irqDisableOn s).fairIndex = s.fairIndex := rfl
@[simp] theorem irqDisableOn_patience (s : State) : (irqDisableOn s).patience = s.patience := rfl

/-! `irqEnableOn`. -/

@[simp] theorem irqEnableOn_gie (s : State) : (irqEnableOn s).gie = true := rfl
@[simp] theorem irqEnableOn_policy (s : State) : (irqEnableOn s).policy = s.policy := rfl
@[simp] theorem irqEnableOn_before (s : State) : (irqEnableOn s).before = s.before := rfl
@[simp] theorem irqEnableOn_unit (s : State) : (irqEnableOn s).unit = s.unit.ret 0 := rfl
@[simp] theorem irqEnableOn_after (s : State) : (irqEnableOn s).after = s.after := rfl
@[simp] theorem irqEnableOn_hostQueue (s : State) : (irqEnableOn s).hostQueue = s.hostQueue := rfl
@[simp] theorem irqEnableOn_turns (s : State) : (irqEnableOn s).turns = s.turns := rfl
@[simp] theorem irqEnableOn_freeIndex (s : State) : (irqEnableOn s).freeIndex = s.freeIndex := rfl
@[simp] theorem irqEnableOn_fairIndex (s : State) : (irqEnableOn s).fairIndex = s.fairIndex := rfl
@[simp] theorem irqEnableOn_patience (s : State) : (irqEnableOn s).patience = s.patience := rfl

/-! `placeCommand`. -/

@[simp] theorem placeCommand_gie (c : Command) (s : State) : (placeCommand c s).gie = s.gie := rfl
@[simp] theorem placeCommand_policy (c : Command) (s : State) : (placeCommand c s).policy = s.policy := rfl
@[simp] theorem placeCommand_before (c : Command) (s : State) : (placeCommand c s).before = s.before := rfl
@[simp] theorem placeCommand_unit (c : Command) (s : State) : (placeCommand c s).unit = s.unit := rfl
@[simp] theorem placeCommand_after (c : Command) (s : State) : (placeCommand c s).after = s.after := rfl
@[simp] theorem placeCommand_hostQueue (c : Command) (s : State) : (placeCommand c s).hostQueue = c :: s.hostQueue := rfl
@[simp] theorem placeCommand_turns (c : Command) (s : State) : (placeCommand c s).turns = .host :: s.turns := rfl
@[simp] theorem placeCommand_freeIndex (c : Command) (s : State) : (placeCommand c s).freeIndex = s.freeIndex := rfl
@[simp] theorem placeCommand_fairIndex (c : Command) (s : State) : (placeCommand c s).fairIndex = s.fairIndex := rfl
@[simp] theorem placeCommand_patience (c : Command) (s : State) : (placeCommand c s).patience = s.patience := rfl

/-! `State.passTurn`. -/

@[simp] theorem State_passTurn_gie (s : State) : (s.passTurn).gie = s.gie := rfl
@[simp] theorem State_passTurn_policy (s : State) : (s.passTurn).policy = s.policy := rfl
@[simp] theorem State_passTurn_before (s : State) : (s.passTurn).before = s.before := rfl
@[simp] theorem State_passTurn_unit (s : State) : (s.passTurn).unit = s.unit := rfl
@[simp] theorem State_passTurn_after (s : State) : (s.passTurn).after = s.after := rfl
@[simp] theorem State_passTurn_hostQueue (s : State) : (s.passTurn).hostQueue = s.hostQueue := rfl
@[simp] theorem State_passTurn_turns (s : State) : (s.passTurn).turns = s.turns := rfl
@[simp] theorem State_passTurn_freeIndex (s : State) : (s.passTurn).freeIndex = s.freeIndex := rfl
@[simp] theorem State_passTurn_fairIndex (s : State) : (s.passTurn).fairIndex = s.fairIndex + 1 := rfl
@[simp] theorem State_passTurn_patience (s : State) : (s.passTurn).patience = Config.freePatience s.fairIndex := rfl

/-! `State.useTurn`, which changes the inputs of choice alone. -/

@[simp] theorem State_useTurn_gie (s : State) : s.useTurn.gie = s.gie := by
  unfold State.useTurn; cases s.turns <;> rfl
@[simp] theorem State_useTurn_policy (s : State) : s.useTurn.policy = s.policy := by
  unfold State.useTurn; cases s.turns <;> rfl
@[simp] theorem State_useTurn_before (s : State) : s.useTurn.before = s.before := by
  unfold State.useTurn; cases s.turns <;> rfl
@[simp] theorem State_useTurn_unit (s : State) : s.useTurn.unit = s.unit := by
  unfold State.useTurn; cases s.turns <;> rfl
@[simp] theorem State_useTurn_after (s : State) : s.useTurn.after = s.after := by
  unfold State.useTurn; cases s.turns <;> rfl
@[simp] theorem State_useTurn_hostQueue (s : State) : s.useTurn.hostQueue = s.hostQueue := by
  unfold State.useTurn; cases s.turns <;> rfl
@[simp] theorem State_useTurn_fairIndex (s : State) : s.useTurn.fairIndex = s.fairIndex := by
  unfold State.useTurn; cases s.turns <;> rfl

@[simp] theorem State_useTurn_turns (s : State) : s.useTurn.turns = s.turns.tail := by
  unfold State.useTurn; split <;> simp [*]

/-- Units, seen through the updates of the addressed one. -/
@[simp] theorem State_onUnit_allUnits (f : TimerUnit → TimerUnit) (s : State) :
    (s.onUnit f).allUnits = s.before ++ f s.unit :: s.after := rfl

@[simp] theorem State_onUnit_selected (f : TimerUnit → TimerUnit) (s : State) : (s.onUnit f).selected = s.selected := rfl

@[simp] theorem State_useTurn_allUnits (s : State) : s.useTurn.allUnits = s.allUnits := by simp [State.allUnits]

@[simp] theorem State_passTurn_allUnits (s : State) : s.passTurn.allUnits = s.allUnits := rfl

@[simp] theorem placeCommand_allUnits (c : Command) (s : State) : (placeCommand c s).allUnits = s.allUnits := rfl

end Sys2Proof.Machine
end

