-- ==== Sys2Proof/Laws/Ops.lean ====
section
/-! SUPPORT. For each shared operation, what it can do, once: later proofs cite these lemmas and do not unfold the
operations (spec/20_memory.md; spec/60_exceptions.md R260, R270, R285 to R288, R290). -/

namespace Sys2Proof.Machine

/-! Ending an operation. -/

@[simp] theorem ErrorCode.code_ne_zero (e : ErrorCode) : e.code ≠ 0 := by cases e <;> decide

theorem finish_ok {op : TimerUnit → OpResult} {u u' : TimerUnit} {v : Word} (h : op u = .ok (u', v)) :
    finish op u = u'.ret v := by simp [finish, h]

theorem finish_error {op : TimerUnit → OpResult} {u : TimerUnit} {e : ErrorCode} (h : op u = .error e) :
    finish op u = u.raise e := by simp [finish, h]

/-- An operation run to its end either returns on the unit it leaves or raises on the unit as it was. -/
theorem finish_cases (op : TimerUnit → OpResult) (u : TimerUnit) :
    (∃ u' v, op u = .ok (u', v) ∧ finish op u = u'.ret v) ∨ ∃ e, op u = .error e ∧ finish op u = u.raise e := by
  cases h : op u with
  | error e => exact .inr ⟨e, rfl, finish_error h⟩
  | ok p => exact .inl ⟨p.1, p.2, rfl, finish_ok h⟩

/-! Units. -/

theorem State.unit_mem (s : State) : s.unit ∈ s.allUnits := by simp [State.allUnits]

theorem State.allUnits_length (s : State) : s.allUnits.length = s.before.length + s.after.length + 1 := by
  simp [State.allUnits]; omega

theorem State.allUnits_selected (s : State) : s.allUnits[s.selected]? = some s.unit := by
  simp [State.allUnits, State.selected]

/-- Addressing a unit: it is found, no unit changes, and nothing else of the system changes. -/
theorem focus_some {s s' : State} {k : Nat} (h : s.focus k = some s') :
    s.allUnits[k]? = some s'.unit ∧ s'.selected = k ∧ s'.allUnits = s.allUnits ∧ s'.gie = s.gie ∧
      s'.policy = s.policy ∧ s'.hostQueue = s.hostQueue ∧ s'.turns = s.turns ∧ s'.freeIndex = s.freeIndex := by
  unfold State.focus at h
  split at h
  · exact absurd h (by simp)
  · rename_i u rest hd
    obtain rfl := Option.some.inj h
    have hk : k < s.allUnits.length := by
      by_contra hc
      rw [List.drop_eq_nil_of_le (by omega)] at hd
      cases hd
    have hu : s.allUnits[k]? = some u := by
      have := List.getElem?_drop (xs := s.allUnits) (i := k) (j := 0)
      rw [hd] at this
      simpa using this.symm
    refine ⟨hu, ?_, ?_, rfl, rfl, rfl, rfl, rfl⟩
    · simp [State.selected]
      omega
    · show s.allUnits.take k ++ u :: rest = s.allUnits
      rw [← hd, List.take_append_drop]

/-- Addressing a unit leaves the counters of choice. -/
theorem focus_choice {s s' : State} {k : Nat} (h : s.focus k = some s') :
    s'.fairIndex = s.fairIndex ∧ s'.patience = s.patience := by
  unfold State.focus at h
  split at h
  · cases h
  · obtain rfl := Option.some.inj h
    exact ⟨rfl, rfl⟩

/-- Every unit can be addressed. -/
theorem focus_exists {s : State} {k : Nat} {u : TimerUnit} (h : s.allUnits[k]? = some u) : ∃ s', s.focus k = some s' := by
  have hk : k < s.allUnits.length := by
    by_contra hc
    rw [List.getElem?_eq_none (by omega)] at h
    cases h
  unfold State.focus
  split
  · rename_i hd
    have := List.drop_eq_nil_iff.mp hd
    omega
  · exact ⟨_, rfl⟩

theorem focus_none {s : State} {k : Nat} : s.focus k = none ↔ s.allUnits.length ≤ k := by
  unfold State.focus
  split
  · rename_i hd
    exact ⟨fun _ => List.drop_eq_nil_iff.mp hd, fun _ => rfl⟩
  · rename_i hd
    constructor
    · intro h; cases h
    · intro h
      rw [List.drop_eq_nil_of_le h] at hd
      cases hd

/-- Addressing the unit that is addressed changes nothing. -/
@[simp] theorem focus_selected (s : State) : s.focus s.selected = some s := by
  have hd : s.allUnits.drop s.selected = s.unit :: s.after := by simp [State.allUnits, State.selected]
  have ht : s.allUnits.take s.selected = s.before := by simp [State.allUnits, State.selected]
  unfold State.focus
  rw [hd]
  simp [ht]

/-- Changing the addressed unit changes the unit of its number and no other. -/
theorem onUnit_getElem? (f : TimerUnit → TimerUnit) (s : State) (j : Nat) :
    (s.onUnit f).allUnits[j]? = if j = s.selected then some (f s.unit) else s.allUnits[j]? := by
  rw [State_onUnit_allUnits]
  unfold State.allUnits State.selected
  split
  · subst_vars
    simp
  · rename_i h
    by_cases hj : j < s.before.length
    · rw [List.getElem?_append_left hj, List.getElem?_append_left hj]
    · have : j - s.before.length ≠ 0 := by omega
      rw [List.getElem?_append_right (by omega), List.getElem?_append_right (by omega)]
      obtain ⟨n, hn⟩ := Nat.exists_eq_succ_of_ne_zero this
      rw [hn]
      simp

theorem mem_onUnit {f : TimerUnit → TimerUnit} {s : State} {u : TimerUnit} (h : u ∈ (s.onUnit f).allUnits) :
    u = f s.unit ∨ u ∈ s.allUnits := by
  rw [State_onUnit_allUnits] at h
  unfold State.allUnits
  simp only [List.mem_append, List.mem_cons] at h ⊢
  tauto

/-! Registers. -/

/-- A register-space write changes registers only, and the clock select it leaves is one that may be stored. -/
theorem memWrite_ok {idx : RegIndex} {v : Byte} {u u' : TimerUnit} (h : memWrite idx v u = .ok u') :
    ∃ r, u' = { u with regs := r } ∧
      ((r.cs = u.regs.cs) ∨ (r.cs = v.extractLsb' 0 3 ∧ codeSupported u.cfg r.cs = true)) := by
  unfold memWrite at h
  split at h
  · unfold writeClock at h
    split at h
    · obtain rfl := Except.ok.inj h
      exact ⟨_, rfl, .inr ⟨rfl, by assumption⟩⟩
    · cases h
  all_goals first
    | (obtain rfl := Except.ok.inj h; exact ⟨_, rfl, .inl rfl⟩)
    | cases h

/-- A register-space write sets no flag. -/
theorem memWrite_flags {idx : RegIndex} {v : Byte} {u u' : TimerUnit} (h : memWrite idx v u = .ok u') :
    (u'.regs.ovf = true → u.regs.ovf = true) ∧ (u'.regs.cmf = true → u.regs.cmf = true) := by
  unfold memWrite at h
  split at h
  · unfold writeClock at h
    split at h
    · obtain rfl := Except.ok.inj h
      exact ⟨id, id⟩
    · cases h
  all_goals first
    | (obtain rfl := Except.ok.inj h; exact ⟨id, id⟩)
    | (obtain rfl := Except.ok.inj h; simp [writeOneToClear]; tauto)
    | cases h

/-- A register-space write but one of index 2 leaves `COMPARE`. -/
theorem memWrite_compare {idx : RegIndex} {v : Byte} {u u' : TimerUnit} (hi : idx ≠ 2) (h : memWrite idx v u = .ok u') :
    u'.regs.compare = u.regs.compare := by
  unfold memWrite at h
  split at h
  · unfold writeClock at h
    split at h
    · obtain rfl := Except.ok.inj h
      rfl
    · cases h
  · obtain rfl := Except.ok.inj h
    rfl
  · rename_i hc
    exact absurd (BitVec.eq_of_toNat_eq hc) hi
  · obtain rfl := Except.ok.inj h
    rfl
  · obtain rfl := Except.ok.inj h
    rfl
  · cases h

/-- The only error of a register-space write. -/
theorem memWrite_error {idx : RegIndex} {v : Byte} {u : TimerUnit} {e : ErrorCode} (h : memWrite idx v u = .error e) :
    e = .invalidArgument := by
  unfold memWrite at h
  split at h
  · unfold writeClock at h
    split at h
    · cases h
    · exact (Except.error.inj h).symm
  all_goals first
    | exact (Except.error.inj h).symm
    | cases h

/-! Pins. -/

@[simp] theorem pin_writePin_self (u : TimerUnit) (p : PinRef) (st : PinState) : (u.writePin p st).pin p = st := by
  simp [TimerUnit.pin, TimerUnit.writePin]

theorem pin_writePin_ne {p q : PinRef} (u : TimerUnit) (st : PinState) (h : q ≠ p) : (u.writePin p st).pin q = u.pin q := by
  have hne : p.toNat ≠ q.toNat := fun hc => h (BitVec.eq_of_toNat_eq hc.symm)
  simp [TimerUnit.pin, TimerUnit.writePin, Vector.getElem_set_ne _ _ hne]

/-! The counter. -/

theorem tick_ovf (u : TimerUnit) : (tick u).regs.ovf = true ↔ u.regs.ovf = true ∨ u.regs.count + 1 = 0 := by
  simp [ovfAfterTick]

theorem tick_cmf (u : TimerUnit) : (tick u).regs.cmf = true ↔ u.regs.cmf = true ∨ u.regs.count + 1 = u.regs.compare := by
  simp [cmfAfterTick]

/-! Interrupts. -/

theorem topSource_none {gie : Bool} {u : TimerUnit} :
    topSource gie u = none ↔ eligible gie u .compareMatch = false ∧ eligible gie u .overflow = false := by
  unfold topSource
  split
  · simp_all
  · split <;> simp_all

theorem topSource_some {gie : Bool} {u : TimerUnit} {src : Source} (h : topSource gie u = some src) :
    eligible gie u src = true := by
  unfold topSource at h
  split at h
  · obtain rfl := Option.some.inj h
    assumption
  · split at h
    · obtain rfl := Option.some.inj h
      assumption
    · cases h

theorem eligible_gie {gie : Bool} {u : TimerUnit} {src : Source} (h : eligible gie u src = true) : gie = true := by
  unfold eligible at h
  simp_all

@[simp] theorem takeInterrupt_gie (src : Source) (body : State → State) (s : State) : (takeInterrupt src body s).gie = true := rfl

end Sys2Proof.Machine
end

