-- ==== Sys2Proof/Laws/Planner.lean ====
section
/-! SUPPORT. What the planner can do, once: its branches, the closed form of each, and what a plan it returns satisfies
(spec/41_delay_planner.md R132 to R137). -/

namespace Sys2Proof.Machine

/-- The planner's three ways: the argument check, the single-period branch, the multi-period branch. -/
theorem planDelay_cases {cfg : UnitConfig} {x : Rat} {r : Except ErrorCode TimerPlan} (h : planDelay cfg (some x) = r) :
    (x < 0 ∧ r = .error .invalidArgument) ∨
    (0 ≤ x ∧ ∃ smaller d larger, cfg.dividers = smaller ++ d :: larger ∧ (∀ d' ∈ smaller, maxDelay cfg d' < x) ∧
      x ≤ maxDelay cfg d ∧ r = .ok (planSingle cfg d x)) ∨
    (0 ≤ x ∧ (∀ d ∈ cfg.dividers, maxDelay cfg d < x) ∧ r = planMulti cfg x) := by
  subst h
  unfold planDelay
  by_cases hx : x < 0
  · exact .inl ⟨hx, by simp [hx]⟩
  · simp only [hx, if_false]
    cases hf : cfg.dividers.find? (fun d => decide (x ≤ maxDelay cfg d)) with
    | some d =>
      obtain ⟨hd, smaller, larger, he, hs⟩ := List.find?_eq_some_iff_append.mp hf
      refine .inr (.inl ⟨not_lt.mp hx, smaller, d, larger, he, fun d' h' => ?_, by simpa using hd, rfl⟩)
      simpa using hs d' h'
    | none =>
      refine .inr (.inr ⟨not_lt.mp hx, fun d hd => ?_, rfl⟩)
      simpa using List.find?_eq_none.mp hf d hd

/-- The floor of a number not below 0, as a natural number. -/
theorem floor_toNat {q : Rat} (h : 0 ≤ q) : ((q.floor.toNat : Nat) : Int) = q.floor := by
  have : 0 ≤ q.floor := Rat.le_floor_iff.mpr (by simpa using h)
  omega

/-- The single-period branch: a number of ticks from 1 to 256, and the preload that wraps after them. -/
theorem planSingle_spec {cfg : UnitConfig} {d : Divider} {x : Rat} (hf : 0 < cfg.fCpu) (h0 : 0 ≤ x)
    (hx : x ≤ maxDelay cfg d) :
    (planSingle cfg d x).divider = d ∧ (planSingle cfg d x).rep = 0 ∧
      0 ≤ x / tickMs cfg d ∧ x / tickMs cfg d ≤ 256 ∧
      ((256 - (planSingle cfg d x).preload.toNat : Nat) : Int) = max 1 (x / tickMs cfg d).floor := by
  have ht := tickMs_pos hf d
  have q0 : 0 ≤ x / tickMs cfg d := by positivity
  have q1 : x / tickMs cfg d ≤ 256 := by
    rw [div_le_iff₀ ht, ← maxDelay_eq]
    exact hx
  refine ⟨rfl, rfl, q0, q1, ?_⟩
  have n0 := floor_toNat q0
  have n1 : (x / tickMs cfg d).floor ≤ 256 := by
    have : (((x / tickMs cfg d).floor : Int) : Rat) ≤ 256 := (Rat.floor_le _).trans q1
    exact_mod_cast this
  simp only [planSingle, BitVec.toNat_ofNat]
  omega

/-- The multi-period branch: the range guard, or a plan whose ticks are the floor of the request in ticks. -/
theorem planMulti_cases {cfg : UnitConfig} {x : Rat} (hf : 0 < cfg.fCpu) (hx : maxDelay cfg (dMax cfg) < x) :
    ∃ n : Nat, 1 ≤ n ∧ (n : Int) = (x / maxDelay cfg (dMax cfg)).floor ∧
      ((repeatMax < n ∧ planMulti cfg x = .error .unsupportedRange) ∨
       (n ≤ repeatMax ∧ ∃ (p : TimerPlan) (rticks : Nat), planMulti cfg x = .ok p ∧ p.divider = dMax cfg ∧
          p.rep.toNat = n ∧ rticks ≤ 255 ∧ p.preload.toNat = (256 - rticks) % 256 ∧
          (rticks : Int) = ((x - (n : Rat) * maxDelay cfg (dMax cfg)) / tickMs cfg (dMax cfg)).floor ∧
          (256 * n + rticks : Int) = (x / tickMs cfg (dMax cfg)).floor)) := by
  have ht := tickMs_pos hf (dMax cfg)
  have hm := maxDelay_pos hf (dMax cfg)
  have q1 : 1 ≤ x / maxDelay cfg (dMax cfg) := by rw [le_div_iff₀ hm]; linarith
  have n0 := floor_toNat (q := x / maxDelay cfg (dMax cfg)) (by linarith)
  have n1 : 1 ≤ (x / maxDelay cfg (dMax cfg)).floor := Rat.le_floor_iff.mpr (by simpa using q1)
  refine ⟨(x / maxDelay cfg (dMax cfg)).floor.toNat, by omega, n0, ?_⟩
  unfold planMulti
  simp only
  generalize hn : (x / maxDelay cfg (dMax cfg)).floor.toNat = n at n0
  have nr : ((n : Int) : Rat) = (((x / maxDelay cfg (dMax cfg)).floor : Int) : Rat) := by exact_mod_cast n0
  have lo : (n : Rat) * maxDelay cfg (dMax cfg) ≤ x := by
    rw [← le_div_iff₀ hm]
    have := Rat.floor_le (x / maxDelay cfg (dMax cfg))
    rw [← nr] at this
    simpa using this
  have hi : x < ((n : Rat) + 1) * maxDelay cfg (dMax cfg) := by
    rw [← div_lt_iff₀ hm]
    have := Rat.lt_floor_add_one (x / maxDelay cfg (dMax cfg))
    rw [← n0] at this
    simpa using this
  by_cases hr : repeatMax < n
  · exact .inl ⟨hr, by simp [hr]⟩
  · refine .inr ⟨by omega, _, ((x - (n : Rat) * maxDelay cfg (dMax cfg)) / tickMs cfg (dMax cfg)).floor.toNat,
      by simp [hr]; rfl, rfl, ?_, ?_, ?_, ?_, ?_⟩
    · simp only [BitVec.toNat_ofNat]
      have : repeatMax = 2 ^ 32 - 2 := rfl
      omega
    all_goals
      have r0 : 0 ≤ (x - (n : Rat) * maxDelay cfg (dMax cfg)) / tickMs cfg (dMax cfg) := by
        apply div_nonneg <;> linarith
      have r1 : (x - (n : Rat) * maxDelay cfg (dMax cfg)) / tickMs cfg (dMax cfg) < 256 := by
        rw [div_lt_iff₀ ht, ← maxDelay_eq]
        linarith
      have z0 := floor_toNat r0
      have z1 : ((x - (n : Rat) * maxDelay cfg (dMax cfg)) / tickMs cfg (dMax cfg)).floor < 256 := by
        have := (Rat.floor_le ((x - (n : Rat) * maxDelay cfg (dMax cfg)) / tickMs cfg (dMax cfg))).trans_lt r1
        exact_mod_cast this
    · omega
    · simp only [BitVec.toNat_ofNat]
      omega
    · exact z0
    · rw [z0]
      have e : x / tickMs cfg (dMax cfg) =
          (x - (n : Rat) * maxDelay cfg (dMax cfg)) / tickMs cfg (dMax cfg) + ((256 * n : Int) : Rat) := by
        rw [maxDelay_eq]
        field_simp
        push_cast
        ring
      rw [e, Rat.floor_add_intCast]
      ring

/-- Every plan the planner returns: its divider is a member of the set and its repeat count is in range. -/
theorem planDelay_ok {cfg : UnitConfig} {x : Rat} {p : TimerPlan} (hw : cfg.wellFormed)
    (h : planDelay cfg (some x) = .ok p) :
    0 ≤ x ∧ p.divider ∈ cfg.dividers ∧ p.rep.toNat ≤ repeatMax ∧
      ((x ≤ maxDelay cfg p.divider ∧ p.rep = 0 ∧
          ((256 - p.preload.toNat : Nat) : Int) = max 1 (x / tickMs cfg p.divider).floor ∧
          (∀ d ∈ cfg.dividers, d.value < p.divider.value → maxDelay cfg d < x)) ∨
       ((∀ d ∈ cfg.dividers, maxDelay cfg d < x) ∧ p.divider = dMax cfg ∧ p.rep ≠ 0 ∧
          ∃ rticks : Nat, rticks ≤ 255 ∧ p.preload.toNat = (256 - rticks) % 256 ∧
            (256 * p.rep.toNat + rticks : Int) = (x / tickMs cfg p.divider).floor)) := by
  rcases planDelay_cases h with ⟨-, h⟩ | ⟨h0, smaller, d, larger, he, hs, hd, h⟩ | ⟨h0, hs, h⟩
  · cases h
  · obtain rfl := Except.ok.inj h
    obtain ⟨e1, e2, -, -, e3⟩ := planSingle_spec hw.1 h0 hd
    refine ⟨h0, by simp [e1, he], by simp [e2], .inl ⟨by rw [e1]; exact hd, e2, by rw [e1]; exact e3, ?_⟩⟩
    intro d' hm hv
    rw [e1] at hv
    have hp := hw.2.2
    rw [he, List.pairwise_append, List.pairwise_cons] at hp
    rw [he, List.mem_append, List.mem_cons] at hm
    rcases hm with hm | rfl | hm
    · exact hs _ hm
    · omega
    · have := hp.2.1.1 _ hm
      omega
  · obtain ⟨n, n1, -, ⟨-, hn⟩ | ⟨hr, q, rticks, hq, d, r, r1, pl, -, t⟩⟩ :=
      planMulti_cases hw.1 (hs _ (dMax_spec hw).1)
    · rw [hn] at h
      cases h
    · rw [hq] at h
      obtain rfl := Except.ok.inj h
      refine ⟨h0, by rw [d]; exact (dMax_spec hw).1, by omega, .inr ⟨hs, d, ?_, rticks, r1, pl, by rw [r, d]; exact t⟩⟩
      intro hc
      rw [hc] at r
      simp at r
      omega

/-- The planner's errors are these two. -/
theorem planDelay_error {cfg : UnitConfig} {x : Option Rat} {e : ErrorCode} (h : planDelay cfg x = .error e) :
    (e = .invalidArgument ∧ ∀ y, x = some y → y < 0) ∨ (e = .unsupportedRange ∧ ∃ y, x = some y ∧ 0 ≤ y) := by
  cases x with
  | none => exact .inl ⟨(Except.error.inj h).symm, by simp⟩
  | some x =>
    rcases planDelay_cases h with ⟨hx, h⟩ | ⟨h0, smaller, d, larger, he, hs, hd, h⟩ | ⟨h0, hs, h⟩
    · exact .inl ⟨Except.error.inj h, by simpa using hx⟩
    · cases h
    · refine .inr ⟨?_, x, rfl, h0⟩
      unfold planMulti at h
      simp only at h
      split at h
      · exact Except.error.inj h
      · cases h

/-- The ticks and overflows of a plan without repeats. -/
theorem TimerPlan.single_ticks {p : TimerPlan} (h : p.rep = 0) :
    p.totalTicks = 256 - p.preload.toNat ∧ p.overflowsToWait = 1 := by
  have := p.preload.isLt
  simp [TimerPlan.totalTicks, TimerPlan.overflowsToWait, TimerPlan.remTicks, h]
  omega

/-- The ticks of a plan with repeats. -/
theorem TimerPlan.multi_ticks {p : TimerPlan} (h : p.rep ≠ 0) : p.remTicks = (256 - p.preload.toNat) % 256 := by
  unfold TimerPlan.remTicks
  rw [if_neg h]

/-- The number of overflows to wait does not wrap and is not 0. -/
theorem TimerPlan.overflowsToWait_spec {p : TimerPlan} (h : p.rep.toNat ≤ repeatMax) :
    p.overflowsToWait.toNat = p.rep.toNat + (if 0 < p.remTicks then 1 else 0) ∧ 1 ≤ p.overflowsToWait.toNat := by
  have hr : repeatMax = 2 ^ 32 - 2 := rfl
  by_cases hz : p.rep = 0
  · rw [(TimerPlan.single_ticks hz).2]
    have := p.preload.isLt
    simp [TimerPlan.remTicks, hz]
    omega
  · have hz' : p.rep.toNat ≠ 0 := fun hc => hz (BitVec.eq_of_toNat_eq (by simpa using hc))
    unfold TimerPlan.overflowsToWait
    rw [BitVec.toNat_add]
    split
    · change (p.rep.toNat + 1) % 2 ^ 32 = p.rep.toNat + 1 ∧ 1 ≤ (p.rep.toNat + 1) % 2 ^ 32
      omega
    · change (p.rep.toNat + 0) % 2 ^ 32 = p.rep.toNat + 0 ∧ 1 ≤ (p.rep.toNat + 0) % 2 ^ 32
      omega
end Sys2Proof.Machine
end

