-- ==== Sys2Proof/Laws/Handlers.lean ====
section
/-! SUPPORT. What each operation, service and handler body can do, once (spec/41_delay_planner.md R130;
spec/42_blocking_timer.md R150 to R154; spec/43_pwm_engine.md R171 to R178; spec/44_callback_timer.md R201 to R214;
spec/60_exceptions.md R270). -/

namespace Sys2Proof.Machine

/-! The operations that change the addressed unit alone, and end in a result or an error. -/

/-- The operation on a unit of an instruction; none for the start of a blocking delay, the two mask operations and the
handler entry points. -/
def plainOp : Instr → Option (TimerUnit → OpResult)
  | .planDelay ms => some (opPlanDelay ms)
  | .delayBlocking _ _ _ => none
  | .pwmConfigure pin khz => some (opPwmConfigure pin khz)
  | .pwmStart duty => some (opPwmStart duty)
  | .pwmStop => some opPwmStop
  | .schedule periodic callback ms => some (opSchedule periodic callback ms)
  | .cancel => some opCancel
  | .setDivider cs => some (opSetDivider cs)
  | .setPreload value => some (opSetPreload value)
  | .readOvf => some opReadOvf
  | .clearOvf => some opClearOvf
  | .regRead idx => some (opRegRead idx)
  | .regWrite idx value => some (opRegWrite idx value)
  | .irqDisable => none
  | .irqEnable => none
  | .onCompareMatch => none
  | .onOverflow => none

/-- What an instruction is, issued by the host. -/
theorem exec_cases (i : Instr) (s : State) :
    (∃ op, plainOp i = some op ∧ exec i s = .next (s.onUnit (finish op))) ∨
    (∃ cs preload rep, i = .delayBlocking cs preload rep ∧
      exec i s = .next (s.onUnit (opDelayBlocking cs preload rep))) ∨
    (i = .irqDisable ∧ exec i s = .next { s with gie := false, unit := s.unit.ret 0 }) ∨
    (i = .irqEnable ∧ exec i s = .next { s with gie := true, unit := s.unit.ret 0 }) ∨
    (i = .onCompareMatch ∧ exec i s = unlessHung s ((compareBody s).onUnit (TimerUnit.ret 0))) ∨
    (i = .onOverflow ∧ exec i s = unlessHung s ((overflowBody s).onUnit (TimerUnit.ret 0))) := by
  cases i
  case delayBlocking => exact .inr (.inl ⟨_, _, _, rfl, rfl⟩)
  case irqDisable => exact .inr (.inr (.inl ⟨rfl, rfl⟩))
  case irqEnable => exact .inr (.inr (.inr (.inl ⟨rfl, rfl⟩)))
  case onCompareMatch => exact .inr (.inr (.inr (.inr (.inl ⟨rfl, rfl⟩))))
  case onOverflow => exact .inr (.inr (.inr (.inr (.inr ⟨rfl, rfl⟩))))
  all_goals exact .inl ⟨_, rfl, rfl⟩

/-- What an instruction is, issued from a callback. -/
theorem issueFromCallback_cases (i : Instr) (s : State) :
    (∃ op, plainOp i = some op ∧ issueFromCallback s i = s.onUnit (finish op)) ∨
    issueFromCallback s i = s.onUnit (TimerUnit.raise .invalidArgument) ∨
    (i = .irqDisable ∧ issueFromCallback s i = { s with gie := false, unit := s.unit.ret 0 }) ∨
    (i = .irqEnable ∧ issueFromCallback s i = { s with gie := true, unit := s.unit.ret 0 }) := by
  cases i
  case delayBlocking => exact .inr (.inl rfl)
  case irqDisable => exact .inr (.inr (.inl ⟨rfl, rfl⟩))
  case irqEnable => exact .inr (.inr (.inr ⟨rfl, rfl⟩))
  case onCompareMatch => exact .inr (.inl rfl)
  case onOverflow => exact .inr (.inl rfl)
  all_goals exact .inl ⟨_, rfl, rfl⟩

/-- A property that every operation of a callback keeps is kept by CALLBACK_EFFECT. -/
theorem callbackEffect_keeps {P : State → Prop}
    (hop : ∀ i op s, plainOp i = some op → P s → P (s.onUnit (finish op)))
    (hraise : ∀ s, P s → P (s.onUnit (TimerUnit.raise .invalidArgument)))
    (hgie : ∀ g s, P s → P { s with gie := g, unit := s.unit.ret 0 })
    (heff : ∀ l s, P s → P (s.onUnit fun u => { u with cbEffect := l }))
    {s : State} (h : P s) : P (callbackEffect s) := by
  have hissue : ∀ i s, P s → P (issueFromCallback s i) := by
    intro i s hs
    rcases issueFromCallback_cases i s with ⟨op, ho, e⟩ | e | ⟨-, e⟩ | ⟨-, e⟩ <;> rw [e]
    · exact hop i op s ho hs
    · exact hraise s hs
    · exact hgie false s hs
    · exact hgie true s hs
  have hfold : ∀ (ops : List Instr) s, P s → P (ops.foldl issueFromCallback s) := by
    intro ops
    induction ops with
    | nil => exact fun s hs => hs
    | cons i ops ih => exact fun s hs => ih _ (hissue i s hs)
  unfold callbackEffect
  split
  · exact h
  · exact h
  · exact hfold _ _ (heff _ s h)

@[simp] theorem callbackEffect_default {s : State} (h : s.unit.cbEffect = []) : callbackEffect s = s := by
  simp [callbackEffect, h]

/-- An invocation under the default CALLBACK_EFFECT is a log entry. -/
theorem invoke_default {s : State} (c : CallbackRef) (h : s.unit.cbEffect = []) :
    invoke c s = s.onUnit (logCallback c) :=
  callbackEffect_default (s := s.onUnit (logCallback c)) h

/-- The callback service in its cases: it only counts; or it counts, invokes what is stored, and re-arms or completes. -/
theorem callbackService_cases (reload : Bool) (s : State) :
    (s.unit.cb.count + 1 ≠ s.unit.cb.target ∧ callbackService reload s = s.onUnit countOverflow) ∨
    (s.unit.cb.count + 1 = s.unit.cb.target ∧ s.unit.cb.callback = none ∧
      callbackService reload s = (s.onUnit countOverflow).onUnit (rearm reload)) ∨
    (s.unit.cb.count + 1 = s.unit.cb.target ∧ ∃ c, s.unit.cb.callback = some c ∧
      callbackService reload s = (invoke c (s.onUnit countOverflow)).onUnit (rearm reload)) := by
  by_cases h : s.unit.cb.count + 1 = s.unit.cb.target
  · refine .inr ?_
    have h' : (s.onUnit countOverflow).unit.cb.count = (s.onUnit countOverflow).unit.cb.target := h
    cases hc : s.unit.cb.callback with
    | none =>
      have hc' : (s.onUnit countOverflow).unit.cb.callback = none := hc
      exact .inl ⟨h, rfl, by simp only [callbackService, h', if_true, hc']⟩
    | some c =>
      have hc' : (s.onUnit countOverflow).unit.cb.callback = some c := hc
      exact .inr ⟨h, c, rfl, by simp only [callbackService, h', if_true, hc']⟩
  · have h' : ¬(s.onUnit countOverflow).unit.cb.count = (s.onUnit countOverflow).unit.cb.target := h
    exact .inl ⟨h, by simp only [callbackService, h', if_false]⟩

/-- What the callback service makes of a unit under the default CALLBACK_EFFECT. -/
def serviceDefault (reload : Bool) (u : TimerUnit) : TimerUnit :=
  if u.cb.count + 1 = u.cb.target then
    rearm reload (match u.cb.callback with
      | none => countOverflow u
      | some c => logCallback c (countOverflow u))
  else countOverflow u

/-- The callback service under the default CALLBACK_EFFECT changes the addressed unit alone. -/
theorem callbackService_default {s : State} (reload : Bool) (h : s.unit.cbEffect = []) :
    callbackService reload s = s.onUnit (serviceDefault reload) := by
  rcases callbackService_cases reload s with ⟨hn, e⟩ | ⟨hn, hc, e⟩ | ⟨hn, c, hc, e⟩ <;> rw [e]
  · simp only [State.onUnit, serviceDefault, hn, if_false]
  · simp only [State.onUnit, serviceDefault, hn, if_true, hc]
  · rw [invoke_default c (s := s.onUnit countOverflow) h]
    simp only [State.onUnit, serviceDefault, hn, if_true, hc]

/-! What each operation leaves when it does not raise an error. -/

/-- `PLAN_DELAY` leaves the unit and returns the packed plan. -/
theorem opPlanDelay_ok {ms : Word32} {u u' : TimerUnit} {v : Word} (h : opPlanDelay ms u = .ok (u', v)) :
    u' = u ∧ ∃ p, planDelay u.cfg (val32 ms) = .ok p ∧ v = p.pack := by
  unfold opPlanDelay at h
  split at h
  · cases h
  · rename_i p hp
    simp only [Except.ok.injEq, Prod.mk.injEq] at h
    exact ⟨h.1.symm, p, hp, h.2.symm⟩

/-- `PWM_CONFIGURE` stores pin and period of a positive frequency. -/
theorem opPwmConfigure_ok {pin : PinRef} {khz : Word32} {u u' : TimerUnit} {v : Word}
    (h : opPwmConfigure pin khz u = .ok (u', v)) :
    v = 0 ∧ ∃ f, val32 khz = some f ∧ 0 < f ∧
      u' = ({ u with
              pwm := { u.pwm with config := some { pin := pin, periodMs := 1 / f } }
              regs := { u.regs with ovfIe := true } } : TimerUnit).configurePin pin .output := by
  unfold opPwmConfigure at h
  split at h
  · cases h
  · rename_i f hf
    split at h
    · cases h
    · rename_i hle
      simp only [Except.ok.injEq, Prod.mk.injEq] at h
      exact ⟨h.2.symm, f, hf, not_le.mp hle, h.1.symm⟩

/-- The two phase plans: both times at least one smallest tick, both planned, both in one period. -/
theorem phasePlans_ok {cfg : UnitConfig} {t : Rat} {duty : Byte} {a b : TimerPlan}
    (h : phasePlans cfg t duty = .ok (a, b)) :
    minDelay cfg (dMin cfg) ≤ onTime t duty ∧ minDelay cfg (dMin cfg) ≤ offTime t duty ∧
      planDelay cfg (some (onTime t duty)) = .ok a ∧ planDelay cfg (some (offTime t duty)) = .ok b ∧
      a.rep = 0 ∧ b.rep = 0 := by
  unfold phasePlans at h
  split at h
  · cases h
  · rename_i hm
    split at h
    · rename_i a' b' ha hb
      split at h
      · rename_i hr
        simp only [Except.ok.injEq, Prod.mk.injEq] at h
        obtain ⟨rfl, rfl⟩ := h
        push Not at hm
        exact ⟨hm.1, hm.2, ha, hb, hr⟩
      · cases h
    · cases h

/-- `PWM_START` starts a constant level or a waveform on a configured engine. -/
theorem opPwmStart_ok {duty : Byte} {u u' : TimerUnit} {v : Word} (h : opPwmStart duty u = .ok (u', v)) :
    v = 0 ∧ duty.toNat ≤ 100 ∧ ∃ c, u.pwm.config = some c ∧
      (((duty = 0 ∨ duty = 100) ∧ u' = startConstant c.pin duty u) ∨
       (¬(duty = 0 ∨ duty = 100) ∧
         ∃ a b, phasePlans u.cfg c.periodMs duty = .ok (a, b) ∧ u' = startWaveform c.pin a b u)) := by
  unfold opPwmStart at h
  split at h
  · cases h
  · rename_i hd
    split at h
    · cases h
    · rename_i c hc
      split at h
      · rename_i he
        simp only [Except.ok.injEq, Prod.mk.injEq] at h
        exact ⟨h.2.symm, not_lt.mp hd, c, hc, .inl ⟨he, h.1.symm⟩⟩
      · rename_i he
        split at h
        · cases h
        · rename_i a b hp
          simp only [Except.ok.injEq, Prod.mk.injEq] at h
          exact ⟨h.2.symm, not_lt.mp hd, c, hc, .inr ⟨he, a, b, hp, h.1.symm⟩⟩

/-- `SCHEDULE` arms the counter for the plan. -/
theorem opSchedule_ok {periodic : Bool} {callback : CallbackRef} {ms : Word32} {u u' : TimerUnit} {v : Word}
    (h : opSchedule periodic callback ms u = .ok (u', v)) :
    v = 0 ∧ ∃ p, planDelay u.cfg (val32 ms) = .ok p ∧ u' = armSchedule periodic callback p u := by
  unfold opSchedule at h
  split at h
  · cases h
  · rename_i p hp
    simp only [Except.ok.injEq, Prod.mk.injEq] at h
    exact ⟨h.2.symm, p, hp, h.1.symm⟩

/-- A register-space write returns 0. -/
theorem opWrite_ok {idx : RegIndex} {b : Byte} {u u' : TimerUnit} {v : Word} (h : opWrite idx b u = .ok (u', v)) :
    v = 0 ∧ memWrite idx b u = .ok u' := by
  unfold opWrite at h
  split at h
  · cases h
  · rename_i w hw
    simp only [Except.ok.injEq, Prod.mk.injEq] at h
    exact ⟨h.2.symm, h.1 ▸ hw⟩

/-- A register read leaves the unit. -/
theorem opRegRead_ok {idx : RegIndex} {u u' : TimerUnit} {v : Word} (h : opRegRead idx u = .ok (u', v)) :
    u' = u ∧ ∃ b, memRead idx u = .ok b ∧ v = b.setWidth 64 := by
  unfold opRegRead at h
  split at h
  · cases h
  · rename_i b hb
    simp only [Except.ok.injEq, Prod.mk.injEq] at h
    exact ⟨h.1.symm, b, hb, h.2.symm⟩

/-- The start of a blocking delay: the operands pass the check and the executor starts, or an error. -/
theorem opDelayBlocking_cases (cs : ClockCode) (preload : Byte) (rep : Word32) (u : TimerUnit) :
    (∃ d, divOf cs = some d ∧ d ∈ u.cfg.dividers ∧ rep.toNat ≤ repeatMax ∧
      opDelayBlocking cs preload rep u = startBlocking ⟨d, preload, rep⟩ u) ∨
    ((cs = 0 ∨ (∀ d, divOf cs = some d → d ∉ u.cfg.dividers) ∨ repeatMax < rep.toNat) ∧
      opDelayBlocking cs preload rep u = u.raise .invalidArgument) := by
  unfold opDelayBlocking blockingPlan
  cases hd : divOf cs with
  | none => exact .inr ⟨.inl (divOf_eq_none.mp hd), rfl⟩
  | some d =>
    by_cases hm : d ∈ u.cfg.dividers
    · by_cases hr : rep.toNat ≤ repeatMax
      · exact .inl ⟨d, rfl, hm, hr, by simp [codeSupported, hd, hm, hr]⟩
      · exact .inr ⟨.inr (.inr (not_le.mp hr)), by simp [hr]⟩
    · exact .inr ⟨.inr (.inl fun d' he => by cases he; exact hm), by simp [codeSupported, hd, hm]⟩

/-! The services. -/

/-- The PWM overflow service does nothing, or alternates the phases. -/
theorem pwmService_cases (u : TimerUnit) :
    pwmService u = u ∨
    ∃ c q, u.pwm.onPlan.isSome = true ∧ u.pwm.config = some c ∧ u.pwm.planOf (flipPhase u.pwm.phase) = some q ∧
      pwmService u =
        ({ u with
           pwm := { u.pwm with phase := flipPhase u.pwm.phase }
           regs := { u.regs with count := q.preload, cs := q.divider.code } } : TimerUnit).togglePin c.pin := by
  unfold pwmService
  split
  · rename_i a c q ha hc hq
    exact .inr ⟨c, q, by simp [ha], hc, hq, rfl⟩
  · exact .inl rfl

/-- A poll finds no flag, counts an overflow, or completes the delay. -/
theorem btPoll_cases (u : TimerUnit) :
    (u.regs.ovf = false ∧ btPoll u = u) ∨
    (u.regs.ovf = true ∧ u.bt.remaining = 1 ∧ btPoll u = completeBlocking u) ∨
    (u.regs.ovf = true ∧ u.bt.remaining ≠ 1 ∧
      btPoll u = { u with regs := { u.regs with ovf := false }, bt := { u.bt with remaining := u.bt.remaining - 1 } }) := by
  unfold btPoll
  cases ho : u.regs.ovf
  · exact .inl ⟨rfl, by simp⟩
  · refine .inr ?_
    by_cases h : u.bt.remaining = 1
    · exact .inl ⟨rfl, h, by simp [h]⟩
    · have h' : u.bt.remaining - 1 ≠ 0 := fun hc => h (by
        have := congrArg (· + 1) hc
        simpa using this)
      exact .inr ⟨rfl, h, by rw [if_pos rfl, if_neg h']⟩

/-- The body of a handler is one of the two services, or nothing. -/
theorem handlerBody_cases (src : Source) (s : State) :
    (src = .overflow ∧ s.unit.owner = .pwm ∧ handlerBody src s = s.onUnit pwmService) ∨
    (s.unit.owner = .callback ∧ ∃ reload, handlerBody src s = callbackService reload s) ∨
    (s.unit.owner ≠ .callback ∧ handlerBody src s = s) := by
  cases src <;> cases ho : s.unit.owner <;> simp only [handlerBody, overflowBody, compareBody, ho]
  case overflow.pwm => exact .inl ⟨trivial, trivial, trivial⟩
  case overflow.callback => exact .inr (.inl ⟨trivial, true, rfl⟩)
  case compareMatch.callback => exact .inr (.inl ⟨trivial, false, rfl⟩)
  all_goals exact .inr (.inr ⟨by simp, trivial⟩)

/-- A handler body ends unless a callback it invokes never returns. -/
theorem unlessHung_next {s t t' : State} : unlessHung s t = .next t' ↔ serviceHangs s.unit = false ∧ t = t' := by
  unfold unlessHung
  cases serviceHangs s.unit <;> simp

theorem unlessHung_of_not {s t : State} (h : serviceHangs s.unit = false) : unlessHung s t = .next t :=
  unlessHung_next.mpr ⟨h, rfl⟩

/-- A handler ends where no callback is said never to return. -/
theorem serviceHangs_default {u : TimerUnit} (h : u.cbEffect = []) : serviceHangs u = false := by
  simp [serviceHangs, h]

/-- A handler ends where the callback timer does not own the counter. -/
theorem serviceHangs_owner {u : TimerUnit} (h : u.owner ≠ .callback) : serviceHangs u = false := by
  simp [serviceHangs, h]

/-- A dispatch that answers a next state. -/
theorem dispatchStep_next {s t : State} (h : dispatchStep s = .next t) : t = irqDispatch s := by
  unfold dispatchStep at h
  split at h
  · rename_i hn
    injection h with h
    rw [← h]
    simp [irqDispatch, hn]
  · exact (unlessHung_next.mp h).2.symm

/-- A dispatch where no callback hangs. -/
theorem dispatchStep_of_not {s : State} (h : serviceHangs s.unit = false) : dispatchStep s = .next (irqDispatch s) := by
  unfold dispatchStep
  split
  · rename_i hn
    simp [irqDispatch, hn]
  · exact unlessHung_of_not h

/-- A dispatch takes an eligible source, or is no step. -/
theorem irqDispatch_cases (s : State) :
    (topSource s.gie s.unit = none ∧ irqDispatch s = s) ∨
    ∃ src, topSource s.gie s.unit = some src ∧ eligible s.gie s.unit src = true ∧
      irqDispatch s = takeInterrupt src (handlerBody src) s := by
  unfold irqDispatch
  cases h : topSource s.gie s.unit with
  | none => exact .inl ⟨rfl, rfl⟩
  | some src => exact .inr ⟨src, rfl, topSource_some h, rfl⟩

end Sys2Proof.Machine
end

