-- ==== Sys2Proof/Laws/Schedule.lean ====
section
/-! SUPPORT. What a step can do, once: the check on the next step is the spec's rule, how the choice falls, and the cases
of a step (spec/70_reset_and_hazards.md R310 to R313). -/

namespace Sys2Proof.Machine

/-- The system has the unit and it satisfies the check. -/
theorem unitHas_iff {s : State} {k : Nat} {f : TimerUnit → Bool} :
    s.unitHas k f = true ↔ ∃ u, s.allUnits[k]? = some u ∧ f u = true := by
  unfold State.unitHas
  cases s.allUnits[k]? <;> simp

/-- A source of the unit is eligible. -/
theorem irqDue_iff {gie : Bool} {u : TimerUnit} : irqDue gie u = true ↔ ∃ src, eligible gie u src = true := by
  unfold irqDue
  constructor
  · intro h
    obtain ⟨src, hs⟩ := Option.isSome_iff_exists.mp h
    exact ⟨src, topSource_some hs⟩
  · rintro ⟨src, hs⟩
    cases ht : topSource gie u with
    | some _ => rfl
    | none =>
      have := topSource_none.mp ht
      cases src <;> simp_all

/-- An interrupt waits somewhere. -/
theorem anyIrqDue_iff {s : State} : s.anyIrqDue = true ↔ InterruptWaiting s := by
  unfold State.anyIrqDue InterruptWaiting
  simp only [List.any_eq_true, irqDue_iff]

/-- A poll is due somewhere. -/
theorem anyPollDue_iff {s : State} : s.anyPollDue = true ↔ PollWaiting s := by
  unfold State.anyPollDue PollWaiting pollDue
  simp only [List.any_eq_true, Bool.and_eq_true]

/-- The host is in no blocking delay. -/
theorem hostBlocked_false {s : State} : s.hostBlocked = false ↔ ∀ u ∈ s.allUnits, u.bt.active = false := by
  unfold State.hostBlocked
  simp only [List.any_eq_false, Bool.not_eq_true]

/-- There are two policies. -/
theorem policy_not_free {p : IrqPolicy} : p ≠ .free ↔ p = .prompt := by cases p <;> simp

/-- The check of Machine/Schedule.lean is the rule of 70_reset_and_hazards.md R310 to R312. -/
theorem allowed_iff {s : State} {t : Turn} : allowed s t = true ↔ MayComeNext s t := by
  have hp : ∀ b : Bool, (decide (s.policy = .free) || !b) = true ↔ (s.policy = .prompt → ¬b = true) := by
    intro b
    rw [← policy_not_free]
    by_cases h : s.policy = .free <;> simp [h]
  have ht : (¬(s.anyIrqDue || s.anyPollDue) = true) ↔ ¬InterruptWaiting s ∧ ¬PollWaiting s := by
    rw [Bool.or_eq_true, anyIrqDue_iff, anyPollDue_iff, not_or]
  cases t
  case host =>
    simp only [allowed, MayComeNext, Enabled, Bool.and_eq_true, hp, ht, Bool.not_eq_true', hostBlocked_false,
      List.isEmpty_eq_false_iff]
  case tick => simp only [allowed, MayComeNext, Enabled, Bool.and_eq_true, hp, ht, unitHas_iff, clockRuns, decide_eq_true_eq]
  case poll =>
    simp only [allowed, MayComeNext, Enabled, Bool.and_eq_true, hp, anyIrqDue_iff, unitHas_iff, pollDue]
  case dispatch => simp [allowed, MayComeNext, Enabled, unitHas_iff, irqDue_iff]
  case pinWrite k p st =>
    simp only [allowed, MayComeNext, Enabled, unitHas_iff]
    constructor
    · rintro ⟨u, hu, -⟩
      exact ⟨(List.getElem?_eq_some_iff.mp hu).1, fun _ => trivial⟩
    · rintro ⟨hk, -⟩
      exact ⟨_, List.getElem?_eq_getElem hk, by trivial⟩

/-- Rotation keeps the steps. -/
@[simp] theorem mem_rotated {n : Nat} {l : List Turn} {t : Turn} : t ∈ rotated n l ↔ t ∈ l := by
  unfold rotated
  rw [List.mem_append, or_comm, ← List.mem_append, List.take_append_drop]

/-- The step whose place it is comes first. -/
theorem rotated_head {n : Nat} {l : List Turn} {t : Turn} (h : l[n % l.length]? = some t) :
    ∃ rest, rotated n l = t :: rest := by
  obtain ⟨hn, rfl⟩ := List.getElem?_eq_some_iff.mp h
  exact ⟨_, by rw [rotated, List.drop_eq_getElem_cons hn, List.cons_append]⟩

/-- The step that comes in turn is an allowed candidate. -/
theorem turnInOrder_some {s : State} {t : Turn} (h : s.turnInOrder = some t) : allowed s t = true ∧ t ∈ s.candidates :=
  ⟨List.find?_some h, mem_rotated.mp (List.mem_of_find?_eq_some h)⟩

/-- No step comes in turn only where none is allowed. -/
theorem turnInOrder_none {s : State} : s.turnInOrder = none ↔ ∀ t ∈ s.candidates, allowed s t = false := by
  simp [State.turnInOrder]

/-- An allowed step comes in turn when it is its place. -/
theorem turnInOrder_of_place {s : State} {t : Turn} (h : s.candidates[s.fairIndex % s.candidates.length]? = some t)
    (ha : allowed s t = true) : s.turnInOrder = some t := by
  obtain ⟨rest, e⟩ := rotated_head h
  simp [State.turnInOrder, e, ha]

/-- A fair turn is due. -/
theorem fairTurnDue_iff {s : State} : s.fairTurnDue = true ↔ s.turns = [] ∧ s.policy = .free ∧ s.patience = 0 := by
  simp [State.fairTurnDue, and_assoc]

/-- What comes next: the waiting choice, the step that comes in turn while the choice waits, or nothing. The choice comes
though a fair turn is due only where no other step is allowed. -/
theorem chooseStep_cases (s : State) :
    (allowed s s.waitingTurn = true ∧ (s.fairTurnDue = true → s.turnInOrder = none) ∧
      chooseStep s = some (s.waitingTurn, s.useTurn)) ∨
    ((allowed s s.waitingTurn = false ∨ s.fairTurnDue = true) ∧
      ∃ t, s.turnInOrder = some t ∧ chooseStep s = some (t, s.passTurn)) ∨
    (allowed s s.waitingTurn = false ∧ s.turnInOrder = none ∧ chooseStep s = none) := by
  unfold chooseStep
  cases allowed s s.waitingTurn <;> cases s.fairTurnDue <;> cases s.turnInOrder <;> simp

/-- Every step that may come next, but a pin write, is among the candidates. -/
theorem mem_candidates {s : State} {t : Turn} (h : allowed s t = true) :
    t ∈ s.candidates ∨ ∃ k p st, t = .pinWrite k p st := by
  have hk : ∀ k u, s.allUnits[k]? = some u → k ∈ List.range s.allUnits.length := fun k u hu =>
    List.mem_range.mpr (List.getElem?_eq_some_iff.mp hu).1
  obtain ⟨he, -⟩ := allowed_iff.mp h
  cases t
  case host => exact .inl (by simp [State.candidates])
  case tick k =>
    obtain ⟨u, hu, -⟩ := he
    exact .inl (by simpa [State.candidates] using hk k u hu)
  case poll k =>
    obtain ⟨u, hu, -⟩ := he
    exact .inl (by simpa [State.candidates] using hk k u hu)
  case dispatch k =>
    obtain ⟨u, hu, -⟩ := he
    exact .inl (by simpa [State.candidates] using hk k u hu)
  case pinWrite k p st => exact .inr ⟨k, p, st, rfl⟩

/-- A step: it stands still and then nothing but a pin write may come next, or it performs a step that may come next,
from the state once its choice has been used or once the step has come in turn. -/
theorem step_cases (s : State) :
    (step s = .next s ∧ ∀ t, allowed s t = true → ∃ k p st, t = .pinWrite k p st) ∨
    ∃ t s', allowed s t = true ∧ (s' = s.useTurn ∨ s' = s.passTurn) ∧ step s = perform t s' := by
  unfold step stepOnce
  rcases chooseStep_cases s with ⟨h, -, e⟩ | ⟨-, t, h, e⟩ | ⟨-, hn, e⟩ <;> rw [e]
  · exact .inr ⟨_, _, h, .inl rfl, rfl⟩
  · exact .inr ⟨_, _, (turnInOrder_some h).1, .inr rfl, rfl⟩
  · refine .inl ⟨rfl, fun t ht => ?_⟩
    rcases mem_candidates ht with hm | hp
    · rw [turnInOrder_none.mp hn t hm] at ht
      cases ht
    · exact hp

/-- Using a choice changes no unit, no flag and no command. -/
theorem useTurn_fields (s : State) :
    s.useTurn.gie = s.gie ∧ s.useTurn.policy = s.policy ∧ s.useTurn.before = s.before ∧ s.useTurn.unit = s.unit ∧
      s.useTurn.after = s.after ∧ s.useTurn.hostQueue = s.hostQueue := by
  unfold State.useTurn
  cases s.turns <;> exact ⟨rfl, rfl, rfl, rfl, rfl, rfl⟩

/-- A list of turns decides the step as long as each turn may come next. -/
theorem step_of_turn {s : State} {t : Turn} {ts : List Turn} (h : s.turns = t :: ts) (ha : allowed s t = true) :
    step s = perform t { s with turns := ts } := by
  have hw : s.waitingTurn = t := by simp [State.waitingTurn, h]
  have hu : s.useTurn = { s with turns := ts } := by simp [State.useTurn, h]
  have hf : s.fairTurnDue = false := by simp [State.fairTurnDue, h]
  simp [step, stepOnce, chooseStep, hw, hu, hf, ha]

/-- Work on a unit that exists. -/
theorem atUnit_some {s s' : State} {k : Nat} {f : State → Host.Outcome State Fault Refusal} (h : s.focus k = some s') :
    atUnit k s f = f s' := by simp [atUnit, h]

/-- Work on a unit that answers a next state found the unit. -/
theorem atUnit_next {s t : State} {k : Nat} {f : State → Host.Outcome State Fault Refusal} (h : atUnit k s f = .next t) :
    ∃ s', s.focus k = some s' ∧ f s' = .next t := by
  unfold atUnit at h
  split at h
  · cases h
  · exact ⟨_, by assumption, h⟩

/-- One step of an agent that answers a next state, in its cases. -/
theorem perform_cases {a : Turn} {s t : State} (h : perform a s = .next t) :
    (a = .host ∧ s.hostQueue = [] ∧ t = s) ∨
    (a = .host ∧ ∃ c rest s', s.hostQueue = c :: rest ∧ ({ s with hostQueue := rest } : State).focus c.unit = some s' ∧
      issueWord c.word s' = .next t) ∨
    (∃ k s', a = .tick k ∧ s.focus k = some s' ∧ t = s'.onUnit tick) ∨
    (∃ k s', a = .poll k ∧ s.focus k = some s' ∧ t = s'.onUnit btPoll) ∨
    (∃ k s', a = .dispatch k ∧ s.focus k = some s' ∧ t = irqDispatch s') ∨
    (∃ k p st s', a = .pinWrite k p st ∧ s.focus k = some s' ∧ t = s'.onUnit (TimerUnit.writePin p st)) := by
  cases a
  case host =>
    cases hq : s.hostQueue with
    | nil =>
      simp only [perform, hq] at h
      injection h with h
      exact .inl ⟨rfl, rfl, h.symm⟩
    | cons c rest =>
      simp only [perform, hq] at h
      obtain ⟨s', hf, hi⟩ := atUnit_next h
      exact .inr (.inl ⟨rfl, c, rest, s', rfl, hf, hi⟩)
  case tick k =>
    obtain ⟨s', hf, hi⟩ := atUnit_next h
    injection hi with hi
    exact .inr (.inr (.inl ⟨k, s', rfl, hf, hi.symm⟩))
  case poll k =>
    obtain ⟨s', hf, hi⟩ := atUnit_next h
    injection hi with hi
    exact .inr (.inr (.inr (.inl ⟨k, s', rfl, hf, hi.symm⟩)))
  case dispatch k =>
    obtain ⟨s', hf, hi⟩ := atUnit_next h
    exact .inr (.inr (.inr (.inr (.inl ⟨k, s', rfl, hf, dispatchStep_next hi⟩))))
  case pinWrite k p st =>
    obtain ⟨s', hf, hi⟩ := atUnit_next h
    injection hi with hi
    exact .inr (.inr (.inr (.inr (.inr ⟨k, p, st, s', rfl, hf, hi.symm⟩))))

/-- A word is an operation or is illegal. -/
theorem issueWord_cases (w : Word) (s : State) :
    (∃ i, decode w = .ok i ∧ issueWord w s = exec i s) ∨
    (∃ e, decode w = .error e) ∧ issueWord w s = .next (s.onUnit (TimerUnit.raise .invalidArgument)) := by
  unfold issueWord
  cases h : decode w with
  | ok i => exact .inl ⟨i, rfl, rfl⟩
  | error e => exact .inr ⟨⟨e, rfl⟩, rfl⟩

end Sys2Proof.Machine
end

