-- ==== Sys2Proof/Tests/Slice0.lean ====
section
/-! SUPPORT. Tests: ill-formed terms, the spec's own words and vectors (spec/95_test_vectors.md), and for each statement
with hypotheses a concrete state and operands that meet them. -/

open Sys2Proof Sys2Proof.Machine

namespace Sys2Proof.Tests

/-- The state after reset with its unit changed. -/
def unitWith (f : TimerUnit → TimerUnit) : State := State.reset.onUnit f

/-- Registers by field, COMPARE out of the way. -/
def regs (cs : ClockCode) (count : Byte) (ovf cmf ovfIe cmpIe : Bool) : Regs :=
  { cs := cs, count := count, compare := 0x80, ovf := ovf, cmf := cmf, ovfIe := ovfIe, cmpIe := cmpIe }

/-- The outcome is a next state that passes the check. -/
def nextIs (o : Host.Outcome State Fault Refusal) (p : State → Bool) : Bool :=
  match o with
  | .next t => p t
  | .fault _ => false
  | .refused _ => false

/-- The outcome is this fault. -/
def stopsWith (o : Host.Outcome State Fault Refusal) (f : Fault) : Bool :=
  match o with
  | .next _ => false
  | .fault g => decide (g = f)
  | .refused _ => false

/-- The spec's subset for tests, {8, 64, 1024}. -/
def subset : UnitConfig := { fCpu := 8000000, dividers := [.d8, .d64, .d1024] }

/-! Ill-formed terms, one for each check of WellFormed. -/

theorem test_ill_formed_delay_negative : Instr.wellFormed Config.default (.planDelay 0xBF800000) = false := by decide +kernel
theorem test_ill_formed_delay_nan : Instr.wellFormed Config.default (.schedule true 9 0x7FC00000) = false := by decide
theorem test_ill_formed_plan_without_divider : Instr.wellFormed Config.default (.delayBlocking 0 0 0) = false := by decide
theorem test_ill_formed_plan_divider : Instr.wellFormed subset (.delayBlocking 1 0 0) = false := by decide
theorem test_ill_formed_plan_repeat : Instr.wellFormed Config.default (.delayBlocking 1 0 0xFFFFFFFF) = false := by decide
theorem test_ill_formed_frequency_zero : Instr.wellFormed Config.default (.pwmConfigure 5 0) = false := by decide +kernel
theorem test_ill_formed_duty : Instr.wellFormed Config.default (.pwmStart 101) = false := by decide
theorem test_ill_formed_divider : Instr.wellFormed subset (.setDivider 3) = false := by decide
theorem test_ill_formed_read_index : Instr.wellFormed Config.default (.regRead 5) = false := by decide
theorem test_ill_formed_write_index : Instr.wellFormed Config.default (.regWrite 7 1) = false := by decide
theorem test_ill_formed_write_divider : Instr.wellFormed subset (.regWrite 0 3) = false := by decide
theorem test_ill_formed_clock : ¬UnitConfig.wellFormed { fCpu := 0, dividers := [.d1] } := by decide
theorem test_ill_formed_empty_set : ¬UnitConfig.wellFormed { fCpu := 1, dividers := [] } := by decide
theorem test_ill_formed_unsorted_set : ¬UnitConfig.wellFormed { fCpu := 1, dividers := [.d8, .d1] } := by decide
theorem test_well_formed_defaults : UnitConfig.wellFormed Config.default ∧ UnitConfig.wellFormed subset := by decide

/-! Decoding, by the words of 95_test_vectors.md section 3.1 (V-D1 to V-D25): opcode, zeros, operands. -/

theorem test_decode_plan_delay : decode (0x01#8 ++ 0#24 ++ 0x41200000#32) = .ok (.planDelay 0x41200000) := by decide
theorem test_decode_delay_blocking : decode (0x02#8 ++ 0#13 ++ 7#3 ++ 243#8 ++ 3#32) = .ok (.delayBlocking 7 243 3) := by decide
theorem test_decode_pwm_configure : decode 0x030000053F800000 = .ok (.pwmConfigure 5 0x3F800000) := by decide
theorem test_decode_pwm_start : decode 0x0400000000000065 = .ok (.pwmStart 101) := by decide
theorem test_decode_pwm_stop : decode 0x0500000000000000 = .ok .pwmStop := by decide
theorem test_decode_schedule : decode (0x06#8 ++ 0#7 ++ 1#1 ++ 9#16 ++ 0x42C80000#32) = .ok (.schedule true 9 0x42C80000) := by decide
theorem test_decode_cancel : decode 0x0700000000000000 = .ok .cancel := by decide
theorem test_decode_set_divider : decode 0x1000000000000007 = .ok (.setDivider 7) := by decide
theorem test_decode_set_preload : decode 0x11000000000000FA = .ok (.setPreload 250) := by decide
theorem test_decode_read_ovf : decode 0x1200000000000000 = .ok .readOvf := by decide
theorem test_decode_clear_ovf : decode 0x1300000000000000 = .ok .clearOvf := by decide
theorem test_decode_reg_read : decode (0x14#8 ++ 0#45 ++ 3#3 ++ 0#8) = .ok (.regRead 3) := by decide
theorem test_decode_reg_write : decode 0x1500000000000402 = .ok (.regWrite 4 0x02) := by decide
theorem test_decode_reg_write_index_6 : decode 0x1500000000000601 = .ok (.regWrite 6 1) := by decide
theorem test_decode_irq_disable : decode 0x1800000000000000 = .ok .irqDisable := by decide
theorem test_decode_irq_enable : decode 0x1900000000000000 = .ok .irqEnable := by decide
theorem test_decode_on_compare_match : decode 0x2000000000000000 = .ok .onCompareMatch := by decide
theorem test_decode_on_overflow : decode 0x2100000000000000 = .ok .onOverflow := by decide
theorem test_illegal_opcodes : decode 0 = .error (.unassignedOpcode 0) ∧
    decode 0x0800000000000000 = .error (.unassignedOpcode 0x08) ∧
    decode 0x1600000000000000 = .error (.unassignedOpcode 0x16) ∧
    decode 0x2200000000000000 = .error (.unassignedOpcode 0x22) ∧
    decode 0xFF00000000000000 = .error (.unassignedOpcode 0xFF) := by decide
theorem test_illegal_reserved_bits : decode 0x0500000000000001 = .error (.reservedBits 0x05) ∧
    decode 0x0100000141200000 = .error (.reservedBits 0x01) ∧ decode 0x0200080000000000 = .error (.reservedBits 0x02) ∧
    decode 0x0602000000000000 = .error (.reservedBits 0x06) ∧ decode 0x1000000000000008 = .error (.reservedBits 0x10) ∧
    decode 0x1400000000000301 = .error (.reservedBits 0x14) ∧
    decode 0x1500000000000801 = .error (.reservedBits 0x15) := by decide
theorem test_table_word : decodeTableWord 64 0x1000000000000007 = some (.setDivider 7) ∧
    decodeTableWord 64 0x1000000000000008 = none := by decide

/-! Operand forms: V-F2 to V-F9, the table of 40_prescaler_counter.md R114, the text of 30_encoding.md R94. -/

theorem test_val32 : val32 0x3F000000 = some (1 / 2) ∧ val32 0x461C4000 = some 10000 ∧
    val32 0x3E83126F = some (8589935 / 33554432) ∧ val32 0x7F7FFFFF = some ((2 ^ 24 - 1) * 2 ^ 104) := by decide +kernel
theorem test_val32_subnormal : val32 0x00000001 = some (1 / 2 ^ 149) ∧ val32 0x80000001 = some (-(1 / 2 ^ 149)) := by
  decide +kernel
theorem test_divider_table : (Config.fullSet.map fun d => (d.code, tickMs Config.default d, maxDelay Config.default d)) =
    [(1, 1 / 8000, 4 / 125), (2, 1 / 1000, 32 / 125), (3, 1 / 250, 128 / 125), (4, 1 / 125, 256 / 125),
     (5, 2 / 125, 512 / 125), (6, 4 / 125, 1024 / 125), (7, 16 / 125, 4096 / 125)] := by decide +kernel
theorem test_literal_to_binary32 : toBinary32 (256 / 1000) = 0x3E83126F ∧ toBinary32 10 = 0x41200000 ∧
    toBinary32 (-1) = 0xBF800000 := by decide +kernel
theorem test_assemble : assemble "schedule" [.num 100, .num 9, .name "periodic"] = some (.schedule true 9 0x42C80000) ∧
    assemble "delay_blocking" [.name "none", .num 0, .num 0] = some (.delayBlocking 0 0 0) ∧
    assemble "reg_write" [.name "mask", .num 2] = some (.regWrite 4 2) := by decide +kernel

/-! The planner: V-A9, V-A20, V-A21, V-A26, V-A2, V-A31. -/

theorem test_planner : planDelay Config.default (some (32001 / 1000000)) = .ok ⟨.d8, 224, 0⟩ ∧
    planDelay Config.default (some (32769 / 1000)) = .ok ⟨.d1024, 0, 1⟩ ∧
    planDelay Config.default (some (32896 / 1000)) = .ok ⟨.d1024, 255, 1⟩ := by decide +kernel
theorem test_planner_range : planDelay Config.default (some ((2 ^ 32 - 1) * (32768 / 1000))) = .error .unsupportedRange := by
  decide +kernel
theorem test_planner_parameters : planDelay ⟨1000000, Config.fullSet⟩ (some (256 / 1000)) = .ok ⟨.d1, 0, 0⟩ ∧
    planDelay subset (some 3) = .ok ⟨.d1024, 233, 0⟩ := by decide +kernel

/-! Operations. -/

/-- V-A3. -/
theorem test_plan_delay : nextIs (exec (.planDelay 0x3E83126F) State.reset) (fun t =>
    t.unit.res = ⟨0, 0x000003C000000000⟩) = true := by decide +kernel
/-- V-P21. -/
theorem test_plan_delay_range : nextIs (exec (.planDelay 0x5203126F) State.reset) (fun t => t.unit.res = ⟨2, 0⟩) = true := by
  decide +kernel
/-- V-B2, V-B10. -/
theorem test_delay_blocking : nextIs (exec (.delayBlocking 7 243 3) (unitWith fun u => { u with regs := regs 0 9 true true false false }))
    (fun t => t.unit.regs = regs 7 243 false true false false ∧ t.unit.bt = ⟨true, 4⟩ ∧ t.unit.owner = .blocking) = true := by
  decide
/-- V-B3. -/
theorem test_delay_blocking_no_remainder : nextIs (exec (.delayBlocking 2 0 2) State.reset) (fun t =>
    t.unit.bt = ⟨true, 2⟩) = true := by decide
/-- V-W1. -/
theorem test_pwm_configure : nextIs (exec (.pwmConfigure 5 0x3F800000) State.reset) (fun t =>
    t.unit.pwm.config = some ⟨5, 1⟩ ∧ t.unit.pin 5 = ⟨.output, .low⟩ ∧ t.unit.pin 4 = ⟨.input, .low⟩ ∧
      t.unit.regs.ovfIe) = true := by decide +kernel

/-- A configured engine with a period in milliseconds, on pin 5. -/
def configured (t : Rat) : State := unitWith fun u =>
  { u with pwm := { u.pwm with config := some ⟨5, t⟩ }, regs := regs 0 9 true false true false }

/-- V-W2. -/
theorem test_pwm_start : nextIs (exec (.pwmStart 25) (configured 1)) (fun t =>
    t.unit.pwm.onPlan = some ⟨.d8, 6, 0⟩ ∧ t.unit.pwm.offPlan = some ⟨.d32, 69, 0⟩ ∧
      t.unit.regs = regs 2 6 false false true false ∧ (t.unit.pin 5).level = .high ∧ t.unit.owner = .pwm) = true := by
  decide +kernel
/-- V-W14. -/
theorem test_pwm_start_range : nextIs (exec (.pwmStart 50) (configured (200 / 3))) (fun t => t.unit.res = ⟨2, 0⟩) = true := by
  decide +kernel
/-- V-W19. -/
theorem test_pwm_stop : nextIs (exec .pwmStop (configured 1)) (fun t =>
    t.unit.regs = regs 0 9 true false false false) = true := by decide
/-- V-C2. -/
theorem test_schedule : nextIs (exec (.schedule true 9 0x42C80000) State.reset) (fun t =>
    t.unit.cb = ⟨some 9, 4, 0, 243, true, []⟩ ∧ t.unit.regs.cs = 7 ∧ t.unit.regs.ovfIe) = true := by decide +kernel
/-- V-C7. -/
theorem test_schedule_null : nextIs (exec (.schedule false 0 0x461C4000) State.reset) (fun t =>
    t.unit.cb = ⟨none, 306, 0, 211, false, []⟩ ∧ t.unit.owner = .callback) = true := by decide +kernel
/-- V-C3. -/
theorem test_cancel : nextIs (exec .cancel (unitWith fun u =>
      { u with owner := .callback, cb := ⟨some 7, 306, 157, 211, false, []⟩, regs := regs 7 3 false false true true }))
    (fun t => t.unit.cb = ⟨none, 306, 0, 211, false, []⟩ ∧ t.unit.regs = regs 7 3 false false false false ∧
      t.unit.owner = .idle) = true := by decide
/-- V-R2. -/
theorem test_set_divider : nextIs (exec (.setDivider 0) (unitWith fun u => { u with regs := regs 7 99 false false false false }))
    (fun t => t.unit.regs = regs 0 99 false false false false) = true := by decide
/-- V-R13. -/
theorem test_set_divider_unsupported : nextIs (exec (.setDivider 3)
      (unitWith fun u => { u with cfg := subset, regs := regs 2 0 false false false false }))
    (fun t => t.unit.regs.cs = 2 ∧ t.unit.res = ⟨1, 0⟩) = true := by decide
/-- V-T10: a write is not a match. -/
theorem test_set_preload : nextIs (exec (.setPreload 0x80) (unitWith fun u => { u with regs := regs 0 0 false false false false }))
    (fun t => t.unit.regs = regs 0 0x80 false false false false) = true := by decide
/-- V-R4. -/
theorem test_read_ovf : nextIs (exec .readOvf (unitWith fun u => { u with regs := regs 0 0 true false false false }))
    (fun t => t.unit.res = ⟨0, 1⟩ ∧ t.unit.regs.ovf) = true := by decide
/-- V-R5. -/
theorem test_clear_ovf : nextIs (exec .clearOvf (unitWith fun u => { u with regs := regs 0 0 true true false false }))
    (fun t => t.unit.regs = regs 0 0 false true false false) = true := by decide
/-- V-R6: `CMF` is bit 1 and `OVF` bit 0; here only `CMF` is set. -/
theorem test_reg_read : nextIs (exec (.regRead 3) (unitWith fun u => { u with regs := regs 0 0 false true false false }))
    (fun t => t.unit.res = ⟨0, 2⟩) = true := by decide
/-- V-R7. -/
theorem test_reg_write_flags : nextIs (exec (.regWrite 3 0x02) (unitWith fun u => { u with regs := regs 0 0 true true false false }))
    (fun t => t.unit.regs = regs 0 0 true false false false) = true := by decide
/-- V-R10. -/
theorem test_reg_write_ctrl : nextIs (exec (.regWrite 0 0xF8) (unitWith fun u => { u with regs := regs 3 5 false false false false }))
    (fun t => t.unit.regs = regs 0 5 false false false false) = true := by decide
/-- V-R15. -/
theorem test_irq_mask : nextIs (exec .irqEnable State.reset) (fun t => t.gie) = true ∧
    nextIs (exec .irqDisable { State.reset with gie := true }) (fun t => !t.gie) = true := by decide

/-- A callback schedule one service call before its target. -/
def almostDue (periodic : Bool) (effect : List CallbackRun) : State := unitWith fun u =>
  { u with owner := .callback, cb := ⟨some 3, 2, 1, 131, periodic, []⟩, regs := regs 3 7 false false true true
           cbEffect := effect }

/-- The same schedule with another target. -/
def dueAt (target : Word32) (effect : List CallbackRun) : State :=
  (almostDue true effect).onUnit fun u => { u with cb := { u.cb with target := target } }

/-- A one-shot schedule on a configured engine, whose callback starts the PWM engine. -/
def takenByPwm : State := (almostDue false [.returns [.pwmStart 100]]).onUnit fun u =>
  { u with pwm := { u.pwm with config := some ⟨5, 1⟩ } }

/-- 10_state.md R31: one-shot completion sets IDLE "only when the owner was `CALLBACK`". -/
theorem test_one_shot_leaves_another_owner : nextIs (exec .onOverflow takenByPwm) (fun t =>
    t.unit.owner = .pwm ∧ t.unit.regs.ovfIe = false ∧ (t.unit.pin 5).level = .high) = true := by decide +kernel

/-- V-C6. -/
theorem test_on_overflow_one_shot : nextIs (exec .onOverflow (almostDue false [])) (fun t =>
    t.unit.cb = ⟨none, 2, 0, 131, false, [3]⟩ ∧ t.unit.owner = .idle ∧ t.unit.regs = regs 3 7 false false false false) = true := by
  decide
/-- V-C5: the periodic re-arm reloads COUNT. -/
theorem test_on_overflow_periodic : nextIs (exec .onOverflow (almostDue true [])) (fun t =>
    t.unit.cb = ⟨some 3, 2, 0, 131, true, [3]⟩ ∧ t.unit.regs = regs 3 131 false false true true) = true := by decide
/-- V-C11: no reload on the compare path. -/
theorem test_on_compare_match : nextIs (exec .onCompareMatch (almostDue true [])) (fun t =>
    t.unit.cb = ⟨some 3, 2, 0, 131, true, [3]⟩ ∧ t.unit.regs.count = 7) = true := by decide
/-- A callback that never returns (93_implementation_defined.md U10). -/
theorem test_callback_never_returns : stopsWith (exec .onCompareMatch (almostDue true [.never])) .callbackNeverReturns =
    true := by decide

/-! Steps. -/

/-- V-T3. -/
theorem test_tick : (tick { (State.reset.unit) with regs := { regs 1 255 false false false false with compare := 0 } }).regs =
    { regs 1 0 true true false false with compare := 0 } := by decide
/-- V-C12: compare match is served first. -/
theorem test_dispatch_order : topSource true { (State.reset.unit) with regs := regs 7 0 true true true true } =
    some .compareMatch := by decide
/-- V-W16: overflow interrupt of a PWM waveform. -/
theorem test_dispatch_pwm : nextIs (dispatchStep { (unitWith fun u =>
      { u with owner := .pwm, pwm := ⟨some ⟨5, 1⟩, some ⟨.d8, 6, 0⟩, some ⟨.d32, 69, 0⟩, .onPhase⟩
               regs := regs 2 0 true false true false }) with gie := true })
    (fun t => t.unit.regs = regs 3 69 false false true false ∧ t.unit.pwm.phase = .offPhase ∧ t.gie ∧
      (t.unit.pin 5).level = .high) = true := by decide +kernel
/-- A command to a unit that does not exist. -/
theorem test_no_such_unit : stopsWith
    (step { State.reset with hostQueue := [⟨1, 0x0500000000000000⟩], turns := [.host] }) .noSuchUnit = true := by decide
/-- The placed word runs as the first instruction after reset. -/
theorem test_placed_word : nextIs (step (State.reset.withFetchWord 64 0x1000000000000007)) (fun t => t.unit.regs.cs = 7) = true := by
  decide

/-! Witnesses: for each statement with hypotheses, data that meet all of them, at boundary values. -/

theorem witness_EncodeInvertsDecode : decode 0x0500000000000000 = .ok .pwmStop := by decide
theorem witness_WordIsTheOperationIffItMatchesItsRow : ∃ r ∈ Claims.opcodeMap,
    (0x0400000000000065 : Word) &&& r.maskBits = r.matchBits := ⟨_, .tail _ (.tail _ (.tail _ (.head _))), by decide⟩
theorem witness_IllegalWordRaisesInvalidArgument : ∀ r ∈ Claims.opcodeMap,
    (0x0500000000000001 : Word) &&& r.maskBits ≠ r.matchBits := by decide
theorem witness_PlannedDelayIsAccepted : State.reset.unit.cfg.wellFormed ∧
    ∃ t, exec (.planDelay 0x42C80000) State.reset = .next t ∧ t.unit.res.status = 0 :=
  ⟨by decide, _, rfl, by decide +kernel⟩

/-- The host's turn, with one command to issue to unit 0. -/
def hostTurn : State := { State.reset with hostQueue := [⟨0, 0x1000000000000007⟩], turns := [.host] }

theorem witness_StepRunsTheIssuedCommand : hostTurn.hostQueue = ⟨0, 0x1000000000000007⟩ :: [] ∧
    hostTurn.turns = .host :: [] ∧ MayComeNext hostTurn .host ∧ hostTurn.allUnits[0]? = some State.reset.unit ∧
    decode 0x1000000000000007 = .ok (.setDivider 7) :=
  ⟨rfl, rfl, allowed_iff.mp (by decide), rfl, by decide⟩
theorem witness_PlacedWordRunsNext : decodeTableWord 64 0x1000000000000007 = some (.setDivider 7) ∧
    (∀ u ∈ State.reset.allUnits, u.bt.active = false) ∧
    (State.reset.policy = .prompt → ¬InterruptWaiting State.reset ∧ ¬PollWaiting State.reset) :=
  ⟨by decide, by decide, fun _ => ⟨fun h => absurd (anyIrqDue_iff.mpr h) (by decide),
    fun h => absurd (anyPollDue_iff.mpr h) (by decide)⟩⟩

/-- The counter at 255 with the divider of code 1 selected, and its turns. -/
def ticking (n : Nat) : State := { (unitWith fun u => { u with regs := regs 1 255 false false false false }) with
  turns := List.replicate n (.tick 0) }

theorem witness_StepIsOneThePolicyLetsComeNext :
    (∃ t, step (ticking 1) = .next t) ∧ ∃ t, step { State.reset with turns := [.host] } = .next t := ⟨⟨_, rfl⟩, _, rfl⟩
theorem witness_EveryStepThePolicyAllowsCanComeNext : (ticking 2).turns = .tick 0 :: [.tick 0] ∧
    MayComeNext (ticking 2) (.tick 0) := ⟨rfl, allowed_iff.mp (by decide)⟩

/-- One unit whose counter runs under FREE while nothing else is enabled. -/
def OnlyTicks (s : State) : Prop := s.before = [] ∧ s.after = [] ∧ s.hostQueue = [] ∧ s.policy = .free ∧
  s.unit.regs.cs = 1 ∧ s.unit.regs.ovfIe = false ∧ s.unit.regs.cmpIe = false ∧ s.unit.bt.active = false

/-- Such a state steps to such a state, whatever the free values are. -/
theorem OnlyTicks.step {s : State} (h : OnlyTicks s) : ∃ t, step s = .next t ∧ OnlyTicks t := by
  rcases step_cases s with ⟨e, -⟩ | ⟨a, s', ha, hs, e⟩
  · exact ⟨s, e, h⟩
  have h' : OnlyTicks s' := by rcases hs with rfl | rfl <;> simpa [OnlyTicks] using h
  have hu : s.allUnits = [s.unit] := by simp [State.allUnits, h.1, h.2.1]
  have hk : ∀ k u, s.allUnits[k]? = some u → k = s'.selected ∧ u = s.unit := fun k u hku => by
    rw [hu] at hku
    have hlt := (List.getElem?_eq_some_iff.mp hku).1
    obtain rfl : k = 0 := by simpa using hlt
    exact ⟨by simp [State.selected, h'.1], by simpa using hku.symm⟩
  obtain ⟨-, -, hq, -, -, ho, hc, hb⟩ := h
  obtain ⟨he, -⟩ := allowed_iff.mp ha
  rw [e]
  cases a with
  | host => exact absurd hq he.1
  | tick k =>
    obtain ⟨u, hku, -⟩ := he
    rw [(hk k u hku).1]
    exact ⟨s'.onUnit tick, atUnit_some (focus_selected s'), h'⟩
  | poll k =>
    obtain ⟨u, hku, hp, -⟩ := he
    rw [(hk k u hku).2, hb] at hp
    cases hp
  | dispatch k =>
    obtain ⟨u, hku, src, hp⟩ := he
    rw [(hk k u hku).2] at hp
    cases src <;> simp [eligible, Regs.enabled, ho, hc] at hp
  | pinWrite k p st =>
    obtain ⟨u, hku⟩ : ∃ u, s.allUnits[k]? = some u := ⟨_, List.getElem?_eq_getElem he⟩
    rw [(hk k u hku).1]
    exact ⟨s'.onUnit (TimerUnit.writePin p st), atUnit_some (focus_selected s'), h'⟩

/-- The run of the machine from a counter that runs under FREE. -/
def freeRun : Nat → State
  | 0 => { (ticking 0) with policy := .free }
  | n + 1 =>
    match step (freeRun n) with
    | .next t => t
    | .fault _ => freeRun n
    | .refused _ => freeRun n

theorem freeRun_onlyTicks : ∀ n, OnlyTicks (freeRun n)
  | 0 => ⟨rfl, rfl, rfl, rfl, rfl, rfl, rfl, rfl⟩
  | n + 1 => by
    obtain ⟨t, e, h⟩ := (freeRun_onlyTicks n).step
    rw [freeRun, e]
    exact h

theorem witness_EveryStepThePolicyAllowsCanComeNext_free : IsRun freeRun ∧ (freeRun 0).policy = .free ∧
    isBlockStep (.tick 0) = true ∧ ∀ m, 0 ≤ m → Enabled (freeRun m) (.tick 0) := by
  refine ⟨fun n => ?_, rfl, rfl, fun m _ => ?_⟩
  · obtain ⟨t, e, -⟩ := (freeRun_onlyTicks n).step
    rw [freeRun, e]
  · obtain ⟨h, -, -, -, hcs, -⟩ := freeRun_onlyTicks m
    exact ⟨_, by rw [State.allUnits, h]; rfl, by rw [hcs]; decide⟩

theorem witness_TickCountsAndSetsTheFlags : ∃ s1, (ticking 1).turns = .tick 0 :: [] ∧ MayComeNext (ticking 1) (.tick 0) ∧
    ({ (ticking 1) with turns := [] } : State).focus 0 = some s1 := ⟨_, rfl, allowed_iff.mp (by decide), rfl⟩
theorem witness_TickCountsAndSetsTheFlags_wrap : ∃ u : TimerUnit, u.regs.count = 255 ∧ u.regs.compare = 0 :=
  ⟨{ State.reset.unit with regs := { regs 1 255 false false false false with compare := 0 } }, rfl, rfl⟩
theorem witness_CounterOverflowsEvery256Ticks : (0 : Nat) < 1 ∧ (tickTimes 1 (ticking 0).unit).regs.count = 0 ∧
    (tickTimes 2 (ticking 0).unit).regs.count ≠ 0 := by decide

/-- A blocking delay that has observed an overflow, with `n` to go. -/
def polling (ovf : Bool) (n : Word32) : State := unitWith fun u =>
  { u with owner := .blocking, bt := ⟨true, n⟩, regs := regs 1 0 ovf false false false }

theorem witness_PollCountsOverflowsAndCompletes : (polling false 1).unit.regs.ovf = false ∧
    ((polling true 2).unit.regs.ovf = true ∧ (polling true 2).unit.bt.remaining ≠ 1) ∧
    ((polling true 1).unit.regs.ovf = true ∧ (polling true 1).unit.bt.remaining = 1) := by decide
theorem witness_ResetStateIsTheSpecs :
    Enabled { State.reset with hostQueue := [⟨0, 0⟩] } .host ∧
    Enabled { State.reset with hostQueue := [] } (.pinWrite 0 5 ⟨.output, .high⟩) := by
  refine ⟨⟨by simp, ?_⟩, ?_⟩
  · decide
  · show 0 < 1
    decide

/-- A blocking delay with the counter about to overflow and the tick to come. -/
def delaying : State := { (unitWith fun u =>
  { u with owner := .blocking, bt := ⟨true, 2⟩, regs := regs 1 255 false false false false }) with turns := [.tick 0] }

theorem witness_StepKeepsTheInvariants : Inv delaying ∧ ∃ t, step delaying = .next t := by
  refine ⟨⟨?_, by decide⟩, _, rfl⟩
  intro u hu
  obtain rfl : u = delaying.unit := by simpa [State.allUnits, delaying, unitWith, State.onUnit, State.reset] using hu
  refine ⟨by decide, by decide, rfl, fun p h => ?_, fun p h => ?_, fun h => absurd h (by decide), fun c h => ?_,
    fun _ => by decide, fun h => absurd h (by decide), fun h => absurd h (by decide), by decide⟩
  · cases (show none = some p from h)
  · cases (show none = some p from h)
  · cases (show none = some c from h)
theorem witness_StepKeepsTheParameters : ∃ t, step delaying = .next t := ⟨_, rfl⟩
theorem witness_StepChangesAtMostOneUnit : ∃ t, step hostTurn = .next t := ⟨_, rfl⟩
theorem witness_StepOnlyAppendsToTheCallbackLog :
    (∃ t, step delaying = .next t) ∧ delaying.allUnits[0]? = some delaying.unit := ⟨⟨_, rfl⟩, rfl⟩
theorem witness_OperationCompletesOnTheAddressedUnitAlone :
    (almostDue true [.returns [], .never]).unit.cbEffect.head? ≠ some .never ∧
    ((dueAt 3 [.never]).unit.owner = .callback ∧ (dueAt 3 [.never]).unit.cb.count + 1 ≠ (dueAt 3 [.never]).unit.cb.target ∧
      (dueAt 3 [.never]).unit.cbEffect.head? = some .never) ∧
    (almostDue true [.never]).unit.owner = .callback ∧
    (almostDue true [.never]).unit.cb.count + 1 = (almostDue true [.never]).unit.cb.target ∧
    (almostDue true [.never]).unit.cb.callback ≠ none ∧
    (almostDue true [.never]).unit.cbEffect.head? = some .never := by decide
theorem witness_ErrorChangesOnlyTheResultRegisters :
    (∀ cs preload rep, Instr.pwmStart 101 ≠ .delayBlocking cs preload rep) ∧
    ∃ t, exec (.pwmStart 101) State.reset = .next t ∧ t.unit.res.status ≠ 0 := ⟨by simp, _, rfl, by decide⟩
theorem witness_InvalidArgumentHasExactlyItsCauses :
    (∃ t, exec (.pwmStart 50) State.reset = .next t) ∧ (Instr.delayBlocking 0 0 0).wellFormed Config.default = false ∧
    (Instr.delayBlocking 1 0 0xFFFFFFFF).wellFormed Config.default = false ∧
    (Instr.delayBlocking 1 0 0xFFFFFFFE).wellFormed Config.default = true := ⟨⟨_, rfl⟩, by decide, by decide, by decide⟩
theorem witness_FlagsAreSetOnlyByTicks : ∃ t, exec .clearOvf (polling true 1) = .next t := ⟨_, rfl⟩
theorem witness_OnlyTheInterruptMaskOperationsChangeGie : (almostDue false []).unit.cbEffect = [] ∧
    ∃ t, exec .onOverflow (almostDue false []) = .next t := ⟨rfl, _, rfl⟩
theorem witness_OnlyRegWriteChangesCompare : (almostDue false []).unit.cbEffect = [] ∧
    (∀ value, Instr.regWrite 1 7 ≠ .regWrite 2 value) ∧ ∃ t, exec (.regWrite 1 7) (almostDue false []) = .next t :=
  ⟨rfl, by simp, _, rfl⟩
theorem witness_Val32IsTheBinary32Value : (255 : BitVec 8) = 255 ∧ (0 : BitVec 8) = 0 ∧
    ((254 : BitVec 8) ≠ 255 ∧ (254 : BitVec 8) ≠ 0) ∧ ((1 : BitVec 8) ≠ 255 ∧ (1 : BitVec 8) ≠ 0) := by decide
theorem witness_SinglePeriodPlan : Config.default.wellFormed ∧ (0 : Rat) ≤ 128 / 125 ∧
    Config.default.dividers = [.d1, .d8] ++ .d32 :: [.d64, .d128, .d256, .d1024] ∧
    (∀ d' ∈ [Divider.d1, .d8], maxDelay Config.default d' < 128 / 125) ∧
    (128 / 125 : Rat) ≤ maxDelay Config.default .d32 := by decide +kernel
theorem witness_SinglePeriodPlan_clamp : Config.default.wellFormed ∧ (0 : Rat) ≤ 0 ∧
    (0 : Rat) < tickMs Config.default (dMin Config.default) := by decide +kernel
theorem witness_MultiPeriodPlan : Config.default.wellFormed ∧
    (∀ d ∈ Config.default.dividers, maxDelay Config.default d < 32769 / 1000) ∧
    ((1 : Nat) : Int) = ((32769 / 1000 : Rat) / maxDelay Config.default (dMax Config.default)).floor := by decide +kernel
theorem witness_MultiPeriodPlan_range :
    (∀ d ∈ Config.default.dividers, maxDelay Config.default d < (2 ^ 32 - 1) * (32768 / 1000)) ∧
    ((2 ^ 32 - 1 : Nat) : Int) =
      ((2 ^ 32 - 1) * (32768 / 1000) / maxDelay Config.default (dMax Config.default) : Rat).floor ∧
    ((2 ^ 32 - 2 : Nat) : Int) =
      ((2 ^ 32 - 2) * (32768 / 1000) / maxDelay Config.default (dMax Config.default) : Rat).floor := by decide +kernel
theorem witness_PlannerRejectsBadDelays : (-1 : Rat) < 0 := by decide +kernel
theorem witness_PlanIsWithinOneTick : Config.default.wellFormed ∧
    (planDelay Config.default (some 10) = .ok ⟨.d1024, 178, 0⟩ ∧ tickMs Config.default .d1024 ≤ 10) ∧
    planDelay Config.default (some 100) = .ok ⟨.d1024, 243, 3⟩ ∧
    planDelay Config.default (some 0) = .ok ⟨.d1, 255, 0⟩ ∧ (0 : Rat) < tickMs Config.default .d1 := by decide +kernel
theorem witness_DividerSelectionIsMonotonic : Config.default.wellFormed ∧ (32 / 1000 : Rat) ≤ 32001 / 1000000 ∧
    planDelay Config.default (some (32 / 1000)) = .ok ⟨.d1, 0, 0⟩ ∧
    planDelay Config.default (some (32001 / 1000000)) = .ok ⟨.d8, 224, 0⟩ := by decide +kernel
theorem witness_PlannerReturnsAPlan : Config.default.wellFormed ∧
    planDelay Config.default (some (32769 / 1000)) = .ok ⟨.d1024, 0, 1⟩ := by decide +kernel
theorem witness_PlanDelayWritesOnlyTheResultRegisters :
    planDelay State.reset.unit.cfg (val32 0x42C80000) = .ok ⟨.d1024, 243, 3⟩ ∧
    planDelay State.reset.unit.cfg (val32 0x5203126F) = .error .unsupportedRange ∧
    planDelay State.reset.unit.cfg (val32 0xBF800000) = .error .invalidArgument := by decide +kernel
theorem witness_DelayBlockingStartsTheExecutor : divOf 7 = some .d1024 ∧ .d1024 ∈ State.reset.unit.cfg.dividers ∧
    (0xFFFFFFFE : Word32).toNat ≤ 2 ^ 32 - 2 ∧ 2 ^ 32 - 2 < (0xFFFFFFFF : Word32).toNat ∧
    (∀ d, divOf 1 = some d → d ∉ subset.dividers) := by decide

/-- The state from which a blocking delay of the plan {1, 255, 0} starts: one tick, one overflow. -/
def oneTickDelay : State := { State.reset with turns := List.replicate 2 (.tick 0) }

theorem witness_BlockingDelayLastsItsTotalTicks : oneTickDelay.before = [] ∧ oneTickDelay.after = [] ∧
    oneTickDelay.policy = .prompt ∧ oneTickDelay.gie = false ∧ divOf 1 = some (TimerPlan.mk .d1 255 0).divider ∧
    (TimerPlan.mk .d1 255 0).divider ∈ oneTickDelay.unit.cfg.dividers ∧ (TimerPlan.mk .d1 255 0).rep.toNat ≤ 2 ^ 32 - 2 ∧
    oneTickDelay.turns = List.replicate ((TimerPlan.mk .d1 255 0).totalTicks + 1) (.tick 0) ∧
    ∃ t, exec (.delayBlocking 1 (TimerPlan.mk .d1 255 0).preload (TimerPlan.mk .d1 255 0).rep) oneTickDelay = .next t ∧
      ∃ t', runSteps 2 t = .next t' :=
  ⟨rfl, rfl, rfl, rfl, by decide, by decide, by decide, by decide, _, rfl, _, rfl⟩
theorem witness_BlockingDelayLastsItsTotalTicks_masked : ∃ s : State, s.gie = true ∧ s.unit.regs.ovfIe = false ∧
    s.unit.regs.cmpIe = false ∧ s.turns = List.replicate ((TimerPlan.mk .d1 0 1).totalTicks + 1) (.tick 0) ∧
    (TimerPlan.mk .d1 0 1).totalTicks = 256 ∧ (TimerPlan.mk .d1 0 1).overflowsToWait = 1 :=
  ⟨{ State.reset with gie := true, turns := List.replicate ((TimerPlan.mk .d1 0 1).totalTicks + 1) (.tick 0) },
    rfl, rfl, rfl, rfl, by decide, by decide⟩
theorem witness_LiveOverflowInterruptStarvesABlockingDelay : ∃ s u t, s.policy = .prompt ∧ s.gie = true ∧
    s.allUnits[0]? = some u ∧ u.bt.active = true ∧ u.owner = .blocking ∧ u.regs.ovfIe = true ∧ step s = .next t :=
  ⟨{ (unitWith fun u => { u with owner := .blocking, bt := ⟨true, 1⟩, regs := regs 1 0 true false true false }) with
      gie := true, turns := [.poll 0] }, _, _, rfl, rfl, rfl, rfl, rfl, rfl, rfl⟩
theorem witness_PwmConfigureStoresPinAndPeriod : (val32 0x3F800000 = some 1 ∧ (0 : Rat) < 1) ∧
    (val32 0 = some 0 ∧ (0 : Rat) ≤ 0) ∧ val32 0x7FC00000 = none := by decide +kernel
theorem witness_PwmStartAtTheExtremesIsAConstantLevel : (configured 1).unit.pwm.config = some ⟨5, 1⟩ ∧
    ((0 : Byte) = 0 ∨ (0 : Byte) = 100) ∧ ((100 : Byte) = 0 ∨ (100 : Byte) = 100) := by decide +kernel
theorem witness_PwmStartRaisesItsErrorsInOrder : 100 < (101 : Byte).toNat ∧
    ((100 : Byte).toNat ≤ 100 ∧ State.reset.unit.pwm.config = none) ∧
    (0 < (25 : Byte).toNat ∧ (25 : Byte).toNat < 100 ∧ (configured (1 / 4000)).unit.pwm.config = some ⟨5, 1 / 4000⟩ ∧
      onTime (1 / 4000) 25 < minDelay Config.default (dMin Config.default)) := by decide +kernel
theorem witness_PwmStartRaisesItsErrorsInOrder_range : (configured (200 / 3)).unit.pwm.config = some ⟨5, 200 / 3⟩ ∧
    minDelay Config.default (dMin Config.default) ≤ onTime (200 / 3) 50 ∧
    minDelay Config.default (dMin Config.default) ≤ offTime (200 / 3) 50 ∧
    ¬∃ a b, planDelay Config.default (some (onTime (200 / 3) 50)) = .ok a ∧
      planDelay Config.default (some (offTime (200 / 3) 50)) = .ok b ∧ a.rep = 0 ∧ b.rep = 0 := by
  have h : planDelay Config.default (some (onTime (200 / 3) 50)) = .ok ⟨.d1024, 252, 1⟩ := by decide +kernel
  refine ⟨rfl, by decide +kernel, by decide +kernel, ?_⟩
  rintro ⟨a, b, ha, -, hr, -⟩
  rw [h] at ha
  cases ha
  cases hr
theorem witness_PwmStartBeginsTheOnPhase : (0 < (99 : Byte).toNat ∧ (99 : Byte).toNat < 100) ∧
    (configured 1).unit.pwm.config = some ⟨5, 1⟩ ∧
    minDelay Config.default (dMin Config.default) ≤ onTime 1 99 ∧
    minDelay Config.default (dMin Config.default) ≤ offTime 1 99 ∧
    planDelay Config.default (some (onTime 1 99)) = .ok ⟨.d32, 9, 0⟩ ∧
    planDelay Config.default (some (offTime 1 99)) = .ok ⟨.d1, 176, 0⟩ := by decide +kernel

/-- A running waveform whose phase ends at the next tick, with its turns. -/
def waveform (phase : Phase) (n : Nat) : State := { (unitWith fun u =>
  { u with owner := .pwm, pwm := ⟨some ⟨5, 1⟩, some ⟨.d1, 255, 0⟩, some ⟨.d8, 255, 0⟩, phase⟩
           regs := regs (if phase = .onPhase then 1 else 2) 255 false false true false }) with
  gie := true, turns := List.replicate n (.tick 0) }

theorem witness_PwmOverflowServiceAlternatesThePhases :
    (∃ s : State, s.unit.owner = .pwm ∧ s.unit.pwm.onPlan = none) ∧
    (waveform .onPhase 0).unit.owner = .pwm ∧ (waveform .onPhase 0).unit.pwm.config = some ⟨5, 1⟩ ∧
    (waveform .onPhase 0).unit.pwm.onPlan = some ⟨.d1, 255, 0⟩ ∧
    (waveform .onPhase 0).unit.pwm.offPlan = some ⟨.d8, 255, 0⟩ :=
  ⟨⟨unitWith fun u => { u with owner := .pwm }, rfl, rfl⟩, rfl, rfl, rfl, rfl⟩
theorem witness_PwmPhaseLastsItsPlan : (waveform .offPhase 2).before = [] ∧ (waveform .offPhase 2).after = [] ∧
    (waveform .offPhase 2).policy = .prompt ∧ (waveform .offPhase 2).gie = true ∧
    (waveform .offPhase 2).unit.bt.active = false ∧ (waveform .offPhase 2).unit.owner = .pwm ∧
    (waveform .offPhase 2).unit.regs = regs Divider.d8.code 255 false false true false ∧
    (waveform .offPhase 2).unit.pwm = ⟨some ⟨5, 1⟩, some ⟨.d1, 255, 0⟩, some ⟨.d8, 255, 0⟩, .offPhase⟩ ∧
    (waveform .offPhase 2).turns = List.replicate (256 - (TimerPlan.mk .d8 255 0).preload.toNat + 1) (.tick 0) ∧
    ∃ t, runSteps 2 (waveform .offPhase 2) = .next t :=
  ⟨rfl, rfl, rfl, rfl, rfl, rfl, by decide, rfl, by decide, _, rfl⟩
theorem witness_ScheduleArmsTheCounter :
    planDelay State.reset.unit.cfg (val32 0x461C4000) = .ok ⟨.d1024, 211, 305⟩ ∧
    planDelay State.reset.unit.cfg (val32 0x7F7FFFFF) = .error .unsupportedRange := by decide +kernel
theorem witness_CallbackServiceCountsToItsTarget : (almostDue true []).unit.owner = .callback ∧
    (almostDue true []).unit.cbEffect = [] ∧
    (almostDue true []).unit.cb.count + 1 = (almostDue true []).unit.cb.target ∧
    (almostDue true []).unit.cb.periodic = true ∧ (almostDue false []).unit.cb.periodic = false ∧
    ∃ s : State, s.unit.owner = .callback ∧ s.unit.cbEffect = [] ∧ s.unit.cb.count + 1 ≠ s.unit.cb.target :=
  ⟨rfl, rfl, by decide, rfl, rfl, unitWith fun u => { u with owner := .callback, cb := { u.cb with target := 2 } },
    rfl, rfl, by decide⟩
theorem witness_CallbackOperationsRunInsideTheService : ∃ s : State, s.unit.owner = .callback ∧
    s.unit.cb.count + 1 = s.unit.cb.target ∧ s.unit.cb.callback = some 3 ∧
    s.unit.cbEffect = .returns [.schedule false 4 0] :: [] ∧
    planDelay s.unit.cfg (val32 0) = .ok ⟨.d1, 255, 0⟩ :=
  ⟨almostDue false [.returns [.schedule false 4 0]], rfl, by decide, rfl, rfl, by decide +kernel⟩
theorem witness_CallbackOperationsRunInsideTheService_pwm : takenByPwm.unit.owner = .callback ∧
    takenByPwm.unit.cb.count + 1 = takenByPwm.unit.cb.target ∧ takenByPwm.unit.cb.callback = some 3 ∧
    takenByPwm.unit.cbEffect = .returns [.pwmStart 100] :: [] ∧ takenByPwm.unit.cb.periodic = false ∧
    takenByPwm.unit.pwm.config = some ⟨5, 1⟩ ∧ ((100 : Byte) = 0 ∨ (100 : Byte) = 100) :=
  ⟨rfl, by decide, rfl, rfl, rfl, rfl, .inr rfl⟩
theorem witness_HandlersWithoutAServiceDoNothing : State.reset.unit.owner = .idle ∧
    (polling true 1).unit.owner = .blocking ∧ (waveform .onPhase 0).unit.owner ≠ .callback := by decide
theorem witness_CancelledCallbackIsNeverInvoked : ∃ t t', exec .cancel { (almostDue false []) with turns := [.tick 0] } = .next t ∧
    t.hostQueue = [] ∧ runSteps 1 t = .next t' := ⟨_, _, rfl, rfl, rfl⟩

/-- The state from which a schedule of 0 milliseconds starts: one tick, one overflow. -/
def oneTickSchedule : State := { State.reset with gie := true, turns := List.replicate 2 (.tick 0) }

theorem witness_ScheduleInvokesAfterItsTotalTicks : oneTickSchedule.policy = .prompt ∧ oneTickSchedule.gie = true ∧
    oneTickSchedule.unit.bt.active = false ∧ oneTickSchedule.unit.regs.cmpIe = false ∧
    oneTickSchedule.unit.cbEffect = [] ∧ oneTickSchedule.unit.cfg.wellFormed ∧ (4 : CallbackRef) ≠ 0 ∧
    planDelay oneTickSchedule.unit.cfg (val32 0) = .ok ⟨.d1, 255, 0⟩ ∧
    oneTickSchedule.turns = List.replicate ((TimerPlan.mk .d1 255 0).totalTicks + 1) (.tick 0) ∧
    (oneTickSchedule.before = [] ∧ oneTickSchedule.after = []) ∧
    ∃ t, exec (.schedule true 4 0) oneTickSchedule = .next t :=
  ⟨rfl, rfl, rfl, rfl, rfl, by decide, by decide, by decide +kernel, by decide, ⟨rfl, rfl⟩, _, rfl⟩
theorem witness_SetDividerWritesTheClockSelect :
    ((0 : ClockCode) = 0 ∧ divOf 7 = some .d1024 ∧ .d1024 ∈ Config.default.dividers) ∧
    ((3 : ClockCode) ≠ 0 ∧ ∀ d, divOf 3 = some d → d ∉ subset.dividers) := by decide
theorem witness_RegReadReturnsTheRegister : 4 < (5 : RegIndex).toNat ∧ 4 < (7 : RegIndex).toNat := by decide
theorem witness_RegWriteFollowsEachRegistersRule :
    ((0xF8 : Byte).extractLsb' 0 3 = 0 ∧ divOf ((0xFF : Byte).extractLsb' 0 3) = some .d1024) ∧
    ((0x03 : Byte).extractLsb' 0 3 ≠ 0 ∧ ∀ d, divOf ((0x03 : Byte).extractLsb' 0 3) = some d → d ∉ subset.dividers) ∧
    4 < (5 : RegIndex).toNat := by decide
theorem witness_ReadAfterWrite : ∃ t t', exec (.regWrite 4 0xFF) State.reset = .next t ∧ t.unit.res.status = 0 ∧
    exec (.regRead 4) t = .next t' := ⟨_, _, rfl, by decide, rfl⟩
theorem witness_InterruptMaskOperations : (∃ t, exec .irqDisable (waveform .onPhase 0) = .next t) ∧
    (∃ t, exec .irqEnable (almostDue true []) = .next t) ∧
    ∃ s : State, s.unit.regs.pending .overflow = true ∧ s.unit.regs.enabled .overflow = true :=
  ⟨⟨_, rfl⟩, ⟨_, rfl⟩, unitWith fun u => { u with regs := regs 0 0 true false true false }, rfl, rfl⟩
theorem witness_CompareMatchIsTakenBeforeOverflow :
    eligible true { (State.reset.unit) with regs := regs 7 0 true true true true } .compareMatch = true ∧
    eligible true { (State.reset.unit) with regs := regs 7 0 true true true false } .compareMatch = false ∧
    eligible true { (State.reset.unit) with regs := regs 7 0 true true true false } .overflow = true := by decide
theorem witness_TakingAnInterruptClearsServesAndReturns : (almostDue true []).unit.cbEffect = [] := rfl

/-- A callback schedule with both interrupts pending and unmasked. -/
def interrupted (target : Word32) (effect : List CallbackRun) (cmpIe : Bool) : State :=
  { ((dueAt target effect).onUnit fun u => { u with regs := regs 3 7 true true true cmpIe }) with gie := true }

theorem witness_TakingAnInterruptClearsServesAndReturns_step :
    (interrupted 3 [.never] true).unit.cb.count + 1 ≠ (interrupted 3 [.never] true).unit.cb.target ∧
    eligible true (interrupted 3 [.never] true).unit .compareMatch = true ∧
    (interrupted 2 [] false).unit.cbEffect.head? ≠ some .never ∧
    eligible true (interrupted 2 [] false).unit .compareMatch = false ∧
    eligible true (interrupted 2 [] false).unit .overflow = true := by decide
theorem witness_TakingAnInterruptClearsServesAndReturns_hang :
    (interrupted 2 [.never] false).unit.owner = .callback ∧
    (interrupted 2 [.never] false).unit.cb.count + 1 = (interrupted 2 [.never] false).unit.cb.target ∧
    (interrupted 2 [.never] false).unit.cb.callback ≠ none ∧
    (interrupted 2 [.never] false).unit.cbEffect.head? = some .never ∧
    Enabled (interrupted 2 [.never] false) (.dispatch (interrupted 2 [.never] false).selected) :=
  ⟨rfl, by decide, by decide, rfl, _, rfl, .overflow, rfl⟩

end Sys2Proof.Tests
end

section
/-! What a step does to the system, in the one form that speaks of no particular operation: it addresses one unit, that
unit goes through a chain of named changes, and no other unit and no policy is touched. A property that each change of
`UnitChange` keeps is then kept by every step; the parameters of 00_scope.md R6 are the first. -/

namespace Sys2Proof.Machine

/-! The changes of one unit. -/

/-- The changes that a step's effect on its unit is put together from. -/
inductive UnitChange : TimerUnit → TimerUnit → Prop
  | operation {i : Instr} {op : TimerUnit → OpResult} (h : plainOp i = some op) (u : TimerUnit) :
      UnitChange u (finish op u)
  | delayBlocking (cs : ClockCode) (preload : Byte) (rep : Word32) (u : TimerUnit) :
      UnitChange u (opDelayBlocking cs preload rep u)
  | ret (v : Word) (u : TimerUnit) : UnitChange u (u.ret v)
  | raise (e : ErrorCode) (u : TimerUnit) : UnitChange u (u.raise e)
  | clearFlag (src : Source) (u : TimerUnit) : UnitChange u { u with regs := u.regs.clearFlag src }
  | pwmService (u : TimerUnit) : UnitChange u (pwmService u)
  | countOverflow (u : TimerUnit) : UnitChange u (countOverflow u)
  | logCallback (c : CallbackRef) (u : TimerUnit) : UnitChange u (logCallback c u)
  | callbackEffect (l : List CallbackRun) (u : TimerUnit) : UnitChange u { u with cbEffect := l }
  | rearm (reload : Bool) (u : TimerUnit) : UnitChange u (rearm reload u)
  | tick (u : TimerUnit) : UnitChange u (tick u)
  | btPoll (u : TimerUnit) : UnitChange u (btPoll u)
  | writePin (p : PinRef) (st : PinState) (u : TimerUnit) : UnitChange u (u.writePin p st)

/-- `t` is `s` but for changes of the addressed unit, `GIE` and the inputs of choice. -/
structure ActsOnUnit (s t : State) : Prop where
  policy : t.policy = s.policy
  before : t.before = s.before
  after : t.after = s.after
  unit : Relation.ReflTransGen UnitChange s.unit t.unit

namespace ActsOnUnit

theorem refl (s : State) : ActsOnUnit s s := ⟨rfl, rfl, rfl, .refl⟩

theorem trans {s t r : State} (h : ActsOnUnit s t) (h' : ActsOnUnit t r) : ActsOnUnit s r :=
  ⟨h'.policy.trans h.policy, h'.before.trans h.before, h'.after.trans h.after, h.unit.trans h'.unit⟩

theorem onUnit {s : State} {f : TimerUnit → TimerUnit} (h : UnitChange s.unit (f s.unit)) : ActsOnUnit s (s.onUnit f) :=
  ⟨rfl, rfl, rfl, .single h⟩

/-- The two mask operations. -/
theorem setGie (g : Bool) (s : State) : ActsOnUnit s { s with gie := g, unit := s.unit.ret 0 } :=
  ⟨rfl, rfl, rfl, .single (.ret 0 s.unit)⟩

/-! Callbacks, handlers and the dispatch. -/

theorem callbackEffect (s : State) : ActsOnUnit s (callbackEffect s) :=
  callbackEffect_keeps (P := ActsOnUnit s)
    (fun _ _ _ ho h => h.trans (onUnit (.operation ho _)))
    (fun _ h => h.trans (onUnit (.raise _ _)))
    (fun g r h => h.trans (setGie g r))
    (fun l _ h => h.trans (onUnit (.callbackEffect l _)))
    (refl s)

theorem invoke (c : CallbackRef) (s : State) : ActsOnUnit s (invoke c s) :=
  (onUnit (.logCallback c s.unit)).trans (callbackEffect _)

theorem callbackService (reload : Bool) (s : State) : ActsOnUnit s (callbackService reload s) := by
  have hcount : ActsOnUnit s (s.onUnit countOverflow) := onUnit (.countOverflow _)
  rcases callbackService_cases reload s with ⟨-, e⟩ | ⟨-, -, e⟩ | ⟨-, c, -, e⟩ <;> rw [e]
  · exact hcount
  · exact hcount.trans (onUnit (.rearm _ _))
  · exact (hcount.trans (invoke c _)).trans (onUnit (.rearm _ _))

theorem handlerBody (src : Source) (s : State) : ActsOnUnit s (handlerBody src s) := by
  rcases handlerBody_cases src s with ⟨-, -, e⟩ | ⟨-, reload, e⟩ | ⟨-, e⟩ <;> rw [e]
  · exact onUnit (.pwmService _)
  · exact callbackService reload s
  · exact refl s

theorem irqDispatch (s : State) : ActsOnUnit s (irqDispatch s) := by
  rcases irqDispatch_cases s with ⟨-, e⟩ | ⟨src, -, -, e⟩ <;> rw [e]
  · exact refl s
  · have henter : ActsOnUnit s (enterHandler src s) := ⟨rfl, rfl, rfl, .single (.clearFlag src s.unit)⟩
    have hbody := henter.trans (handlerBody src (enterHandler src s))
    exact ⟨hbody.policy, hbody.before, hbody.after, hbody.unit⟩

/-- A handler entry point issued by the host: the body, then `return`. -/
theorem handlerEntry (src : Source) {s t : State}
    (h : unlessHung s ((Machine.handlerBody src s).onUnit (TimerUnit.ret 0)) = .next t) : ActsOnUnit s t := by
  obtain ⟨-, rfl⟩ := unlessHung_next.mp h
  exact (handlerBody src s).trans (onUnit (.ret 0 _))

/-! Operations and steps. -/

theorem exec {i : Instr} {s t : State} (h : exec i s = .next t) : ActsOnUnit s t := by
  rcases exec_cases i s with ⟨op, ho, e⟩ | ⟨cs, preload, rep, -, e⟩ | ⟨-, e⟩ | ⟨-, e⟩ | ⟨-, e⟩ | ⟨-, e⟩ <;> rw [e] at h
  · cases h
    exact onUnit (.operation ho _)
  · cases h
    exact onUnit (.delayBlocking cs preload rep _)
  · cases h
    exact setGie false s
  · cases h
    exact setGie true s
  · exact handlerEntry .compareMatch h
  · exact handlerEntry .overflow h

theorem issueWord {w : Word} {s t : State} (h : issueWord w s = .next t) : ActsOnUnit s t := by
  rcases issueWord_cases w s with ⟨i, -, e⟩ | ⟨-, e⟩ <;> rw [e] at h
  · exact exec h
  · cases h
    exact onUnit (.raise _ _)

end ActsOnUnit

/-- `t` comes from `s` by addressing one unit and acting on it. -/
def ActsOnOneUnit (s t : State) : Prop :=
  ∃ s', s'.allUnits = s.allUnits ∧ s'.policy = s.policy ∧ ActsOnUnit s' t

theorem ActsOnUnit.actsOnOneUnit {s t : State} (h : ActsOnUnit s t) : ActsOnOneUnit s t := ⟨s, rfl, rfl, h⟩

theorem ActsOnUnit.of_focus {k : Nat} {s s' t : State} (h : ActsOnUnit s' t) (hf : s.focus k = some s') :
    ActsOnOneUnit s t := by
  obtain ⟨-, -, hall, -, hpol, -⟩ := focus_some hf
  exact ⟨s', hall, hpol, h⟩

theorem perform_actsOnOneUnit {a : Turn} {s t : State} (h : perform a s = .next t) : ActsOnOneUnit s t := by
  rcases perform_cases h with ⟨-, -, rfl⟩ | ⟨-, c, rest, s', -, hf, hi⟩ | ⟨k, s', -, hf, rfl⟩ | ⟨k, s', -, hf, rfl⟩ |
    ⟨k, s', -, hf, rfl⟩ | ⟨k, p, st, s', -, hf, rfl⟩
  · exact (ActsOnUnit.refl t).actsOnOneUnit
  · have hissue : ActsOnOneUnit { s with hostQueue := rest } t := (ActsOnUnit.issueWord hi).of_focus hf
    exact hissue
  · exact (ActsOnUnit.onUnit (.tick _)).of_focus hf
  · exact (ActsOnUnit.onUnit (.btPoll _)).of_focus hf
  · exact (ActsOnUnit.irqDispatch s').of_focus hf
  · exact (ActsOnUnit.onUnit (.writePin p st _)).of_focus hf

theorem step_actsOnOneUnit {s t : State} (h : step s = .next t) : ActsOnOneUnit s t := by
  rcases step_cases s with ⟨e, -⟩ | ⟨a, r, -, hr, e⟩ <;> rw [e] at h
  · cases h
    exact (ActsOnUnit.refl s).actsOnOneUnit
  · obtain ⟨hunits, hpolicy⟩ : r.allUnits = s.allUnits ∧ r.policy = s.policy := by rcases hr with rfl | rfl <;> simp
    obtain ⟨s', hall, hpol, hact⟩ := perform_actsOnOneUnit h
    exact ⟨s', hall.trans hunits, hpol.trans hpolicy, hact⟩

/-! The parameters of a unit. -/

/-- No operation that ends in a result changes the parameters. -/
theorem plainOp_cfg {i : Instr} {op : TimerUnit → OpResult} (ho : plainOp i = some op) {u u' : TimerUnit} {v : Word}
    (h : op u = .ok (u', v)) : u'.cfg = u.cfg := by
  have hwrite : ∀ {idx b}, opWrite idx b u = .ok (u', v) → u'.cfg = u.cfg := by
    intro idx b hw
    obtain ⟨r, rfl, -⟩ := memWrite_ok (opWrite_ok hw).2
    rfl
  cases i <;> simp only [plainOp, Option.some.injEq, reduceCtorEq] at ho <;> subst ho
  case planDelay => rw [(opPlanDelay_ok h).1]
  case pwmConfigure =>
    obtain ⟨-, f, -, -, rfl⟩ := opPwmConfigure_ok h
    rfl
  case pwmStart =>
    obtain ⟨-, -, c, -, ⟨-, rfl⟩ | ⟨-, a, b, -, rfl⟩⟩ := opPwmStart_ok h <;> rfl
  case schedule =>
    obtain ⟨-, p, -, rfl⟩ := opSchedule_ok h
    rfl
  case regRead => rw [(opRegRead_ok h).1]
  case setDivider => exact hwrite h
  case setPreload => exact hwrite h
  case clearOvf => exact hwrite h
  case regWrite => exact hwrite h
  case pwmStop => cases h; rfl
  case cancel => cases h; rfl
  case readOvf => cases h; rfl

theorem opDelayBlocking_cfg (cs : ClockCode) (preload : Byte) (rep : Word32) (u : TimerUnit) :
    (opDelayBlocking cs preload rep u).cfg = u.cfg := by
  rcases opDelayBlocking_cases cs preload rep u with ⟨d, -, -, -, e⟩ | ⟨-, e⟩ <;> rw [e] <;> rfl

theorem pwmService_cfg (u : TimerUnit) : (pwmService u).cfg = u.cfg := by
  rcases pwmService_cases u with e | ⟨c, q, -, -, -, e⟩ <;> rw [e]
  rfl

theorem btPoll_cfg (u : TimerUnit) : (btPoll u).cfg = u.cfg := by
  rcases btPoll_cases u with ⟨-, e⟩ | ⟨-, -, e⟩ | ⟨-, -, e⟩ <;> rw [e]
  rfl

theorem rearm_cfg (reload : Bool) (u : TimerUnit) : (rearm reload u).cfg = u.cfg := by
  unfold rearm
  dsimp only
  split
  · split <;> rfl
  · rfl

theorem UnitChange.cfg {u u' : TimerUnit} (h : UnitChange u u') : u'.cfg = u.cfg := by
  cases h with
  | operation ho =>
    rename_i op
    rcases finish_cases op u with ⟨w, v, hop, e⟩ | ⟨err, -, e⟩ <;> rw [e]
    · exact (TimerUnit_ret_cfg v w).trans (plainOp_cfg ho hop)
    · rfl
  | delayBlocking cs preload rep => exact opDelayBlocking_cfg cs preload rep u
  | pwmService => exact pwmService_cfg u
  | rearm reload => exact rearm_cfg reload u
  | btPoll => exact btPoll_cfg u
  | _ => rfl

/-- A chain of changes keeps a unit's parameters. -/
theorem cfg_of_changes {u u' : TimerUnit} (h : Relation.ReflTransGen UnitChange u u') : u'.cfg = u.cfg := by
  induction h with
  | refl => rfl
  | tail _ hc ih => exact hc.cfg.trans ih

theorem ActsOnUnit.params {s t : State} (h : ActsOnUnit s t) : t.params = s.params := by
  simp only [State.params, State.allUnits, List.map_append, List.map_cons, h.policy, h.before, h.after,
    cfg_of_changes h.unit]

/-- Settles O17: a step changes one unit, by changes each of which keeps its parameters. -/
theorem stepKeepsTheParameters : Obligations.StepKeepsTheParameters := by
  intro s t h
  obtain ⟨s', hall, hpol, hact⟩ := step_actsOnOneUnit h
  calc t.params = s'.params := hact.params
    _ = s.params := by simp only [State.params, hall, hpol]

end Sys2Proof.Machine
end

section
/-! The invariants of Safety.lean are kept by every step. What the operations of `plainOp` leave is said once
(`PlainLeaves`); each unit change keeps the invariants of its unit. Between an overflow that is counted and the re-arming
that follows it the count of a schedule may stand at its target, so there the invariants hold of the unit with its count
started again (`InService`). -/

namespace Sys2Proof.Machine

/-! What a plain operation leaves. -/

/-- The unit with its count started again. -/
def TimerUnit.restart (u : TimerUnit) : TimerUnit := { u with cb := { u.cb with count := 0 } }

/-- The shapes of the unit an operation of `plainOp` leaves where it raises no error. `CANCEL` is what a one-shot does at
its end (44_callback_timer.md R210) with the count started again. -/
inductive PlainLeaves (i : Instr) (u : TimerUnit) : TimerUnit → Prop
  | registers (r : Regs) (hcs : r.cs = u.regs.cs ∨ codeSupported u.cfg r.cs = true)
      (hcompare : (∀ value, i ≠ .regWrite 2 value) → r.compare = u.regs.compare) : PlainLeaves i u { u with regs := r }
  | configure (pin : PinRef) (period : Rat) (hperiod : 0 < period) :
      PlainLeaves i u (({ u with
        pwm := { u.pwm with config := some { pin := pin, periodMs := period } }
        regs := { u.regs with ovfIe := true } } : TimerUnit).configurePin pin .output)
  | constant (c : PwmConfig) (hc : u.pwm.config = some c) (duty : Byte) : PlainLeaves i u (startConstant c.pin duty u)
  | waveform (c : PwmConfig) (hc : u.pwm.config = some c) {duty : Byte} {a b : TimerPlan}
      (hab : phasePlans u.cfg c.periodMs duty = .ok (a, b)) : PlainLeaves i u (startWaveform c.pin a b u)
  | schedule (periodic : Bool) (callback : CallbackRef) {x : Option Rat} {p : TimerPlan}
      (hp : planDelay u.cfg x = .ok p) : PlainLeaves i u (armSchedule periodic callback p u)
  | cancel : PlainLeaves i u (completeOneShot u.restart)

/-- An operation that leaves the unit as it was. -/
theorem PlainLeaves.same (i : Instr) (u : TimerUnit) : PlainLeaves i u u := .registers u.regs (.inl rfl) fun _ => rfl

/-- A register-space write, by an instruction that is a `REG_WRITE` to index 2 where the index is 2. -/
theorem PlainLeaves.of_opWrite {i : Instr} {idx : RegIndex} {b : Byte} {u u' : TimerUnit} {v : Word}
    (hidx : (∀ value, i ≠ .regWrite 2 value) → idx ≠ 2) (h : opWrite idx b u = .ok (u', v)) : PlainLeaves i u u' := by
  have hw := (opWrite_ok h).2
  obtain ⟨r, rfl, hcs⟩ := memWrite_ok hw
  exact .registers r (hcs.imp_right And.right) fun hi => memWrite_compare (hidx hi) hw

theorem plainOp_leaves {i : Instr} {op : TimerUnit → OpResult} (ho : plainOp i = some op) {u u' : TimerUnit} {v : Word}
    (h : op u = .ok (u', v)) : PlainLeaves i u u' := by
  cases i <;> simp only [plainOp, Option.some.injEq, reduceCtorEq] at ho <;> subst ho
  case planDelay =>
    rw [(opPlanDelay_ok h).1]
    exact .same _ u
  case pwmConfigure =>
    obtain ⟨-, f, -, hf, rfl⟩ := opPwmConfigure_ok h
    exact .configure _ _ (one_div_pos.mpr hf)
  case pwmStart =>
    obtain ⟨-, -, c, hc, ⟨-, rfl⟩ | ⟨-, a, b, hab, rfl⟩⟩ := opPwmStart_ok h
    · exact .constant c hc _
    · exact .waveform c hc hab
  case pwmStop =>
    cases h
    exact .registers _ (.inl rfl) fun _ => rfl
  case schedule =>
    obtain ⟨-, p, hp, rfl⟩ := opSchedule_ok h
    exact .schedule _ _ hp
  case cancel =>
    cases h
    exact .cancel
  case setDivider => exact .of_opWrite (fun _ => by decide) h
  case setPreload => exact .of_opWrite (fun _ => by decide) h
  case readOvf =>
    cases h
    exact .same _ u
  case clearOvf => exact .of_opWrite (fun _ => by decide) h
  case regRead =>
    rw [(opRegRead_ok h).1]
    exact .same _ u
  case regWrite idx value =>
    refine .of_opWrite (fun hi => ?_) h
    rintro rfl
    exact hi value rfl

theorem PlainLeaves.bt {i : Instr} {u u' : TimerUnit} (h : PlainLeaves i u u') : u'.bt = u.bt := by cases h <;> rfl

theorem PlainLeaves.log {i : Instr} {u u' : TimerUnit} (h : PlainLeaves i u u') : u'.cb.log = u.cb.log := by
  cases h <;> rfl

theorem PlainLeaves.compare {i : Instr} {u u' : TimerUnit} (h : PlainLeaves i u u')
    (hi : ∀ value, i ≠ .regWrite 2 value) : u'.regs.compare = u.regs.compare := by
  cases h with
  | registers r _ hcompare => exact hcompare hi
  | _ => rfl

/-! The invariants of one unit, change by change. -/

/-- What the planner returns has a divider of the set and at least one overflow to wait for. -/
theorem planDelay_divider_and_overflows {cfg : UnitConfig} {x : Option Rat} {p : TimerPlan} (hw : cfg.wellFormed)
    (h : planDelay cfg x = .ok p) : p.divider ∈ cfg.dividers ∧ 0 < p.overflowsToWait := by
  cases x with
  | none => cases h
  | some x =>
    obtain ⟨-, hd, hrep, -⟩ := planDelay_ok hw h
    exact ⟨hd, (TimerPlan.overflowsToWait_spec hrep).2⟩

/-- The two plans of `PWM_START` are ones the engine may hold. -/
theorem phasePlans_planOk {cfg : UnitConfig} {t : Rat} {duty : Byte} {a b : TimerPlan} (hw : cfg.wellFormed)
    (h : phasePlans cfg t duty = .ok (a, b)) : PhasePlanOk cfg a ∧ PhasePlanOk cfg b := by
  obtain ⟨-, -, ha, hb, ra, rb⟩ := phasePlans_ok h
  exact ⟨⟨(planDelay_divider_and_overflows hw ha).1, ra⟩, ⟨(planDelay_divider_and_overflows hw hb).1, rb⟩⟩

theorem callbackOf_ne_null (c : CallbackRef) : callbackOf c ≠ some 0 := by
  unfold callbackOf
  split <;> simp_all

theorem completeOneShot_owner_ne_callback (u : TimerUnit) : (completeOneShot u).owner ≠ .callback := by
  unfold completeOneShot
  split <;> simp [*]

theorem owner_pwm_of_completeOneShot {u : TimerUnit} (h : (completeOneShot u).owner = .pwm) : u.owner = .pwm := by
  unfold completeOneShot at h
  split at h <;> simp_all

/-- Re-arming starts the count again, and then reloads the counter or ends the schedule. -/
theorem rearm_eq (reload : Bool) (u : TimerUnit) :
    rearm reload u =
      if u.cb.periodic then
        if reload then { u.restart with regs := { u.regs with count := u.cb.preload } } else u.restart
      else completeOneShot u.restart := rfl

/-- A unit re-armed: a register write that leaves `CS` and `COMPARE`, or the end of a one-shot. -/
theorem rearm_cases (reload : Bool) (u : TimerUnit) :
    (∃ r : Regs, r.cs = u.regs.cs ∧ r.compare = u.regs.compare ∧ rearm reload u = { u.restart with regs := r }) ∨
    rearm reload u = completeOneShot u.restart := by
  rw [rearm_eq]
  split
  · split
    · exact .inl ⟨{ u.regs with count := u.cb.preload }, rfl, rfl, rfl⟩
    · exact .inl ⟨u.regs, rfl, rfl, rfl⟩
  · exact .inr rfl

/-- The code of a divider of the set may stand in `CS`. -/
theorem clock_of_mem {cfg : UnitConfig} {d : Divider} (h : d ∈ cfg.dividers) :
    ∀ d', divOf d.code = some d' → d' ∈ cfg.dividers := by
  intro d' hd
  rw [divOf_code] at hd
  cases hd
  exact h

/-- The stopped clock may stand in `CS`. -/
theorem clock_of_stopped (cfg : UnitConfig) : ∀ d, divOf 0 = some d → d ∈ cfg.dividers := by
  intro d hd
  rw [divOf_eq_none.mpr rfl] at hd
  cases hd

namespace UnitInv

variable {u u' : TimerUnit} {i : Instr}

theorem withRegs (h : UnitInv u) {r : Regs} (hr : ∀ d, divOf r.cs = some d → d ∈ u.cfg.dividers) :
    UnitInv { u with regs := r } := { h with clock := hr }

theorem ret (h : UnitInv u) (v : Word) : UnitInv (u.ret v) := { h with }

theorem raise (h : UnitInv u) (e : ErrorCode) : UnitInv (u.raise e) := { h with }

theorem writePin (h : UnitInv u) (p : PinRef) (st : PinState) : UnitInv (u.writePin p st) := { h with }

theorem clearFlag (h : UnitInv u) (src : Source) : UnitInv { u with regs := u.regs.clearFlag src } :=
  h.withRegs (by cases src <;> exact h.clock)

theorem tick (h : UnitInv u) : UnitInv (tick u) := h.withRegs h.clock

/-- An operation issued while no blocking delay is active keeps the invariants. -/
theorem plainLeaves (h : UnitInv u) (hidle : u.bt.active = false) (hl : PlainLeaves i u u') : UnitInv u' := by
  have hblocking : ∀ {q : Prop}, u.bt.active = true → q := fun ha => absurd ha (by simp [hidle])
  cases hl with
  | registers r hcs =>
    refine h.withRegs ?_
    rcases hcs with e | hs
    · rw [e]
      exact h.clock
    · exact codeSupported_iff.mp hs
  | configure pin period hperiod =>
    exact { h with
      plansConfigured := fun _ => rfl
      periodPositive := fun c hc => by cases hc; exact hperiod
      pwmConfigured := fun _ => rfl }
  | constant c hc duty =>
    exact { h with
      clock := clock_of_stopped u.cfg
      plansTogether := rfl
      onPlanOk := nofun
      offPlanOk := nofun
      plansConfigured := nofun
      blocking := hblocking
      callback := nofun
      pwmConfigured := fun _ => Option.isSome_of_eq_some hc }
  | @waveform c hc duty a b hab =>
    obtain ⟨ha, hb⟩ := phasePlans_planOk h.params hab
    exact { h with
      clock := clock_of_mem ha.1
      plansTogether := rfl
      onPlanOk := fun p hp => by cases hp; exact ha
      offPlanOk := fun p hp => by cases hp; exact hb
      plansConfigured := fun _ => Option.isSome_of_eq_some hc
      blocking := hblocking
      callback := nofun
      pwmConfigured := fun _ => Option.isSome_of_eq_some hc }
  | @schedule periodic callback x p hp =>
    obtain ⟨hd, hwait⟩ := planDelay_divider_and_overflows h.params hp
    exact { h with
      clock := clock_of_mem hd
      blocking := hblocking
      callback := fun _ => hwait
      pwmConfigured := nofun
      callbackNamed := callbackOf_ne_null callback }
  | cancel =>
    exact { h with
      blocking := hblocking
      callback := fun ho => absurd ho (completeOneShot_owner_ne_callback _)
      pwmConfigured := fun ho => h.pwmConfigured (owner_pwm_of_completeOneShot ho)
      callbackNamed := nofun }

theorem finish (h : UnitInv u) (hidle : u.bt.active = false) {op : TimerUnit → OpResult} (ho : plainOp i = some op) :
    UnitInv (finish op u) := by
  rcases finish_cases op u with ⟨w, v, hop, e⟩ | ⟨err, -, e⟩ <;> rw [e]
  · exact (h.plainLeaves hidle (plainOp_leaves ho hop)).ret v
  · exact h.raise err

theorem opDelayBlocking (h : UnitInv u) (cs : ClockCode) (preload : Byte) (rep : Word32) :
    UnitInv (opDelayBlocking cs preload rep u) := by
  rcases opDelayBlocking_cases cs preload rep u with ⟨d, -, hd, hrep, e⟩ | ⟨-, e⟩ <;> rw [e]
  · have hwait := (TimerPlan.overflowsToWait_spec (p := ⟨d, preload, rep⟩) hrep).2
    exact { h with
      clock := clock_of_mem hd
      blocking := fun _ => ⟨rfl, fun hz : TimerPlan.overflowsToWait _ = 0 => by simp [hz] at hwait⟩
      callback := nofun
      pwmConfigured := nofun }
  · exact h.raise _

theorem btPoll (h : UnitInv u) : UnitInv (btPoll u) := by
  rcases btPoll_cases u with ⟨-, e⟩ | ⟨-, -, e⟩ | ⟨-, hlast, e⟩ <;> rw [e]
  · exact h
  · exact { h with
      clock := clock_of_stopped u.cfg
      blocking := nofun
      callback := nofun
      pwmConfigured := nofun }
  · exact { h with blocking := fun ha => ⟨(h.blocking ha).1, fun hz => hlast (by simpa using sub_eq_zero.mp hz)⟩ }

theorem planOf (h : UnitInv u) {phase : Phase} {q : TimerPlan} (hq : u.pwm.planOf phase = some q) :
    PhasePlanOk u.cfg q := by
  cases phase
  · exact h.onPlanOk q hq
  · exact h.offPlanOk q hq

theorem pwmService (h : UnitInv u) : UnitInv (pwmService u) := by
  rcases pwmService_cases u with e | ⟨c, q, -, -, hq, e⟩ <;> rw [e]
  · exact h
  · exact { h with clock := clock_of_mem (h.planOf hq).1 }

/-- An overflow counted short of the target. -/
theorem countOverflow (h : UnitInv u) (hn : u.cb.count + 1 ≠ u.cb.target) : UnitInv (countOverflow u) :=
  { h with
    callback := fun ho => by
      have hlt := h.callback ho
      show u.cb.count + 1 < u.cb.target
      bv_omega }

/-- A unit whose schedule owns the counter is in no blocking delay. -/
theorem idle_of_callback (h : UnitInv u) (ho : u.owner = .callback) : u.bt.active = false := by
  by_contra ha
  have hb := (h.blocking (by simpa using ha)).1
  rw [ho] at hb
  cases hb

end UnitInv

/-! The callback service. -/

/-- A unit inside the callback service: sound once its count starts again, and in no blocking delay. -/
structure InService (u : TimerUnit) : Prop where
  inv : UnitInv u.restart
  idle : u.bt.active = false

theorem UnitInv.restart {u : TimerUnit} (h : UnitInv u) : UnitInv u.restart :=
  { h with
    callback := fun ho => by
      have hlt := h.callback ho
      show 0 < u.cb.target
      bv_omega }

/-- No operation reads the count of a schedule. -/
theorem PlainLeaves.restart {i : Instr} {u u' : TimerUnit} (h : PlainLeaves i u u') :
    PlainLeaves i u.restart u'.restart := by
  cases h with
  | registers r hcs hcompare => exact .registers (u := u.restart) r hcs hcompare
  | configure pin period hperiod => exact .configure (u := u.restart) pin period hperiod
  | constant c hc duty => exact .constant (u := u.restart) c hc duty
  | waveform c hc hab => exact .waveform (u := u.restart) c hc hab
  | schedule periodic callback hp => exact .schedule (u := u.restart) periodic callback hp
  | cancel => exact .cancel (u := u.restart)

namespace InService

variable {u : TimerUnit}

theorem ret (h : InService u) (v : Word) : InService (u.ret v) := ⟨h.inv.ret v, h.idle⟩

theorem raise (h : InService u) (e : ErrorCode) : InService (u.raise e) := ⟨h.inv.raise e, h.idle⟩

theorem finish (h : InService u) {i : Instr} {op : TimerUnit → OpResult} (ho : plainOp i = some op) :
    InService (finish op u) := by
  rcases finish_cases op u with ⟨w, v, hop, e⟩ | ⟨err, -, e⟩ <;> rw [e]
  · have hl := plainOp_leaves ho hop
    have hw : InService w := ⟨h.inv.plainLeaves h.idle hl.restart, by rw [hl.bt]; exact h.idle⟩
    exact hw.ret v
  · exact h.raise err

theorem callbackEffect {s : State} (h : InService s.unit) : InService (callbackEffect s).unit :=
  callbackEffect_keeps (P := fun r => InService r.unit)
    (fun _ _ _ ho hr => hr.finish ho)
    (fun _ hr => hr.raise _)
    (fun _ _ hr => hr.ret 0)
    (fun _ _ hr => ⟨{ hr.inv with }, hr.idle⟩)
    h

theorem invoke (c : CallbackRef) {s : State} (h : InService s.unit) : InService (invoke c s).unit :=
  callbackEffect (s := s.onUnit (logCallback c)) ⟨{ h.inv with }, h.idle⟩

theorem rearm (reload : Bool) (h : InService u) : UnitInv (rearm reload u) := by
  rcases rearm_cases reload u with ⟨r, hcs, -, e⟩ | e <;> rw [e]
  · exact h.inv.withRegs (by rw [hcs]; exact h.inv.clock)
  · exact h.inv.plainLeaves h.idle (.cancel (i := .cancel) (u := u.restart))

end InService

theorem rearm_bt (reload : Bool) (u : TimerUnit) : (rearm reload u).bt = u.bt := by
  rcases rearm_cases reload u with ⟨r, -, -, e⟩ | e <;> rw [e] <;> rfl

/-- What an interrupt's service does to the invariants of its unit: it keeps them and starts no blocking delay. -/
structure ServedFrom (u u' : TimerUnit) : Prop where
  inv : UnitInv u'
  active : u'.bt.active = u.bt.active

theorem callbackService_served (reload : Bool) {s : State} (h : UnitInv s.unit) (ho : s.unit.owner = .callback) :
    ServedFrom s.unit (callbackService reload s).unit := by
  have hidle := h.idle_of_callback ho
  have hrearm : ∀ {r : State}, InService r.unit → ServedFrom s.unit (r.onUnit (rearm reload)).unit := fun hr =>
    ⟨hr.rearm reload, by rw [State_onUnit_unit, rearm_bt, hr.idle, hidle]⟩
  have hcounted : InService (s.onUnit countOverflow).unit := ⟨{ h.restart with }, hidle⟩
  rcases callbackService_cases reload s with ⟨hn, e⟩ | ⟨-, -, e⟩ | ⟨-, c, -, e⟩ <;> rw [e]
  · exact ⟨h.countOverflow hn, rfl⟩
  · exact hrearm hcounted
  · exact hrearm (hcounted.invoke c)

theorem pwmService_bt (u : TimerUnit) : (pwmService u).bt = u.bt := by
  rcases pwmService_cases u with e | ⟨c, q, -, -, -, e⟩ <;> rw [e]
  rfl

theorem active_of_btPoll {u : TimerUnit} (h : (btPoll u).bt.active = true) : u.bt.active = true := by
  rcases btPoll_cases u with ⟨-, e⟩ | ⟨-, -, e⟩ | ⟨-, -, e⟩ <;> rw [e] at h
  · exact h
  · cases h
  · exact h

theorem handlerBody_served (src : Source) {s : State} (h : UnitInv s.unit) :
    ServedFrom s.unit (handlerBody src s).unit := by
  rcases handlerBody_cases src s with ⟨-, -, e⟩ | ⟨ho, reload, e⟩ | ⟨-, e⟩ <;> rw [e]
  · exact ⟨h.pwmService, by rw [State_onUnit_unit, pwmService_bt]⟩
  · exact callbackService_served reload h ho
  · exact ⟨h, rfl⟩

theorem irqDispatch_served {s : State} (h : UnitInv s.unit) : ServedFrom s.unit (irqDispatch s).unit := by
  rcases irqDispatch_cases s with ⟨-, e⟩ | ⟨src, -, -, e⟩ <;> rw [e]
  · exact ⟨h, rfl⟩
  · have hbody := handlerBody_served src (s := enterHandler src s) (h.clearFlag src)
    exact ⟨hbody.inv, hbody.active⟩

/-! The host's operations and the steps. -/

theorem exec_unitInv {i : Instr} {s t : State} (h : UnitInv s.unit) (hidle : s.unit.bt.active = false)
    (he : exec i s = .next t) : UnitInv t.unit := by
  have hentry : ∀ src, unlessHung s ((handlerBody src s).onUnit (TimerUnit.ret 0)) = .next t → UnitInv t.unit := by
    intro src hr
    obtain ⟨-, rfl⟩ := unlessHung_next.mp hr
    exact (handlerBody_served src h).inv.ret 0
  rcases exec_cases i s with ⟨op, ho, e⟩ | ⟨cs, preload, rep, -, e⟩ | ⟨-, e⟩ | ⟨-, e⟩ | ⟨-, e⟩ | ⟨-, e⟩ <;>
    rw [e] at he
  · cases he
    exact h.finish hidle ho
  · cases he
    exact h.opDelayBlocking cs preload rep
  · cases he
    exact h.ret 0
  · cases he
    exact h.ret 0
  · exact hentry .compareMatch he
  · exact hentry .overflow he

theorem issueWord_unitInv {w : Word} {s t : State} (h : UnitInv s.unit) (hidle : s.unit.bt.active = false)
    (hi : issueWord w s = .next t) : UnitInv t.unit := by
  rcases issueWord_cases w s with ⟨i, -, e⟩ | ⟨-, e⟩ <;> rw [e] at hi
  · exact exec_unitInv h hidle hi
  · cases hi
    exact h.raise _

/-- Acting on the addressed unit puts another in its place. -/
theorem ActsOnUnit.allUnits {s t : State} (h : ActsOnUnit s t) : t.allUnits = (s.onUnit fun _ => t.unit).allUnits := by
  rw [State_onUnit_allUnits, State.allUnits, h.before, h.after]

namespace Inv

variable {s s' t : State}

/-- The invariants speak of the units alone. -/
theorem of_allUnits (h : Inv s) (e : s'.allUnits = s.allUnits) : Inv s' := ⟨e ▸ h.units, e ▸ h.oneDelay⟩

theorem of_focus {k : Nat} (h : Inv s) (hf : s.focus k = some s') : Inv s' := h.of_allUnits (focus_some hf).2.2.1

theorem unit (h : Inv s) : UnitInv s.unit := h.units _ s.unit_mem

/-- A change of the addressed unit that keeps its invariants, and starts a blocking delay only where no unit is in one. -/
theorem of_actsOnUnit (h : Inv s) (ha : ActsOnUnit s t) (hu : UnitInv t.unit)
    (hdelay : t.unit.bt.active = true → s.unit.bt.active = true ∨ s.hostBlocked = false) : Inv t := by
  refine ⟨fun u hm => ?_, ?_⟩
  · rw [ha.allUnits] at hm
    rcases mem_onUnit hm with rfl | hm
    · exact hu
    · exact h.units u hm
  · have hone := h.oneDelay
    rw [State.allUnits, List.countP_append, List.countP_cons] at hone
    rw [ha.allUnits, State_onUnit_allUnits, List.countP_append, List.countP_cons]
    by_cases hact : t.unit.bt.active = true
    · rw [if_pos hact]
      rcases hdelay hact with hs | hb
      · rwa [if_pos hs] at hone
      · have hnone : s.allUnits.countP (fun u => u.bt.active) = 0 :=
          List.countP_eq_zero.mpr fun u hm => by simp [hostBlocked_false.mp hb u hm]
        rw [State.allUnits, List.countP_append, List.countP_cons] at hnone
        omega
    · rw [if_neg hact]
      omega

end Inv

/-- One step of an agent keeps the invariants, the host's where no blocking delay is active. -/
theorem perform_inv {a : Turn} {s t : State} (h : Inv s) (hhost : a = .host → s.hostBlocked = false)
    (hp : perform a s = .next t) : Inv t := by
  rcases perform_cases hp with ⟨-, -, rfl⟩ | ⟨rfl, c, rest, s', -, hf, hi⟩ | ⟨k, s', -, hf, rfl⟩ | ⟨k, s', -, hf, rfl⟩ |
    ⟨k, s', -, hf, rfl⟩ | ⟨k, p, st, s', -, hf, rfl⟩
  · exact h
  · have hs' : Inv s' := (h.of_allUnits (s' := { s with hostQueue := rest }) rfl).of_focus hf
    have hfree : s'.hostBlocked = false := by
      rw [State.hostBlocked, (focus_some hf).2.2.1]
      exact hhost rfl
    have hidle := hostBlocked_false.mp hfree _ s'.unit_mem
    exact hs'.of_actsOnUnit (.issueWord hi) (issueWord_unitInv hs'.unit hidle hi) fun _ => .inr hfree
  · have hs' := h.of_focus hf
    exact hs'.of_actsOnUnit (.onUnit (.tick _)) hs'.unit.tick .inl
  · have hs' := h.of_focus hf
    exact hs'.of_actsOnUnit (.onUnit (.btPoll _)) hs'.unit.btPoll fun ha => .inl (active_of_btPoll ha)
  · have hs' := h.of_focus hf
    have hserved := irqDispatch_served hs'.unit
    exact hs'.of_actsOnUnit (.irqDispatch s') hserved.inv fun ha => .inl (hserved.active ▸ ha)
  · have hs' := h.of_focus hf
    exact hs'.of_actsOnUnit (.onUnit (.writePin p st _)) (hs'.unit.writePin p st) .inl

/-- Settles O16: each change of a unit keeps its invariants, the callback service through those of the unit with its
count started again, and the host issues nothing while a blocking delay is active. -/
theorem stepKeepsTheInvariants : Obligations.StepKeepsTheInvariants := by
  intro s t h hstep
  rcases step_cases s with ⟨e, -⟩ | ⟨a, r, ha, hr, e⟩ <;> rw [e] at hstep
  · cases hstep
    exact h
  · have hunits : r.allUnits = s.allUnits := by rcases hr with rfl | rfl <;> simp
    refine perform_inv (h.of_allUnits hunits) (fun hhost => ?_) hstep
    subst hhost
    rw [State.hostBlocked, hunits]
    exact hostBlocked_false.mpr (allowed_iff.mp ha).1.2

/-! The state after reset. -/

theorem unitInv_reset {cfg : UnitConfig} (h : cfg.wellFormed) : UnitInv (TimerUnit.reset cfg) where
  params := h
  clock := clock_of_stopped cfg
  plansTogether := rfl
  onPlanOk := nofun
  offPlanOk := nofun
  plansConfigured := nofun
  periodPositive := nofun
  blocking := nofun
  callback := nofun
  pwmConfigured := nofun
  callbackNamed := nofun

theorem default_wellFormed : Config.default.wellFormed := by decide

/-- Settles O15: reset leaves one unit, with nothing running, stored or owned. -/
theorem resetSatisfiesTheInvariants : Obligations.ResetSatisfiesTheInvariants where
  units u hu := by
    obtain rfl : u = TimerUnit.reset Config.default := List.mem_singleton.mp hu
    exact unitInv_reset default_wellFormed
  oneDelay := by decide

/-- Every pin is an input at a low level after reset. -/
theorem reset_pin (cfg : UnitConfig) (p : PinRef) : (TimerUnit.reset cfg).pin p = ⟨.input, .low⟩ := by
  simp [TimerUnit.pin, TimerUnit.reset]

/-- A unit after reset has no eligible source. -/
theorem reset_not_eligible (gie : Bool) (cfg : UnitConfig) (src : Source) :
    eligible gie (TimerUnit.reset cfg) src = false := by cases src <;> rfl

/-- The system after reset has the one unit 0, whatever the host has to issue. -/
theorem reset_unit {q : List Command} {k : Nat} {u : TimerUnit}
    (h : ({ State.reset with hostQueue := q } : State).allUnits[k]? = some u) : u = TimerUnit.reset Config.default :=
  List.mem_singleton.mp (List.mem_of_getElem? h)

/-- Settles O14: with the counter stopped, no source eligible and no delay active, each step but the host's and a pin
write finds its condition false. -/
theorem resetStateIsTheSpecs : Obligations.ResetStateIsTheSpecs := by
  refine ⟨rfl, rfl, rfl, rfl, rfl, rfl, rfl, reset_pin _, fun q a h => ?_⟩
  cases a with
  | host => exact .inl ⟨rfl, h.1⟩
  | tick k =>
    obtain ⟨u, hu, hcs⟩ := h
    rw [reset_unit hu] at hcs
    exact absurd rfl hcs
  | poll k =>
    obtain ⟨u, hu, hact, -⟩ := h
    rw [reset_unit hu] at hact
    cases hact
  | dispatch k =>
    obtain ⟨u, hu, src, hsrc⟩ := h
    rw [reset_unit hu, reset_not_eligible] at hsrc
    cases hsrc
  | pinWrite k p st =>
    obtain rfl : k = 0 := Nat.lt_one_iff.mp h
    exact .inr ⟨p, st, rfl⟩

end Sys2Proof.Machine
end

section
/-! Frames: what operations, handlers and steps leave alone of the callback log, of `GIE` and of `COMPARE`. -/

namespace Sys2Proof.Machine

/-! The callback log. -/

/-- A change of a unit leaves its callback log or appends to it. -/
theorem UnitChange.log_prefix {u u' : TimerUnit} (h : UnitChange u u') : u.cb.log <+: u'.cb.log := by
  have same : ∀ {w : TimerUnit}, w.cb.log = u.cb.log → u.cb.log <+: w.cb.log := fun e => e ▸ List.prefix_rfl
  cases h with
  | @operation i op ho =>
    rcases finish_cases op u with ⟨w, v, hop, e⟩ | ⟨err, -, e⟩ <;> rw [e]
    · exact same (plainOp_leaves ho hop).log
    · exact same rfl
  | delayBlocking cs preload rep =>
    rcases opDelayBlocking_cases cs preload rep u with ⟨d, -, -, -, e⟩ | ⟨-, e⟩ <;> rw [e] <;> exact same rfl
  | pwmService =>
    rcases pwmService_cases u with e | ⟨c, q, -, -, -, e⟩ <;> rw [e]
    exact same rfl
  | logCallback c => exact List.prefix_append _ _
  | rearm reload =>
    rcases rearm_cases reload u with ⟨r, -, -, e⟩ | e <;> rw [e] <;> exact same rfl
  | btPoll =>
    rcases btPoll_cases u with ⟨-, e⟩ | ⟨-, -, e⟩ | ⟨-, -, e⟩ <;> rw [e]
    exact same rfl
  | _ => exact same rfl

theorem log_prefix_of_changes {u u' : TimerUnit} (h : Relation.ReflTransGen UnitChange u u') :
    u.cb.log <+: u'.cb.log := by
  induction h with
  | refl => exact List.prefix_rfl
  | tail _ hc ih => exact ih.trans hc.log_prefix

/-- Acting on the addressed unit appends to logs only. -/
theorem ActsOnUnit.log_prefix {s t : State} (h : ActsOnUnit s t) {k : Nat} {u : TimerUnit}
    (hu : s.allUnits[k]? = some u) : ∃ u', t.allUnits[k]? = some u' ∧ u.cb.log <+: u'.cb.log := by
  rw [h.allUnits, onUnit_getElem?]
  split
  · subst k
    rw [State.allUnits_selected] at hu
    cases hu
    exact ⟨_, rfl, log_prefix_of_changes h.unit⟩
  · exact ⟨u, hu, List.prefix_rfl⟩

/-- Settles O19: a step is a chain of changes of one unit, each of which leaves the log or appends to it. -/
theorem stepOnlyAppendsToTheCallbackLog : Obligations.StepOnlyAppendsToTheCallbackLog := by
  intro s t k u h hu
  obtain ⟨s', hall, -, hact⟩ := step_actsOnOneUnit h
  exact hact.log_prefix (hall ▸ hu)

/-! Handlers under the default CALLBACK_EFFECT. -/

theorem pwmService_compare (u : TimerUnit) : (pwmService u).regs.compare = u.regs.compare := by
  rcases pwmService_cases u with e | ⟨c, q, -, -, -, e⟩ <;> rw [e]
  rfl

theorem rearm_compare (reload : Bool) (u : TimerUnit) : (rearm reload u).regs.compare = u.regs.compare := by
  rcases rearm_cases reload u with ⟨r, -, hcompare, e⟩ | e <;> rw [e]
  · exact hcompare
  · rfl

theorem serviceDefault_compare (reload : Bool) (u : TimerUnit) :
    (serviceDefault reload u).regs.compare = u.regs.compare := by
  unfold serviceDefault
  split
  · rw [rearm_compare]
    split <;> rfl
  · rfl

/-- A handler body whose callback issues nothing changes the addressed unit alone, and not its `COMPARE`. -/
theorem handlerBody_default (src : Source) {s : State} (h : s.unit.cbEffect = []) :
    ∃ f : TimerUnit → TimerUnit, handlerBody src s = s.onUnit f ∧ (f s.unit).regs.compare = s.unit.regs.compare := by
  rcases handlerBody_cases src s with ⟨-, -, e⟩ | ⟨-, reload, e⟩ | ⟨-, e⟩
  · exact ⟨pwmService, e, pwmService_compare _⟩
  · exact ⟨serviceDefault reload, e.trans (callbackService_default reload h), serviceDefault_compare reload _⟩
  · exact ⟨id, e, rfl⟩

/-- A handler entry point the host issues, where no callback issues an operation. -/
theorem handlerEntry_default {src : Source} {s t : State} (h : s.unit.cbEffect = [])
    (he : unlessHung s ((handlerBody src s).onUnit (TimerUnit.ret 0)) = .next t) :
    t.gie = s.gie ∧ t.unit.regs.compare = s.unit.regs.compare := by
  obtain ⟨-, rfl⟩ := unlessHung_next.mp he
  obtain ⟨f, hbody, hcompare⟩ := handlerBody_default src h
  rw [hbody]
  exact ⟨rfl, hcompare⟩

/-! `GIE`. -/

theorem exec_gie {i : Instr} {s t : State} (hdefault : s.unit.cbEffect = []) (h : exec i s = .next t) :
    t.gie = if i = .irqEnable then true else if i = .irqDisable then false else s.gie := by
  rcases exec_cases i s with ⟨op, ho, e⟩ | ⟨cs, preload, rep, rfl, e⟩ | ⟨rfl, e⟩ | ⟨rfl, e⟩ | ⟨rfl, e⟩ | ⟨rfl, e⟩ <;>
    rw [e] at h
  · have henable : i ≠ .irqEnable := by rintro rfl; cases ho
    have hdisable : i ≠ .irqDisable := by rintro rfl; cases ho
    rw [if_neg henable, if_neg hdisable]
    cases h
    rfl
  · cases h
    rfl
  · cases h
    rfl
  · cases h
    rfl
  · exact (handlerEntry_default (src := .compareMatch) hdefault h).1
  · exact (handlerEntry_default (src := .overflow) hdefault h).1

/-- A dispatch finds `GIE` = 1 where it takes an interrupt, and leaves it 1. -/
theorem irqDispatch_gie (s : State) : (irqDispatch s).gie = s.gie := by
  rcases irqDispatch_cases s with ⟨-, e⟩ | ⟨src, -, heligible, e⟩ <;> rw [e]
  rw [takeInterrupt_gie, eligible_gie heligible]

/-- Settles O24: of the six shapes of an operation only the two mask operations write `GIE`, and a taken interrupt was
eligible under `GIE` = 1. -/
theorem onlyTheInterruptMaskOperationsChangeGie : Obligations.OnlyTheInterruptMaskOperationsChangeGie :=
  ⟨fun _ _ _ => exec_gie, irqDispatch_gie⟩

/-! `COMPARE`. -/

theorem opDelayBlocking_compare (cs : ClockCode) (preload : Byte) (rep : Word32) (u : TimerUnit) :
    (opDelayBlocking cs preload rep u).regs.compare = u.regs.compare := by
  rcases opDelayBlocking_cases cs preload rep u with ⟨d, -, -, -, e⟩ | ⟨-, e⟩ <;> rw [e] <;> rfl

theorem btPoll_compare (u : TimerUnit) : (btPoll u).regs.compare = u.regs.compare := by
  rcases btPoll_cases u with ⟨-, e⟩ | ⟨-, -, e⟩ | ⟨-, -, e⟩ <;> rw [e]
  rfl

theorem finish_compare {i : Instr} {op : TimerUnit → OpResult} (ho : plainOp i = some op)
    (hi : ∀ value, i ≠ .regWrite 2 value) (u : TimerUnit) : (finish op u).regs.compare = u.regs.compare := by
  rcases finish_cases op u with ⟨w, v, hop, e⟩ | ⟨err, -, e⟩ <;> rw [e]
  · exact (plainOp_leaves ho hop).compare hi
  · rfl

theorem exec_compare {i : Instr} {s t : State} (hdefault : s.unit.cbEffect = []) (hi : ∀ value, i ≠ .regWrite 2 value)
    (h : exec i s = .next t) : t.unit.regs.compare = s.unit.regs.compare := by
  rcases exec_cases i s with ⟨op, ho, e⟩ | ⟨cs, preload, rep, -, e⟩ | ⟨-, e⟩ | ⟨-, e⟩ | ⟨-, e⟩ | ⟨-, e⟩ <;> rw [e] at h
  · cases h
    exact finish_compare ho hi _
  · cases h
    exact opDelayBlocking_compare cs preload rep _
  · cases h
    rfl
  · cases h
    rfl
  · exact (handlerEntry_default (src := .compareMatch) hdefault h).2
  · exact (handlerEntry_default (src := .overflow) hdefault h).2

theorem irqDispatch_compare {s : State} (hdefault : s.unit.cbEffect = []) :
    (irqDispatch s).unit.regs.compare = s.unit.regs.compare := by
  rcases irqDispatch_cases s with ⟨-, e⟩ | ⟨src, -, -, e⟩ <;> rw [e]
  obtain ⟨f, hbody, hcompare⟩ := handlerBody_default src (s := enterHandler src s) hdefault
  have hentered : (enterHandler src s).unit.regs.compare = s.unit.regs.compare := by cases src <;> rfl
  rw [takeInterrupt, hbody]
  exact hcompare.trans hentered

/-- Settles O25: every change of a unit but a write to index 2 leaves `COMPARE`. -/
theorem onlyRegWriteChangesCompare : Obligations.OnlyRegWriteChangesCompare :=
  ⟨fun _ _ _ => exec_compare, fun u => ⟨tick_regs_compare u, btPoll_compare u⟩, fun _ => irqDispatch_compare⟩

end Sys2Proof.Machine
end

section
/-! The register space of 20_memory.md: what a read and a write of each register come to, what reading a register after
writing it returns, and the two operations `REG_READ` and `REG_WRITE` that issue them. -/

namespace Sys2Proof.Machine

/-! Register indices. -/

/-- A register index names one of the five registers, or none (20_memory.md R69). -/
theorem regIndex_cases (idx : RegIndex) : idx = 0 ∨ idx = 1 ∨ idx = 2 ∨ idx = 3 ∨ idx = 4 ∨ 4 < idx.toNat := by
  decide +revert

theorem unmappedIndex_cases {idx : RegIndex} (h : 4 < idx.toNat) : idx = 5 ∨ idx = 6 ∨ idx = 7 := by decide +revert

/-! Reads. -/

@[simp] theorem memRead_ctrl (u : TimerUnit) : memRead 0 u = .ok (0#5 ++ u.regs.cs) := rfl
@[simp] theorem memRead_count (u : TimerUnit) : memRead 1 u = .ok u.regs.count := rfl
@[simp] theorem memRead_compare (u : TimerUnit) : memRead 2 u = .ok u.regs.compare := rfl
@[simp] theorem memRead_flags (u : TimerUnit) :
    memRead 3 u = .ok (0#6 ++ BitVec.ofBool u.regs.cmf ++ BitVec.ofBool u.regs.ovf) := rfl
@[simp] theorem memRead_mask (u : TimerUnit) :
    memRead 4 u = .ok (0#6 ++ BitVec.ofBool u.regs.cmpIe ++ BitVec.ofBool u.regs.ovfIe) := rfl

theorem memRead_unmapped {idx : RegIndex} (h : 4 < idx.toNat) (u : TimerUnit) :
    memRead idx u = .error .invalidArgument := by
  rcases unmappedIndex_cases h with rfl | rfl | rfl <;> rfl

/-- A read sees the registers only, not the result registers. -/
@[simp] theorem memRead_ret (idx : RegIndex) (v : Word) (u : TimerUnit) : memRead idx (u.ret v) = memRead idx u := rfl

/-! Writes. -/

/-- Code 0 and the codes of `DIVIDER_SET` may be stored in `CS`. -/
theorem writeClock_supported {cs : ClockCode} {u : TimerUnit}
    (h : cs = 0 ∨ ∃ d, divOf cs = some d ∧ d ∈ u.cfg.dividers) :
    writeClock cs u = .ok { u with regs := { u.regs with cs := cs } } := by
  have hs : codeSupported u.cfg cs = true := by
    rcases h with rfl | ⟨d, hd, hm⟩
    · rfl
    · refine codeSupported_iff.mpr fun d' hd' => ?_
      obtain rfl : d = d' := Option.some.inj (hd.symm.trans hd')
      exact hm
  simp [writeClock, hs]

/-- No other code may. -/
theorem writeClock_unsupported {cs : ClockCode} {u : TimerUnit}
    (h : cs ≠ 0 ∧ ∀ d, divOf cs = some d → d ∉ u.cfg.dividers) : writeClock cs u = .error .invalidArgument := by
  obtain ⟨hne, hnot⟩ := h
  obtain ⟨d, hd⟩ := Option.ne_none_iff_exists'.mp (mt divOf_eq_none.mp hne)
  have hs : ¬codeSupported u.cfg cs = true := fun hc => hnot d hd (codeSupported_iff.mp hc d hd)
  simp [writeClock, hs]

theorem writeClock_ok {cs : ClockCode} {u u' : TimerUnit} (h : writeClock cs u = .ok u') :
    u' = { u with regs := { u.regs with cs := cs } } := by
  unfold writeClock at h
  split at h
  · exact (Except.ok.inj h).symm
  · cases h

@[simp] theorem memWrite_ctrl_eq (v : Byte) (u : TimerUnit) : memWrite 0 v u = writeClock (v.extractLsb' 0 3) u := rfl
@[simp] theorem memWrite_count_eq (v : Byte) (u : TimerUnit) :
    memWrite 1 v u = .ok { u with regs := { u.regs with count := v } } := rfl
@[simp] theorem memWrite_compare_eq (v : Byte) (u : TimerUnit) :
    memWrite 2 v u = .ok { u with regs := { u.regs with compare := v } } := rfl
@[simp] theorem memWrite_flags_eq (v : Byte) (u : TimerUnit) :
    memWrite 3 v u = .ok { u with regs :=
      { u.regs with
        ovf := writeOneToClear (v.getLsbD 0) u.regs.ovf
        cmf := writeOneToClear (v.getLsbD 1) u.regs.cmf } } := rfl
@[simp] theorem memWrite_mask_eq (v : Byte) (u : TimerUnit) :
    memWrite 4 v u = .ok { u with regs := { u.regs with ovfIe := v.getLsbD 0, cmpIe := v.getLsbD 1 } } := rfl

theorem memWrite_unmapped {idx : RegIndex} (h : 4 < idx.toNat) (v : Byte) (u : TimerUnit) :
    memWrite idx v u = .error .invalidArgument := by
  rcases unmappedIndex_cases h with rfl | rfl | rfl <;> rfl

theorem writeOneToClear_eq (bit flag : Bool) : writeOneToClear bit flag = if bit then false else flag := by
  cases bit <;> simp [writeOneToClear]

/-! The bytes that a read after a write returns. -/

theorem ctrlByte_eq_and (v : Byte) : 0#5 ++ v.extractLsb' 0 3 = v &&& 0x07 := by
  refine BitVec.eq_of_getLsbD_eq fun i hi => ?_
  rw [BitVec.getLsbD_append]
  interval_cases i <;> simp

theorem maskByte_eq_and (v : Byte) : 0#6 ++ BitVec.ofBool (v.getLsbD 1) ++ BitVec.ofBool (v.getLsbD 0) = v &&& 0x03 := by
  refine BitVec.eq_of_getLsbD_eq fun i hi => ?_
  rw [BitVec.getLsbD_append, BitVec.getLsbD_append]
  interval_cases i <;> simp

theorem flagsByte_eq_and (v : Byte) (ovf cmf : Bool) :
    0#6 ++ BitVec.ofBool (writeOneToClear (v.getLsbD 1) cmf) ++ BitVec.ofBool (writeOneToClear (v.getLsbD 0) ovf) =
      (0#6 ++ BitVec.ofBool cmf ++ BitVec.ofBool ovf) &&& ~~~v := by
  refine BitVec.eq_of_getLsbD_eq fun i hi => ?_
  rw [BitVec.getLsbD_and, BitVec.getLsbD_append, BitVec.getLsbD_append, BitVec.getLsbD_append, BitVec.getLsbD_append]
  interval_cases i <;> simp [writeOneToClear]

/-! What a read byte widens to in `res_value`. -/

theorem widen_byte (b : Byte) : b.setWidth 64 = 0#56 ++ b := BitVec.setWidth_eq_append (by decide)

theorem widen_ctrl (cs : ClockCode) : 0#56 ++ (0#5 ++ cs) = 0#61 ++ cs := BitVec.append_assoc.symm

theorem widen_twoBits (a b : Bool) :
    0#56 ++ (0#6 ++ BitVec.ofBool a ++ BitVec.ofBool b) = 0#62 ++ BitVec.ofBool a ++ BitVec.ofBool b :=
  calc 0#56 ++ (0#6 ++ BitVec.ofBool a ++ BitVec.ofBool b)
    _ = 0#56 ++ (0#6 ++ BitVec.ofBool a) ++ BitVec.ofBool b := BitVec.append_assoc.symm
    _ = 0#62 ++ BitVec.ofBool a ++ BitVec.ofBool b := congrArg (· ++ BitVec.ofBool b) BitVec.append_assoc.symm

/-- A read of the register just written. -/
theorem memRead_memWrite {idx : RegIndex} {v : Byte} {u u' : TimerUnit} (h : memWrite idx v u = .ok u') :
    memRead idx u' = .ok
      (if idx = 0 then v &&& 0x07
        else if idx = 3 then (0#6 ++ BitVec.ofBool u.regs.cmf ++ BitVec.ofBool u.regs.ovf) &&& ~~~v
        else if idx = 4 then v &&& 0x03 else v) := by
  rcases regIndex_cases idx with rfl | rfl | rfl | rfl | rfl | hidx
  · obtain rfl := writeClock_ok h
    exact congrArg Except.ok (ctrlByte_eq_and v)
  · obtain rfl := Except.ok.inj h
    rfl
  · obtain rfl := Except.ok.inj h
    rfl
  · obtain rfl := Except.ok.inj h
    exact congrArg Except.ok (flagsByte_eq_and v _ _)
  · obtain rfl := Except.ok.inj h
    exact congrArg Except.ok (maskByte_eq_and v)
  · rw [memWrite_unmapped hidx] at h
    cases h

/-! The operations. -/

theorem onUnit_eq {f : TimerUnit → TimerUnit} {s : State} {u' : TimerUnit} (h : f s.unit = u') :
    s.onUnit f = { s with unit := u' } := by rw [State.onUnit, h]

/-- A successful write ends an operation with the unit it leaves and 0. -/
theorem finish_opWrite_ok {idx : RegIndex} {v : Byte} {u u' : TimerUnit} (h : memWrite idx v u = .ok u') :
    finish (opWrite idx v) u = u'.ret 0 := finish_ok (by rw [opWrite, h])

theorem finish_opWrite_error {idx : RegIndex} {v : Byte} {u : TimerUnit} {e : ErrorCode}
    (h : memWrite idx v u = .error e) : finish (opWrite idx v) u = u.raise e := finish_error (by rw [opWrite, h])

theorem exec_regWrite_ok {idx : RegIndex} {v : Byte} {s : State} {u' : TimerUnit}
    (h : memWrite idx v s.unit = .ok u') : exec (.regWrite idx v) s = .next { s with unit := u'.ret 0 } :=
  congrArg Host.Outcome.next (onUnit_eq <| finish_opWrite_ok h)

theorem exec_regWrite_error {idx : RegIndex} {v : Byte} {s : State} {e : ErrorCode}
    (h : memWrite idx v s.unit = .error e) : exec (.regWrite idx v) s = .next { s with unit := s.unit.raise e } :=
  congrArg Host.Outcome.next (onUnit_eq <| finish_opWrite_error h)

theorem exec_regRead_ok {idx : RegIndex} {b : Byte} {s : State} (h : memRead idx s.unit = .ok b) :
    exec (.regRead idx) s = .next { s with unit := s.unit.ret (0#56 ++ b) } := by
  have hop : opRegRead idx s.unit = .ok (s.unit, 0#56 ++ b) := by
    simp only [opRegRead, h, widen_byte]
  exact congrArg Host.Outcome.next (onUnit_eq <| finish_ok hop)

theorem exec_regRead_error {idx : RegIndex} {s : State} {e : ErrorCode} (h : memRead idx s.unit = .error e) :
    exec (.regRead idx) s = .next { s with unit := s.unit.raise e } :=
  congrArg Host.Outcome.next (onUnit_eq <| finish_error (by simp only [opRegRead, h]))

/-- No error has status 0, so status 0 says that the write took place. -/
theorem regWrite_of_status_zero {idx : RegIndex} {v : Byte} {s t : State} (h : exec (.regWrite idx v) s = .next t)
    (hstatus : t.unit.res.status = 0) : ∃ u', memWrite idx v s.unit = .ok u' ∧ t = { s with unit := u'.ret 0 } := by
  cases hw : memWrite idx v s.unit with
  | ok u' =>
    rw [exec_regWrite_ok hw] at h
    cases h
    exact ⟨u', rfl, rfl⟩
  | error e =>
    rw [exec_regWrite_error hw] at h
    cases h
    obtain rfl := memWrite_error hw
    cases hstatus

/-! The obligations. -/

/-- Settles O55, register by register: the byte that `memRead` returns, widened by 56 zero bits. -/
theorem regReadReturnsTheRegister : Obligations.RegReadReturnsTheRegister := by
  intro s
  refine ⟨?_, ?_, ?_, ?_, ?_, fun idx hidx => ?_⟩
  · rw [exec_regRead_ok (memRead_ctrl _), widen_ctrl]
    rfl
  · exact exec_regRead_ok (memRead_count _)
  · exact exec_regRead_ok (memRead_compare _)
  · rw [exec_regRead_ok (memRead_flags _), widen_twoBits]
    rfl
  · rw [exec_regRead_ok (memRead_mask _), widen_twoBits]
    rfl
  · exact exec_regRead_error (memRead_unmapped hidx _)

/-- Settles O56, register by register; the clock select is the only write that its value can make fail. -/
theorem regWriteFollowsEachRegistersRule : Obligations.RegWriteFollowsEachRegistersRule := by
  intro v s
  refine ⟨fun hs => ?_, fun hn => ?_, ?_, ?_, ?_, ?_, fun idx hidx => ?_⟩
  · exact exec_regWrite_ok ((memWrite_ctrl_eq v s.unit).trans (writeClock_supported hs))
  · exact exec_regWrite_error ((memWrite_ctrl_eq v s.unit).trans (writeClock_unsupported hn))
  · exact exec_regWrite_ok (memWrite_count_eq _ _)
  · exact exec_regWrite_ok (memWrite_compare_eq _ _)
  · rw [exec_regWrite_ok (memWrite_flags_eq _ _), writeOneToClear_eq, writeOneToClear_eq]
    rfl
  · exact exec_regWrite_ok (memWrite_mask_eq _ _)
  · exact exec_regWrite_error (memWrite_unmapped hidx _ _)

/-- Settles O57: the write took place, and the read of the register it left is `memRead_memWrite`. -/
theorem readAfterWrite : Obligations.ReadAfterWrite := by
  intro idx v s t t' hwrite hstatus hread
  obtain ⟨u', hw, rfl⟩ := regWrite_of_status_zero hwrite hstatus
  rw [exec_regRead_ok ((memRead_ret idx 0 u').trans (memRead_memWrite hw))] at hread
  cases hread
  rfl

end Sys2Proof.Machine
end

section
/-! The decoder's law: a word is the operation `i` iff it lies in `i`'s row of the opcode map and `i`'s operands are
the word's own fields (30_encoding.md R80 to R91). That decoding and encoding are inverse, the rule `w & mask = match`
and the ILLEGAL words all follow from it. -/

namespace Sys2Proof

open Machine Claims Laws

/-! Fields of a word. -/

/-- A field that lies just above an appended low part. -/
theorem extract_middle {j k l : Nat} (a : BitVec j) (b : BitVec k) (c : BitVec l) :
    (a ++ b ++ c).extractLsb' l k = b :=
  (extract_above (a ++ b) c 0 k).trans (extract_low a b)

/-- A field above two appended low parts. -/
theorem extract_third {i j k l : Nat} (a : BitVec i) (b : BitVec j) (c : BitVec k) (d : BitVec l) :
    (a ++ b ++ c ++ d).extractLsb' (l + k) j = b :=
  (extract_above (a ++ b ++ c) d k j).trans (extract_middle a b c)

/-- A field of one bit. -/
theorem extract_bit {n : Nat} (w : BitVec n) (k : Nat) : w.extractLsb' k 1 = BitVec.ofBool (w.getLsbD k) := by
  apply BitVec.eq_of_getLsbD_eq
  intro i hi
  obtain rfl : i = 0 := by omega
  simp

theorem getLsbD_of_extract {n k : Nat} {w : BitVec n} {b : Bool} (h : w.extractLsb' k 1 = BitVec.ofBool b) :
    w.getLsbD k = b := by
  simpa using congrArg (BitVec.getLsbD · 0) h

/-- A field that a mask keeps whole is that field of the masked word. -/
theorem extract_of_mask {n start len : Nat} {w mask masked : BitVec n} {field : BitVec len} (h : w &&& mask = masked)
    (hmask : mask.extractLsb' start len = BitVec.allOnes len) (hfield : masked.extractLsb' start len = field) :
    w.extractLsb' start len = field := by
  rw [← hfield, ← h, BitVec.extractLsb'_and, hmask, BitVec.and_allOnes]

/-- The high bits of a word known as `c`, one more field known with them. -/
theorem extract_extend {n start len k : Nat} {w : BitVec n} {c : BitVec k} (h : w.extractLsb' (start + len) k = c) :
    w.extractLsb' start (k + len) = c ++ w.extractLsb' start len := by
  rw [← h, BitVec.extractLsb'_append_extractLsb'_eq_extractLsb' rfl]

/-- A word whose bits are known down to the lowest is known. -/
theorem eq_of_extract {n : Nat} {w c : BitVec n} (h : w.extractLsb' 0 n = c) : c = w :=
  h.symm.trans BitVec.extractLsb'_eq_self

/-! Operands and rows. -/

/-- The operation with its operands replaced by the fields of `w` that 30_encoding.md R81 to R85 give to them. -/
def Instr.readFrom (w : Word) : Instr → Instr
  | .planDelay _ => .planDelay (w.extractLsb' 0 32)
  | .delayBlocking _ _ _ => .delayBlocking (w.extractLsb' 40 3) (w.extractLsb' 32 8) (w.extractLsb' 0 32)
  | .pwmConfigure _ _ => .pwmConfigure (w.extractLsb' 32 8) (w.extractLsb' 0 32)
  | .pwmStart _ => .pwmStart (w.extractLsb' 0 8)
  | .pwmStop => .pwmStop
  | .schedule _ _ _ => .schedule (w.getLsbD 48) (w.extractLsb' 32 16) (w.extractLsb' 0 32)
  | .cancel => .cancel
  | .setDivider _ => .setDivider (w.extractLsb' 0 3)
  | .setPreload _ => .setPreload (w.extractLsb' 0 8)
  | .readOvf => .readOvf
  | .clearOvf => .clearOvf
  | .regRead _ => .regRead (w.extractLsb' 8 3)
  | .regWrite _ _ => .regWrite (w.extractLsb' 8 3) (w.extractLsb' 0 8)
  | .irqDisable => .irqDisable
  | .irqEnable => .irqEnable
  | .onCompareMatch => .onCompareMatch
  | .onOverflow => .onOverflow

@[simp] theorem row_readFrom (w : Word) (i : Instr) : (i.readFrom w).row = i.row := by cases i <;> rfl

@[simp] theorem readFrom_readFrom (w : Word) (i : Instr) : (i.readFrom w).readFrom w = i.readFrom w := by
  cases i <;> rfl

/-- `w & mask = match` for the row of `i` (30_encoding.md R90). -/
def MatchesRowOf (w : Word) (i : Instr) : Prop := w &&& i.row.maskBits = i.row.matchBits

/-- The opcode of a row. -/
def OpcodeRow.opcode (r : OpcodeRow) : Byte := opcodeOf r.matchBits

/-- The bits below the opcode that a row's format reserves as zero (30_encoding.md R80). -/
def OpcodeRow.reserved (r : OpcodeRow) : BitVec 56 := r.maskBits.extractLsb' 0 56

/-- A row asks for its opcode and for zeros in the reserved places. -/
theorem row_bits : ∀ r ∈ opcodeMap,
    r.maskBits = (0xFF#8 ++ r.reserved : Word) ∧ r.matchBits = (r.opcode ++ 0#56 : Word) := by decide

theorem row_mem_opcodeMap (i : Instr) : i.row ∈ opcodeMap := by cases i <;> simp [Instr.row, opcodeMap]

theorem matchesRowOf_iff {w : Word} {i : Instr} :
    MatchesRowOf w i ↔ opcodeOf w = i.row.opcode ∧ w &&& (0#8 ++ i.row.reserved : Word) = 0 := by
  obtain ⟨hmask, hmatch⟩ := row_bits _ (row_mem_opcodeMap i)
  unfold MatchesRowOf
  rw [hmask, hmatch]
  exact row_matches_iff i.row.opcode i.row.reserved

/-- One operation of each row, in the order of the opcode map. -/
def onePerRow : List Instr :=
  [.planDelay 0, .delayBlocking 0 0 0, .pwmConfigure 0 0, .pwmStart 0, .pwmStop, .schedule false 0 0, .cancel,
   .setDivider 0, .setPreload 0, .readOvf, .clearOvf, .regRead 0, .regWrite 0 0, .irqDisable, .irqEnable,
   .onCompareMatch, .onOverflow]

theorem row_onePerRow : onePerRow.map Instr.row = opcodeMap := rfl

theorem exists_row_of_mem {r : OpcodeRow} (h : r ∈ opcodeMap) : ∃ i : Instr, i.row = r := by
  rw [← row_onePerRow] at h
  obtain ⟨i, -, hi⟩ := List.mem_map.mp h
  exact ⟨i, hi⟩

/-! The decoder. -/

/-- A word with the opcode of an operation is that operation on the word's fields, unless a reserved bit is set. -/
theorem decode_of_opcode {w : Word} {i : Instr} (h : opcodeOf w = i.row.opcode) :
    decode w = ifReservedZero w (0#8 ++ i.row.reserved : Word) (i.readFrom w) := by
  unfold decode
  rw [h]
  cases i <;> simp only [Instr.row] <;> rfl

/-- An opcode of no row is unassigned. -/
theorem decode_of_unassigned {w : Word} (h : (opcodeOf w).toNat ∉ opcodeMap.map (·.opcode.toNat)) :
    decode w = .error (.unassignedOpcode (opcodeOf w)) := by
  unfold decode
  split
  case h_18 => rfl
  all_goals
    next hop =>
      rw [hop] at h
      exact absurd (by decide) h

theorem exists_opcode_of_decode {w : Word} {i : Instr} (h : decode w = .ok i) :
    ∃ j : Instr, opcodeOf w = j.row.opcode := by
  by_cases hmem : (opcodeOf w).toNat ∈ opcodeMap.map (·.opcode.toNat)
  · obtain ⟨r, hr, hop⟩ := List.mem_map.mp hmem
    obtain ⟨j, rfl⟩ := exists_row_of_mem hr
    exact ⟨j, (BitVec.eq_of_toNat_eq hop).symm⟩
  · rw [decode_of_unassigned hmem] at h
    cases h

/-- The decoder's law: the word lies in the row, and the operands are its own fields. -/
theorem decode_ok_iff {w : Word} {i : Instr} : decode w = .ok i ↔ MatchesRowOf w i ∧ i.readFrom w = i := by
  constructor
  · intro h
    obtain ⟨j, hop⟩ := exists_opcode_of_decode h
    rw [decode_of_opcode hop] at h
    obtain ⟨hzero, rfl⟩ := ifReservedZero_ok.mp h
    have hj : MatchesRowOf w j := matchesRowOf_iff.mpr ⟨hop, hzero⟩
    exact ⟨by simpa [MatchesRowOf] using hj, readFrom_readFrom w j⟩
  · rintro ⟨hmatch, hfields⟩
    obtain ⟨hop, hzero⟩ := matchesRowOf_iff.mp hmatch
    rw [decode_of_opcode hop]
    exact ifReservedZero_ok.mpr ⟨hzero, hfields⟩

/-! Encoding, then decoding. -/

theorem encode_matchesRowOf (i : Instr) : MatchesRowOf (encode i) i := by
  cases i with
  | planDelay ms => exact EncodesInRow.planDelay ms
  | delayBlocking cs preload rep => exact EncodesInRow.delayBlocking cs preload rep
  | pwmConfigure pin khz => exact EncodesInRow.pwmConfigure pin khz
  | pwmStart duty => exact EncodesInRow.pwmStart duty
  | pwmStop => exact EncodesInRow.pwmStop
  | schedule periodic callback ms => exact EncodesInRow.schedule periodic callback ms
  | cancel => exact EncodesInRow.cancel
  | setDivider cs => exact EncodesInRow.setDivider cs
  | setPreload value => exact EncodesInRow.setPreload value
  | readOvf => exact EncodesInRow.readOvf
  | clearOvf => exact EncodesInRow.clearOvf
  | regRead idx => exact EncodesInRow.regRead idx
  | regWrite idx value => exact EncodesInRow.regWrite idx value
  | irqDisable => exact EncodesInRow.irqDisable
  | irqEnable => exact EncodesInRow.irqEnable
  | onCompareMatch => exact EncodesInRow.onCompareMatch
  | onOverflow => exact EncodesInRow.onOverflow

theorem readFrom_encode (i : Instr) : i.readFrom (encode i) = i := by
  cases i with
  | planDelay ms => exact congrArg Instr.planDelay (extract_low (0x01#8 ++ 0#24) ms)
  | delayBlocking cs preload rep =>
    rw [Instr.readFrom, Instr.delayBlocking.injEq]
    exact ⟨extract_third (0x02#8 ++ 0#13) cs preload rep, extract_middle (0x02#8 ++ 0#13 ++ cs) preload rep,
      extract_low (0x02#8 ++ 0#13 ++ cs ++ preload) rep⟩
  | pwmConfigure pin khz =>
    rw [Instr.readFrom, Instr.pwmConfigure.injEq]
    exact ⟨extract_middle (0x03#8 ++ 0#16) pin khz, extract_low (0x03#8 ++ 0#16 ++ pin) khz⟩
  | pwmStart duty => exact congrArg Instr.pwmStart (extract_low (0x04#8 ++ 0#48) duty)
  | schedule periodic callback ms =>
    rw [Instr.readFrom, Instr.schedule.injEq]
    refine ⟨?_, extract_middle (0x06#8 ++ 0#7 ++ BitVec.ofBool periodic) callback ms,
      extract_low (0x06#8 ++ 0#7 ++ BitVec.ofBool periodic ++ callback) ms⟩
    exact getLsbD_of_extract (extract_third (0x06#8 ++ 0#7) (BitVec.ofBool periodic) callback ms)
  | setDivider cs => exact congrArg Instr.setDivider (extract_low (0x10#8 ++ 0#53) cs)
  | setPreload value => exact congrArg Instr.setPreload (extract_low (0x11#8 ++ 0#48) value)
  | regRead idx => exact congrArg Instr.regRead (extract_middle (0x14#8 ++ 0#45) idx 0#8)
  | regWrite idx value =>
    rw [Instr.readFrom, Instr.regWrite.injEq]
    exact ⟨extract_middle (0x15#8 ++ 0#45) idx value, extract_low (0x15#8 ++ 0#45 ++ idx) value⟩
  | pwmStop | cancel | readOvf | clearOvf | irqDisable | irqEnable | onCompareMatch | onOverflow => rfl

/-- Settles O2: an encoding lies in its operation's row, and its fields are the operands. -/
theorem decodeInvertsEncode : Obligations.DecodeInvertsEncode :=
  fun i => decode_ok_iff.mpr ⟨encode_matchesRowOf i, readFrom_encode i⟩

/-! Decoding, then encoding. -/

/-- The row gives the bits above the operands, and the operands are the word's own. -/
theorem encode_readFrom {w : Word} {i : Instr} (h : MatchesRowOf w i) : encode (i.readFrom w) = w := by
  unfold MatchesRowOf at h
  cases i <;> dsimp only [Instr.row] at h
  case planDelay =>
    have hhigh : w.extractLsb' 32 32 = 0x01#8 ++ 0#24 := extract_of_mask h (by decide) (by decide)
    exact eq_of_extract (extract_extend (len := 32) hhigh)
  case delayBlocking =>
    have hhigh : w.extractLsb' 43 21 = 0x02#8 ++ 0#13 := extract_of_mask h (by decide) (by decide)
    exact eq_of_extract (extract_extend (len := 32) (extract_extend (len := 8) (extract_extend (len := 3) hhigh)))
  case pwmConfigure =>
    have hhigh : w.extractLsb' 40 24 = 0x03#8 ++ 0#16 := extract_of_mask h (by decide) (by decide)
    exact eq_of_extract (extract_extend (len := 32) (extract_extend (len := 8) hhigh))
  case pwmStart =>
    have hhigh : w.extractLsb' 8 56 = 0x04#8 ++ 0#48 := extract_of_mask h (by decide) (by decide)
    exact eq_of_extract (extract_extend (len := 8) hhigh)
  case schedule =>
    have hhigh : w.extractLsb' 49 15 = 0x06#8 ++ 0#7 := extract_of_mask h (by decide) (by decide)
    rw [Instr.readFrom, encode, ← extract_bit]
    exact eq_of_extract (extract_extend (len := 32) (extract_extend (len := 16) (extract_extend (len := 1) hhigh)))
  case setDivider =>
    have hhigh : w.extractLsb' 3 61 = 0x10#8 ++ 0#53 := extract_of_mask h (by decide) (by decide)
    exact eq_of_extract (extract_extend (len := 3) hhigh)
  case setPreload =>
    have hhigh : w.extractLsb' 8 56 = 0x11#8 ++ 0#48 := extract_of_mask h (by decide) (by decide)
    exact eq_of_extract (extract_extend (len := 8) hhigh)
  case regRead =>
    have hhigh : w.extractLsb' 11 53 = 0x14#8 ++ 0#45 := extract_of_mask h (by decide) (by decide)
    have hlow : w.extractLsb' 0 8 = 0#8 := extract_of_mask h (by decide) (by decide)
    rw [Instr.readFrom, encode, ← hlow]
    exact eq_of_extract (extract_extend (len := 8) (extract_extend (len := 3) hhigh))
  case regWrite =>
    have hhigh : w.extractLsb' 11 53 = 0x15#8 ++ 0#45 := extract_of_mask h (by decide) (by decide)
    exact eq_of_extract (extract_extend (len := 8) (extract_extend (len := 3) hhigh))
  case pwmStop | cancel | readOvf | clearOvf | irqDisable | irqEnable | onCompareMatch | onOverflow =>
    exact h.symm.trans BitVec.and_allOnes

/-- Settles O3: an accepted word lies in its operation's row, and the operands are its own fields. -/
theorem encodeInvertsDecode : Obligations.EncodeInvertsDecode := by
  intro w i h
  obtain ⟨hmatch, hfields⟩ := decode_ok_iff.mp h
  rw [← hfields, encode_readFrom hmatch]

/-! The rows and the illegal words. -/

/-- A word of a row is the operation of that row on the word's own fields. -/
theorem decode_of_matchesRowOf {w : Word} {i : Instr} (h : MatchesRowOf w i) : decode w = .ok (i.readFrom w) :=
  decode_ok_iff.mpr ⟨by rwa [MatchesRowOf, row_readFrom], readFrom_readFrom w i⟩

/-- Settles O4: each row is the row of some operation, and what a word decodes to is of the row the word matches. -/
theorem wordIsTheOperationIffItMatchesItsRow : Obligations.WordIsTheOperationIffItMatchesItsRow := by
  refine ⟨row_mem_opcodeMap, fun r hr w => ⟨fun hmatch => ?_, ?_⟩⟩
  · obtain ⟨i, rfl⟩ := exists_row_of_mem hr
    exact ⟨i.readFrom w, decode_of_matchesRowOf hmatch, row_readFrom w i⟩
  · rintro ⟨i, hdecode, rfl⟩
    exact (decode_ok_iff.mp hdecode).1

/-- Settles O5: a word that decodes to an operation would match that operation's row. -/
theorem illegalWordRaisesInvalidArgument : Obligations.IllegalWordRaisesInvalidArgument := by
  intro w s hnone
  rcases issueWord_cases w s with ⟨i, hdecode, -⟩ | hillegal
  · exact absurd (decode_ok_iff.mp hdecode).1 (hnone i.row (row_mem_opcodeMap i))
  · exact hillegal

/-- Settles O1: the decoder run on each word. -/
theorem decodesTheSpecsWords : Obligations.DecodesTheSpecsWords := by
  unfold Obligations.DecodesTheSpecsWords
  decide

end Sys2Proof
end

section
/-! `val32` is the value of 30_encoding.md R88: its fields, its sign and the power of two of each case. -/

namespace Sys2Proof

/-- What `val32` makes of a sign, an exponent field and a fraction. -/
theorem val32_fields (sgn : BitVec 1) (e : BitVec 8) (m : BitVec 23) :
    val32 (sgn ++ e ++ m) =
      if e = 255 then none else some ((-1) ^ sgn.toNat * binary32Magnitude e.toNat m.toNat) := by
  have hfraction : (sgn ++ e ++ m : Word32).extractLsb' 0 23 = m := extract_low (sgn ++ e) m
  have hexponent : (sgn ++ e ++ m : Word32).extractLsb' 23 8 = e := extract_middle sgn e m
  have hsign : (sgn ++ e ++ m : Word32).extractLsb' 31 1 = sgn :=
    (extract_above (sgn ++ e) m 8 1).trans (extract_high sgn e)
  have he : e.toNat = 255 ↔ e = 255 := BitVec.toNat_inj (y := 255#8)
  unfold val32
  simp only [hfraction, hexponent, he]
  rcases BitVec.eq_zero_or_eq_one sgn with rfl | rfl
  · rw [getLsbD_of_extract (b := false) hsign]
    simp
  · rw [getLsbD_of_extract (b := true) hsign]
    simp

/-- A subnormal pattern, or zero. -/
theorem binary32Magnitude_zero (m : Nat) : binary32Magnitude 0 m = m * (2 : Rat) ^ (-149 : Int) := by
  rw [binary32Magnitude, if_pos rfl, div_eq_mul_inv, Nat.cast_pow, ← zpow_natCast, ← zpow_neg]
  norm_cast

/-- A normal pattern: the exponent is not negative, or the division is by the opposite power. -/
theorem binary32Magnitude_normal {e : Nat} (he : e ≠ 0) (m : Nat) :
    binary32Magnitude e m = (2 ^ 23 + (m : Rat)) * (2 : Rat) ^ ((e : Int) - 150) := by
  rw [binary32Magnitude, if_neg he]
  split
  case isTrue hle =>
    have hexp : (e : Int) - 150 = ((e - 150 : Nat) : Int) := by omega
    rw [hexp, zpow_natCast]
    push_cast
    rfl
  case isFalse hlt =>
    have hexp : (e : Int) - 150 = -((150 - e : Nat) : Int) := by omega
    rw [hexp, zpow_neg, zpow_natCast, div_eq_mul_inv]
    push_cast
    rfl

/-- Settles O26: the exponent field chooses the case, and each magnitude is an integer times a power of 2. -/
theorem val32IsTheBinary32Value : Obligations.Val32IsTheBinary32Value := by
  intro sgn e m
  rw [val32_fields]
  refine ⟨fun he => if_pos he, ?_, fun hfinite he => ?_⟩
  · rintro rfl
    rw [if_neg (by decide), mul_assoc, ← binary32Magnitude_zero]
    rfl
  · have hne : e.toNat ≠ 0 := fun h => he (BitVec.eq_of_toNat_eq h)
    rw [if_neg hfinite, binary32Magnitude_normal hne, mul_assoc]

end Sys2Proof
end

section
/-! The counter of 40_prescaler_counter.md: the whole effect of a tick and when it may come (R118), and where the counter
stands and whether it has overflowed after any number of ticks (R121). -/

namespace Sys2Proof.Machine

/-! One tick. -/

theorem ovfAfterTick_eq (new : Byte) (ovf : Bool) : ovfAfterTick new ovf = if new = 0 then true else ovf := by
  rw [ovfAfterTick, Bool.if_true_left, Bool.or_comm]

theorem cmfAfterTick_eq (new compare : Byte) (cmf : Bool) :
    cmfAfterTick new compare cmf = if new = compare then true else cmf := by
  rw [cmfAfterTick, Bool.if_true_left, Bool.or_comm]

/-- The whole effect of a tick, as R118 writes it. -/
theorem tick_eq (u : TimerUnit) :
    tick u = { u with regs :=
      { u.regs with
        count := u.regs.count + 1
        ovf := if u.regs.count + 1 = 0 then true else u.regs.ovf
        cmf := if u.regs.count + 1 = u.regs.compare then true else u.regs.cmf } } := by
  rw [← ovfAfterTick_eq, ← cmfAfterTick_eq]
  rfl

theorem perform_tick {k : Nat} {s s' : State} (h : s.focus k = some s') :
    perform (.tick k) s = .next (s'.onUnit tick) := atUnit_some h

theorem tick_wraps_and_matches {u : TimerUnit} (hcount : u.regs.count = 255) (hcompare : u.regs.compare = 0) :
    (tick u).regs.count = 0 ∧ (tick u).regs.ovf = true ∧ (tick u).regs.cmf = true := by
  have hwrap : u.regs.count + 1 = 0 := by rw [hcount]; decide
  exact ⟨hwrap, (tick_ovf u).mpr (.inr hwrap), (tick_cmf u).mpr (.inr (hwrap.trans hcompare.symm))⟩

/-- Settles O11: a tick that is first in the list is performed on its unit, and `allowed` is the rule of R310 to R312. -/
theorem tickCountsAndSetsTheFlags : Obligations.TickCountsAndSetsTheFlags := by
  refine ⟨fun s s1 k ts hturns hnext hfocus => ?_, fun _ _ => allowed_iff, fun _ => tick_wraps_and_matches⟩
  calc step s
    _ = perform (.tick k) { s with turns := ts } := step_of_turn hturns (allowed_iff.mpr hnext)
    _ = .next (s1.onUnit tick) := perform_tick hfocus
    _ = _ := congrArg Host.Outcome.next (onUnit_eq (tick_eq s1.unit))

/-! Any number of ticks. -/

/-- The next value of the counter: 0 after 255, else one more. -/
theorem count_succ_cases (c : Byte) :
    (c + 1 = 0 ∧ c.toNat = 255) ∨ (c + 1 ≠ 0 ∧ (c + 1).toNat = c.toNat + 1) := by
  by_cases h : c + 1 = 0
  · exact .inl ⟨h, by bv_omega⟩
  · exact .inr ⟨h, by bv_omega⟩

theorem tickTimes_count (n : Nat) (u : TimerUnit) :
    (tickTimes n u).regs.count.toNat = (u.regs.count.toNat + n) % 256 := by
  induction n generalizing u with
  | zero => exact (Nat.mod_eq_of_lt u.regs.count.isLt).symm
  | succ n ih =>
    rw [tickTimes, ih, tick_regs_count]
    bv_omega

/-- `OVF` is set by the tick that takes the counter past 255, and no tick clears it. -/
theorem tickTimes_ovf (n : Nat) (u : TimerUnit) :
    (tickTimes n u).regs.ovf = true ↔ u.regs.ovf = true ∨ 256 - u.regs.count.toNat ≤ n := by
  induction n generalizing u with
  | zero =>
    have hnone : ¬256 - u.regs.count.toNat ≤ 0 := Nat.not_le.mpr (Nat.sub_pos_of_lt u.regs.count.isLt)
    exact (or_iff_left hnone).symm
  | succ n ih =>
    rw [tickTimes, ih, tick_ovf, tick_regs_count]
    rcases count_succ_cases u.regs.count with ⟨hwrap, hmax⟩ | ⟨hnowrap, hsucc⟩
    · have hnow : 256 - u.regs.count.toNat ≤ n + 1 := by omega
      exact iff_of_true (.inl (.inr hwrap)) (.inr hnow)
    · have hlater : 256 - (u.regs.count + 1).toNat ≤ n ↔ 256 - u.regs.count.toNat ≤ n + 1 := by omega
      rw [or_iff_left hnowrap, hlater]

/-- A counter that starts at `p` stands at 0 again after `256 - p` steps, and then every 256. -/
theorem wraps_iff {p n : Nat} (hp : p < 256) (hn : 0 < n) : (p + n) % 256 = 0 ↔ ∃ k, n = (256 - p) + 256 * k := by
  constructor
  · intro h
    exact ⟨(p + n) / 256 - 1, by omega⟩
  · rintro ⟨k, rfl⟩
    omega

/-- Settles O12: after n ticks the counter stands at p + n modulo 256, and `OVF` is set by the first wrap and stays. -/
theorem counterOverflowsEvery256Ticks : Obligations.CounterOverflowsEvery256Ticks := by
  intro u n hn
  refine ⟨?_, tickTimes_ovf n u⟩
  calc (tickTimes n u).regs.count = 0
    _ ↔ (tickTimes n u).regs.count.toNat = 0 := BitVec.toNat_inj.symm
    _ ↔ (u.regs.count.toNat + n) % 256 = 0 := by rw [tickTimes_count]
    _ ↔ ∃ k, n = (256 - u.regs.count.toNat) + 256 * k := wraps_iff u.regs.count.isLt hn

end Sys2Proof.Machine
end

section
/-! The delay planner of 41_delay_planner.md: which branch answers a delay (R132 to R135), the number of ticks of a plan
and how far it is from the request (R136, R137), which dividers a plan passes over (R138), and `PLAN_DELAY` (R130). -/

namespace Sys2Proof.Machine

/-! The branch that answers a delay. -/

/-- A delay that the divider `d` covers and no divider before it covers is planned at `d`. -/
theorem planDelay_eq_single {cfg : UnitConfig} {x : Rat} {d : Divider} {smaller larger : List Divider} (h0 : 0 ≤ x)
    (hsplit : cfg.dividers = smaller ++ d :: larger) (hsmaller : ∀ d' ∈ smaller, maxDelay cfg d' < x)
    (hd : x ≤ maxDelay cfg d) : planDelay cfg (some x) = .ok (planSingle cfg d x) := by
  have hfirst : cfg.dividers.find? (fun d => decide (x ≤ maxDelay cfg d)) = some d :=
    List.find?_eq_some_iff_append.mpr ⟨decide_eq_true hd, smaller, larger, hsplit, by simpa using hsmaller⟩
  simp only [planDelay, if_neg (not_lt.mpr h0), hfirst]

/-- A delay that no divider covers is planned with repeats. -/
theorem planDelay_eq_multi {cfg : UnitConfig} {x : Rat} (h0 : 0 ≤ x) (hlong : ∀ d ∈ cfg.dividers, maxDelay cfg d < x) :
    planDelay cfg (some x) = planMulti cfg x := by
  have hnone : cfg.dividers.find? (fun d => decide (x ≤ maxDelay cfg d)) = none :=
    List.find?_eq_none.mpr (by simpa using hlong)
  simp only [planDelay, if_neg (not_lt.mpr h0), hnone]

theorem dividers_eq_dMin_cons {cfg : UnitConfig} (hw : cfg.wellFormed) :
    ∃ larger, cfg.dividers = dMin cfg :: larger := by
  obtain ⟨-, hne, -⟩ := hw
  obtain ⟨d, larger, hcons⟩ := List.exists_cons_of_ne_nil hne
  exact ⟨larger, by rw [dMin, hcons, List.headD_cons]⟩

/-! Whole ticks in a delay. -/

theorem floor_ticks_pos_iff {t x : Rat} (ht : 0 < t) : 1 ≤ (x / t).floor ↔ t ≤ x := by
  rw [Rat.le_floor_iff, Int.cast_one, one_le_div ht]

theorem floor_ticks_mul_le {t : Rat} (ht : 0 < t) (x : Rat) : ((x / t).floor : Rat) * t ≤ x :=
  (le_div_iff₀ ht).mp (Rat.floor_le _)

theorem lt_floor_ticks_add_one_mul {t : Rat} (ht : 0 < t) (x : Rat) : x < ((x / t).floor : Rat) * t + t := by
  have h := (div_lt_iff₀ ht).mp (Rat.lt_floor_add_one (x / t))
  rwa [Int.cast_add, Int.cast_one, add_one_mul] at h

/-- A delay below one tick is planned as one tick. -/
theorem planSingle_of_lt_tick {cfg : UnitConfig} {d : Divider} {x : Rat} (hf : 0 < cfg.fCpu) (hx : x < tickMs cfg d) :
    planSingle cfg d x = ⟨d, 255, 0⟩ := by
  have hfloor : ¬1 ≤ (x / tickMs cfg d).floor := (floor_ticks_pos_iff (tickMs_pos hf d)).not.mpr (not_le.mpr hx)
  have hticks : max 1 (x / tickMs cfg d).floor.toNat = 1 := by omega
  simp only [planSingle, hticks]
  rfl

/-- Settles O27: the first divider that covers the delay plans it, and below one tick of `D_MIN` that is `D_MIN`. -/
theorem singlePeriodPlan : Obligations.SinglePeriodPlan := by
  refine ⟨fun cfg x d smaller larger hw h0 hsplit hsmaller hd => ?_, fun cfg x hw h0 hx => ?_, by decide +kernel⟩
  · obtain ⟨hdiv, hrep, hlow, hhigh, hticks⟩ := planSingle_spec hw.1 h0 hd
    have hpreload := (planSingle cfg d x).preload.isLt
    exact ⟨hlow, hhigh, _, planDelay_eq_single h0 hsplit hsmaller hd, hdiv, hrep, by omega⟩
  · obtain ⟨larger, hcons⟩ := dividers_eq_dMin_cons hw
    have hcovers : x ≤ maxDelay cfg (dMin cfg) := by
      rw [maxDelay_eq]
      linarith
    rw [planDelay_eq_single h0 (smaller := []) hcons (by simp) hcovers, planSingle_of_lt_tick hw.1 hx]

/-- Settles O28: a delay that no divider covers goes to the multi-period branch, which guards its repeat count. -/
theorem multiPeriodPlan : Obligations.MultiPeriodPlan := by
  refine ⟨fun cfg x n hw hlong hn => ?_, by decide +kernel⟩
  have hmax : maxDelay cfg (dMax cfg) < x := hlong _ (dMax_spec hw).1
  have h0 : 0 ≤ x := ((maxDelay_pos hw.1 _).trans hmax).le
  rw [planDelay_eq_multi h0 hlong]
  obtain ⟨m, hpos, hm, hbranch⟩ := planMulti_cases hw.1 hmax
  obtain rfl : m = n := by omega
  rcases hbranch with ⟨hover, herror⟩ | ⟨hrange, p, rticks, hp, hdiv, hrep, hle, hpreload, hrticks, -⟩
  · exact ⟨hpos, fun _ => herror, fun h => absurd h (not_le.mpr hover)⟩
  · exact ⟨hpos, fun h => absurd hrange (not_le.mpr h), fun _ => ⟨p, rticks, hp, hdiv, hrep, hrticks, hle, hpreload⟩⟩

/-! The ticks of a plan. -/

section
variable {cfg : UnitConfig} {x : Rat} {p : TimerPlan}

theorem planDelay_single_ticks (hw : cfg.wellFormed) (h : planDelay cfg (some x) = .ok p) (hrep : p.rep = 0) :
    (p.totalTicks : Int) = max 1 (x / tickMs cfg p.divider).floor := by
  obtain ⟨-, -, -, ⟨-, -, hticks, -⟩ | ⟨-, -, hmulti, -⟩⟩ := planDelay_ok hw h
  · rw [(TimerPlan.single_ticks hrep).1, hticks]
  · exact absurd hrep hmulti

/-- The ticks of a plan with repeats: the request in whole ticks, a full period or more. -/
theorem planDelay_multi_ticks (hw : cfg.wellFormed) (h : planDelay cfg (some x) = .ok p) (hrep : p.rep ≠ 0) :
    p.divider = dMax cfg ∧ (p.totalTicks : Int) = (x / tickMs cfg p.divider).floor ∧ 256 ≤ p.totalTicks := by
  obtain ⟨-, -, -, ⟨-, hsingle, -⟩ | ⟨-, hdiv, -, rticks, hle, hpreload, hticks⟩⟩ := planDelay_ok hw h
  · exact absurd hsingle hrep
  · have hrem : p.remTicks = rticks := by
      rw [TimerPlan.multi_ticks hrep, hpreload]
      omega
    have hpos : p.rep.toNat ≠ 0 := fun hc => hrep (BitVec.eq_of_toNat_eq hc)
    have htotal : p.totalTicks = 256 * p.rep.toNat + p.remTicks := rfl
    exact ⟨hdiv, by omega, by omega⟩

/-- With or without repeats, a plan lasts the whole ticks of the request, and at least one. -/
theorem planDelay_totalTicks (hw : cfg.wellFormed) (h : planDelay cfg (some x) = .ok p) :
    (p.totalTicks : Int) = max 1 (x / tickMs cfg p.divider).floor := by
  by_cases hrep : p.rep = 0
  · exact planDelay_single_ticks hw h hrep
  · obtain ⟨-, hticks, hfull⟩ := planDelay_multi_ticks hw h hrep
    omega

/-- With repeats, the ticks of a plan are its full periods and a remainder below one period. -/
theorem TimerPlan.totalTicks_divMod (hrep : p.rep ≠ 0) :
    p.rep.toNat = p.totalTicks / 256 ∧ p.remTicks = p.totalTicks % 256 := by
  have hrem := TimerPlan.multi_ticks hrep
  have htotal : p.totalTicks = 256 * p.rep.toNat + p.remTicks := rfl
  omega

theorem realizedMs_of_tick_le (hw : cfg.wellFormed) (h : planDelay cfg (some x) = .ok p)
    (hx : tickMs cfg p.divider ≤ x) :
    p.realizedMs cfg = ((x / tickMs cfg p.divider).floor : Rat) * tickMs cfg p.divider := by
  have hfloor := (floor_ticks_pos_iff (tickMs_pos hw.1 p.divider)).mpr hx
  have hticks : (p.totalTicks : Int) = (x / tickMs cfg p.divider).floor := by
    rw [planDelay_totalTicks hw h, max_eq_right hfloor]
  rw [TimerPlan.realizedMs, ← hticks, Int.cast_natCast]

theorem realizedMs_of_lt_tick (hw : cfg.wellFormed) (h : planDelay cfg (some x) = .ok p)
    (hx : x < tickMs cfg p.divider) : p.realizedMs cfg = tickMs cfg p.divider := by
  have hfloor := (floor_ticks_pos_iff (tickMs_pos hw.1 p.divider)).not.mpr (not_le.mpr hx)
  have hticks : p.totalTicks = 1 := by
    have := planDelay_totalTicks hw h
    omega
  rw [TimerPlan.realizedMs, hticks, Nat.cast_one, one_mul]

end

/-- Settles O30: a plan lasts the request rounded down to whole ticks, or one tick where that would be none. -/
theorem planIsWithinOneTick : Obligations.PlanIsWithinOneTick := by
  intro cfg x p hw h
  have ht := tickMs_pos hw.1 p.divider
  refine ⟨planDelay_single_ticks hw h, fun hrep => ?_, fun hx => ?_, fun hx => ?_⟩
  · obtain ⟨hdiv, hticks, -⟩ := planDelay_multi_ticks hw h hrep
    exact ⟨hdiv, hticks, TimerPlan.totalTicks_divMod hrep⟩
  · rw [realizedMs_of_tick_le hw h hx]
    have hlow := floor_ticks_mul_le ht x
    have hhigh := lt_floor_ticks_add_one_mul ht x
    constructor <;> linarith
  · rw [realizedMs_of_lt_tick hw h hx]
    have h0 := (planDelay_ok hw h).1
    constructor <;> linarith

/-! The divider of a plan. -/

/-- A plan's divider covers the delay, or it is `D_MAX`. -/
theorem planDelay_divider_covers {cfg : UnitConfig} {x : Rat} {p : TimerPlan} (hw : cfg.wellFormed)
    (h : planDelay cfg (some x) = .ok p) : x ≤ maxDelay cfg p.divider ∨ p.divider = dMax cfg := by
  obtain ⟨-, -, -, ⟨hcovers, -⟩ | ⟨-, hdiv, -⟩⟩ := planDelay_ok hw h
  · exact .inl hcovers
  · exact .inr hdiv

/-- A divider below that of the plan does not cover the delay. -/
theorem maxDelay_lt_of_lt_divider {cfg : UnitConfig} {x : Rat} {p : TimerPlan} (hw : cfg.wellFormed)
    (h : planDelay cfg (some x) = .ok p) {d : Divider} (hd : d ∈ cfg.dividers) (hlt : d.value < p.divider.value) :
    maxDelay cfg d < x := by
  obtain ⟨-, -, -, ⟨-, -, -, hsmaller⟩ | ⟨hlong, -⟩⟩ := planDelay_ok hw h
  · exact hsmaller d hd hlt
  · exact hlong d hd

/-- Settles O31: a divider that covers the longer delay covers the shorter one too, so no larger one is chosen for it. -/
theorem dividerSelectionIsMonotonic : Obligations.DividerSelectionIsMonotonic := by
  intro cfg x y p q hw hxy hp hq
  obtain ⟨-, hpmem, -⟩ := planDelay_ok hw hp
  obtain ⟨-, hqmem, -⟩ := planDelay_ok hw hq
  rcases planDelay_divider_covers hw hq with hcovers | hmax
  · by_contra hlt
    have hshort : maxDelay cfg q.divider < x := maxDelay_lt_of_lt_divider hw hp hqmem (not_le.mp hlt)
    exact absurd (hxy.trans hcovers) (not_le.mpr hshort)
  · rw [hmax]
    exact (dMax_spec hw).2 _ hpmem

/-- Settles O32: a repeat count up to REPEAT_MAX leaves room for the one overflow more. -/
theorem plannerReturnsAPlan : Obligations.PlannerReturnsAPlan := by
  intro cfg x p hw h
  obtain ⟨-, hmem, hrange, -⟩ := planDelay_ok hw h
  obtain ⟨hcount, hpos⟩ := TimerPlan.overflowsToWait_spec hrange
  exact ⟨hmem, hrange, hpos, hcount⟩

/-! The errors, and the operation. -/

theorem val32_negative_zero : val32 0x80000000 = some 0 := by decide +kernel

theorem planDelay_invalidArgument_iff {cfg : UnitConfig} {x : Rat} :
    planDelay cfg (some x) = .error .invalidArgument ↔ x < 0 := by
  constructor
  · intro h
    rcases planDelay_error h with ⟨-, hneg⟩ | ⟨hrange, -⟩
    · exact hneg x rfl
    · cases hrange
  · exact fun hneg => if_pos hneg

/-- Settles O29: the argument check comes first and no other error of the planner is its answer. -/
theorem plannerRejectsBadDelays : Obligations.PlannerRejectsBadDelays :=
  fun _ => ⟨rfl, fun _ => planDelay_invalidArgument_iff, by rw [val32_negative_zero]⟩

/-- Settles O33: `PLAN_DELAY` returns the packed plan, or raises the planner's error, on the unit as it was. -/
theorem planDelayWritesOnlyTheResultRegisters : Obligations.PlanDelayWritesOnlyTheResultRegisters := by
  refine fun ms s => ⟨fun p h => ?_, fun e h => ?_⟩
  · have hop : opPlanDelay ms s.unit = .ok (s.unit, p.pack) := by rw [opPlanDelay, h]
    exact congrArg Host.Outcome.next (onUnit_eq <| finish_ok hop)
  · have hop : opPlanDelay ms s.unit = .error e := by rw [opPlanDelay, h]
    exact congrArg Host.Outcome.next (onUnit_eq <| finish_error hop)

end Sys2Proof.Machine
end

section
/-! The blocking timer of 42_blocking_timer.md: the start step (R151, R152), one poll (R153, R154), the delay of a plan
that `PLAN_DELAY` returned (R158), how long a delay lasts (R156), and the delay that never ends (R157). -/

namespace Sys2Proof.Machine

/-! One poll. -/

theorem btPoll_of_no_flag {u : TimerUnit} (hovf : u.regs.ovf = false) : btPoll u = u := by
  rcases btPoll_cases u with ⟨-, e⟩ | ⟨hset, -⟩ | ⟨hset, -⟩
  · exact e
  · cases hovf.symm.trans hset
  · cases hovf.symm.trans hset

theorem btPoll_of_last {u : TimerUnit} (hovf : u.regs.ovf = true) (hlast : u.bt.remaining = 1) :
    btPoll u = completeBlocking u := by
  rcases btPoll_cases u with ⟨hclear, -⟩ | ⟨-, -, e⟩ | ⟨-, hmore, -⟩
  · cases hovf.symm.trans hclear
  · exact e
  · exact absurd hlast hmore

theorem btPoll_of_more {u : TimerUnit} (hovf : u.regs.ovf = true) (hmore : u.bt.remaining ≠ 1) :
    btPoll u =
      { u with regs := { u.regs with ovf := false }, bt := { u.bt with remaining := u.bt.remaining - 1 } } := by
  rcases btPoll_cases u with ⟨hclear, -⟩ | ⟨-, hlast, -⟩ | ⟨-, -, e⟩
  · cases hovf.symm.trans hclear
  · exact absurd hlast hmore
  · exact e

theorem perform_poll {k : Nat} {s s' : State} (h : s.focus k = some s') :
    perform (.poll k) s = .next (s'.onUnit btPoll) := atUnit_some h

/-- Settles O13: the three cases of `btPoll` on the addressed unit. -/
theorem pollCountsOverflowsAndCompletes : Obligations.PollCountsOverflowsAndCompletes := by
  intro s
  rw [perform_poll (focus_selected s)]
  refine ⟨fun hovf => ?_, fun hovf hmore => ?_, fun hovf hlast => ?_⟩
  · exact congrArg Host.Outcome.next (onUnit_eq (btPoll_of_no_flag hovf))
  · exact congrArg Host.Outcome.next (onUnit_eq (btPoll_of_more hovf hmore))
  · exact congrArg Host.Outcome.next (onUnit_eq (btPoll_of_last hovf hlast))

/-! The start step. -/

/-- A partial period remains unless the plan is whole periods (41_delay_planner.md R136). -/
theorem TimerPlan.remTicks_pos_iff (p : TimerPlan) : 0 < p.remTicks ↔ p.rep = 0 ∨ p.preload ≠ 0 := by
  have hlt := p.preload.isLt
  have hzero : p.preload = 0 ↔ p.preload.toNat = 0 := BitVec.toNat_inj.symm
  by_cases hrep : p.rep = 0
  · rw [TimerPlan.remTicks, if_pos hrep]
    exact iff_of_true (Nat.sub_pos_of_lt hlt) (.inl hrep)
  · rw [TimerPlan.multi_ticks hrep, or_iff_right hrep, ne_eq, hzero]
    omega

theorem TimerPlan.overflowsToWait_eq (p : TimerPlan) :
    p.overflowsToWait = p.rep + (if p.rep = 0 ∨ p.preload ≠ 0 then 1 else 0) := by
  simp only [TimerPlan.overflowsToWait, p.remTicks_pos_iff]

theorem TimerPlan.overflowsToWait_ne_zero {p : TimerPlan} (h : p.rep.toNat ≤ repeatMax) : p.overflowsToWait ≠ 0 := by
  intro hz
  have hpos := (TimerPlan.overflowsToWait_spec h).2
  simp [hz] at hpos

/-- Operands do not both pass and fail the check. -/
theorem not_unsupported {cfg : UnitConfig} {cs : ClockCode} {rep : Word32} {d : Divider} (hd : divOf cs = some d)
    (hmem : d ∈ cfg.dividers) (hrep : rep.toNat ≤ repeatMax) :
    ¬(cs = 0 ∨ (∀ d, divOf cs = some d → d ∉ cfg.dividers) ∨ repeatMax < rep.toNat) := by
  rintro (rfl | hnot | hover)
  · cases (divOf_eq_none.mpr rfl).symm.trans hd
  · exact hnot d hd hmem
  · exact absurd hrep (not_le.mpr hover)

/-- Operands that pass the check start the executor. -/
theorem exec_delayBlocking_of_supported {cs : ClockCode} {p : TimerPlan} {s : State} (hd : divOf cs = some p.divider)
    (hmem : p.divider ∈ s.unit.cfg.dividers) (hrep : p.rep.toNat ≤ repeatMax) :
    exec (.delayBlocking cs p.preload p.rep) s = .next (s.onUnit (startBlocking p)) := by
  refine congrArg Host.Outcome.next (onUnit_eq ?_)
  rcases opDelayBlocking_cases cs p.preload p.rep s.unit with ⟨d, hd', -, -, e⟩ | ⟨hbad, -⟩
  · obtain rfl : p.divider = d := Option.some.inj (hd.symm.trans hd')
    exact e
  · exact absurd hbad (not_unsupported hd hmem hrep)

/-- Operands that fail the check raise InvalidArgument. -/
theorem exec_delayBlocking_of_unsupported {cs : ClockCode} {preload : Byte} {rep : Word32} {s : State}
    (hbad : cs = 0 ∨ (∀ d, divOf cs = some d → d ∉ s.unit.cfg.dividers) ∨ repeatMax < rep.toNat) :
    exec (.delayBlocking cs preload rep) s = .next (s.onUnit (TimerUnit.raise .invalidArgument)) := by
  refine congrArg Host.Outcome.next (onUnit_eq ?_)
  rcases opDelayBlocking_cases cs preload rep s.unit with ⟨d, hd, hmem, hrep, -⟩ | ⟨-, e⟩
  · exact absurd hbad (not_unsupported hd hmem hrep)
  · exact e

/-- Settles O34: the operand check has two outcomes, and the overflows to wait for are at least one. -/
theorem delayBlockingStartsTheExecutor : Obligations.DelayBlockingStartsTheExecutor := by
  refine fun cs preload rep s => ⟨fun d hd hmem hrep => ?_, fun hbad => exec_delayBlocking_of_unsupported hbad⟩
  have hstart := exec_delayBlocking_of_supported (p := ⟨d, preload, rep⟩) hd hmem hrep
  have hwait := TimerPlan.overflowsToWait_eq ⟨d, preload, rep⟩
  refine ⟨hstart.trans ?_, hwait ▸ TimerPlan.overflowsToWait_ne_zero hrep⟩
  rw [State.onUnit, startBlocking, hwait, code_of_divOf hd]

/-! The delay of a planned plan. -/

/-- The reserved zeros of a packed plan go into the reserved zeros of the word. -/
theorem opcode_append_operands (op : Byte) (cs : ClockCode) (preload : Byte) (rep : Word32) :
    op ++ (0#13 ++ cs ++ preload ++ rep) = op ++ 0#13 ++ cs ++ preload ++ rep :=
  calc op ++ (0#13 ++ cs ++ preload ++ rep)
    _ = op ++ (0#13 ++ cs ++ preload) ++ rep := BitVec.append_assoc.symm
    _ = op ++ (0#13 ++ cs) ++ preload ++ rep := congrArg (· ++ rep) BitVec.append_assoc.symm
    _ = op ++ 0#13 ++ cs ++ preload ++ rep := congrArg (· ++ preload ++ rep) BitVec.append_assoc.symm

theorem delayWord_pack (p : TimerPlan) :
    delayWord p.pack = encode (.delayBlocking p.divider.code p.preload p.rep) := by
  have hpack : p.pack = 0#8 ++ (0#13 ++ p.divider.code ++ p.preload ++ p.rep) :=
    (opcode_append_operands 0#8 p.divider.code p.preload p.rep).symm
  rw [delayWord, hpack, extract_low]
  exact opcode_append_operands 0x02#8 p.divider.code p.preload p.rep

/-- Status 0 says that the planner returned a plan, and the plan is in `res_value`. -/
theorem planDelay_of_status_zero {ms : Word32} {s t : State} (h : exec (.planDelay ms) s = .next t)
    (hstatus : t.unit.res.status = 0) :
    ∃ p, planDelay s.unit.cfg (val32 ms) = .ok p ∧ t = s.onUnit (TimerUnit.ret p.pack) := by
  obtain ⟨hok, herror⟩ := planDelayWritesOnlyTheResultRegisters ms s
  cases hplan : planDelay s.unit.cfg (val32 ms) with
  | ok p =>
    rw [hok p hplan] at h
    cases h
    exact ⟨p, rfl, rfl⟩
  | error e =>
    rw [herror e hplan] at h
    cases h
    exact absurd hstatus e.code_ne_zero

theorem delayBlocking_wellFormed {cfg : UnitConfig} {p : TimerPlan} (hmem : p.divider ∈ cfg.dividers)
    (hrep : p.rep.toNat ≤ repeatMax) :
    (Instr.delayBlocking p.divider.code p.preload p.rep).wellFormed cfg = true := by
  have hsupported : codeSupported cfg p.divider.code = true := codeSupported_iff.mpr (clock_of_mem hmem)
  simp only [Instr.wellFormed, hsupported, Bool.and_true, Bool.and_eq_true, decide_eq_true_eq]
  exact ⟨p.divider.code_ne_zero, hrep⟩

/-- Every plan of the planner passes the operand check. -/
theorem planDelay_supported {cfg : UnitConfig} {x : Option Rat} {p : TimerPlan} (hw : cfg.wellFormed)
    (h : planDelay cfg x = .ok p) : p.divider ∈ cfg.dividers ∧ p.rep.toNat ≤ repeatMax := by
  cases x with
  | none => cases h
  | some x =>
    obtain ⟨hmem, hrep, -⟩ := plannerReturnsAPlan cfg x p hw h
    exact ⟨hmem, hrep⟩

/-- Settles O6: the word is the encoding of the plan's operation, and every plan of the planner passes its check. -/
theorem plannedDelayIsAccepted : Obligations.PlannedDelayIsAccepted := by
  intro ms s t hw h hstatus
  obtain ⟨p, hplan, rfl⟩ := planDelay_of_status_zero h hstatus
  obtain ⟨hmem, hrep⟩ := planDelay_supported hw hplan
  refine ⟨p, hplan, ?_, delayBlocking_wellFormed hmem hrep, _,
    exec_delayBlocking_of_supported (divOf_code _) hmem hrep, rfl⟩
  exact (congrArg decode (delayWord_pack p)).trans (decodeInvertsEncode _)

end Sys2Proof.Machine
end

section
/-! How long a blocking delay lasts (42_blocking_timer.md R156). A delay under PROMPT with no interrupt to take has only
one step at a time: the tick while `OVF` is clear, the poll while it is set. `Delaying` is what each step but the last
keeps, and `delaySteps` counts them. -/

namespace Sys2Proof.Machine

/-! The ticks a delay has left. -/

/-- The ticks until the counter overflows; none where the flag is set already. -/
def TimerUnit.ticksToOverflow (u : TimerUnit) : Nat := if u.regs.ovf then 0 else 256 - u.regs.count.toNat

/-- The ticks until the delay completes: the present period, then one full period for each further overflow. -/
def TimerUnit.delayTicks (u : TimerUnit) : Nat := u.ticksToOverflow + 256 * (u.bt.remaining.toNat - 1)

/-- The steps until the delay completes: its ticks, and one poll for each overflow. -/
def TimerUnit.delaySteps (u : TimerUnit) : Nat := u.delayTicks + u.bt.remaining.toNat

theorem ticksToOverflow_of_flag {u : TimerUnit} (h : u.regs.ovf = true) : u.ticksToOverflow = 0 := by
  rw [TimerUnit.ticksToOverflow, if_pos h]

theorem ticksToOverflow_of_clear {u : TimerUnit} (h : u.regs.ovf = false) :
    u.ticksToOverflow = 256 - u.regs.count.toNat := by
  simp [TimerUnit.ticksToOverflow, h]

/-- A tick takes one from the ticks left. -/
theorem ticksToOverflow_tick {u : TimerUnit} (h : u.regs.ovf = false) :
    (tick u).ticksToOverflow + 1 = u.ticksToOverflow := by
  rw [ticksToOverflow_of_clear h]
  rcases count_succ_cases u.regs.count with ⟨hwrap, hmax⟩ | ⟨hnowrap, hsucc⟩
  · rw [ticksToOverflow_of_flag ((tick_ovf u).mpr (.inr hwrap)), hmax]
  · have hclear : (tick u).regs.ovf = false := by
      rw [tick_regs_ovf, ovfAfterTick, h, Bool.false_or, decide_eq_false hnowrap]
    have hlt := (u.regs.count + 1).isLt
    rw [ticksToOverflow_of_clear hclear, tick_regs_count]
    omega

theorem delayTicks_tick {u : TimerUnit} (h : u.regs.ovf = false) : (tick u).delayTicks + 1 = u.delayTicks := by
  have htick := ticksToOverflow_tick h
  unfold TimerUnit.delayTicks
  rw [tick_bt]
  omega

theorem delaySteps_tick {u : TimerUnit} (h : u.regs.ovf = false) : (tick u).delaySteps + 1 = u.delaySteps := by
  have hticks := delayTicks_tick h
  rw [TimerUnit.delaySteps, TimerUnit.delaySteps, tick_bt]
  omega

/-- A poll that counts an overflow but not the last begins a full period, which was counted already. -/
theorem delayTicks_btPoll {u : TimerUnit} (hovf : u.regs.ovf = true) (hwrapped : u.regs.count = 0)
    (hwaiting : u.bt.remaining ≠ 0) (hmore : u.bt.remaining ≠ 1) :
    (btPoll u).delayTicks = u.delayTicks ∧ (btPoll u).bt.remaining.toNat + 1 = u.bt.remaining.toNat := by
  rw [btPoll_of_more hovf hmore, TimerUnit.delayTicks, TimerUnit.delayTicks, ticksToOverflow_of_flag hovf,
    ticksToOverflow_of_clear rfl]
  have hcount : u.regs.count.toNat = 0 := by rw [hwrapped]; rfl
  have hpred : (u.bt.remaining - 1).toNat + 1 = u.bt.remaining.toNat := by bv_omega
  have htwo : 2 ≤ u.bt.remaining.toNat := by bv_omega
  dsimp only
  omega

/-- The start step leaves the ticks of the plan. -/
theorem delayTicks_startBlocking {p : TimerPlan} (hrep : p.rep.toNat ≤ repeatMax) (u : TimerUnit) :
    (startBlocking p u).delayTicks = p.totalTicks := by
  have hfirst : (startBlocking p u).ticksToOverflow = 256 - p.preload.toNat := ticksToOverflow_of_clear rfl
  have hlt := p.preload.isLt
  rw [TimerUnit.delayTicks, hfirst, startBlocking_bt]
  by_cases hz : p.rep = 0
  · obtain ⟨hticks, hwait⟩ := TimerPlan.single_ticks hz
    rw [hticks, hwait]
    rfl
  · have hpos : p.rep.toNat ≠ 0 := fun hc => hz (BitVec.eq_of_toNat_eq hc)
    have hwait := (TimerPlan.overflowsToWait_spec hrep).1
    rw [TimerPlan.totalTicks, hwait, TimerPlan.multi_ticks hz]
    split <;> omega

/-! The state during the delay, and at its end. -/

/-- The one unit of the system is inside a blocking delay under PROMPT, no interrupt can be taken, and the input offers
ticks, one more than the delay needs. A set flag is that of the wrap just made, since the poll comes before the next
tick. -/
structure Delaying (s : State) : Prop where
  before : s.before = []
  after : s.after = []
  policy : s.policy = .prompt
  masked : s.gie = false ∨ (s.unit.regs.ovfIe = false ∧ s.unit.regs.cmpIe = false)
  running : s.unit.regs.cs ≠ 0
  active : s.unit.bt.active = true
  waiting : s.unit.bt.remaining ≠ 0
  wrapped : s.unit.regs.ovf = true → s.unit.regs.count = 0
  turns : s.turns = List.replicate (s.unit.delayTicks + 1) (.tick 0)

/-- The end state of 42_blocking_timer.md R154, with one tick of the input unused. -/
def DelayDone (s : State) : Prop :=
  s.turns = [.tick 0] ∧ s.unit.bt = ⟨false, 0⟩ ∧ s.unit.regs.cs = 0 ∧ s.unit.regs.count = 0 ∧ s.unit.regs.ovf = false ∧
    s.unit.owner = .idle ∧ s.unit.res = ⟨0, 0⟩

theorem runSteps_succ {s t : State} (h : step s = .next t) (n : Nat) : runSteps (n + 1) s = runSteps n t := by
  rw [runSteps, h]

theorem focus_zero {s : State} (h : s.before = []) : s.focus 0 = some s := by
  have hzero : s.selected = 0 := by rw [State.selected, h, List.length_nil]
  rw [← hzero, focus_selected]

theorem not_eligible_of_masked {gie : Bool} {u : TimerUnit}
    (h : gie = false ∨ (u.regs.ovfIe = false ∧ u.regs.cmpIe = false)) (src : Source) : eligible gie u src = false := by
  rcases h with rfl | ⟨hovf, hcmp⟩
  · simp [eligible]
  · cases src <;> simp [eligible, Regs.enabled, hovf, hcmp]

namespace Delaying

variable {s : State}

theorem allUnits (h : Delaying s) : s.allUnits = [s.unit] := by rw [State.allUnits, h.before, h.after, List.nil_append]

theorem no_interrupt (h : Delaying s) : ¬InterruptWaiting s := by
  rintro ⟨u, hu, src, hsrc⟩
  obtain rfl : u = s.unit := List.mem_singleton.mp (h.allUnits ▸ hu)
  cases (not_eligible_of_masked h.masked src).symm.trans hsrc

theorem pollWaiting_iff (h : Delaying s) : PollWaiting s ↔ s.unit.regs.ovf = true := by
  simp only [PollWaiting, h.allUnits, List.mem_singleton, exists_eq_left, h.active, true_and]

/-- While the flag is clear the next step is a tick. -/
theorem step_of_clear (h : Delaying s) (hovf : s.unit.regs.ovf = false) :
    step s = .next (({ s with turns := List.replicate s.unit.delayTicks (.tick 0) } : State).onUnit tick) := by
  have hmay : MayComeNext s (.tick 0) :=
    ⟨⟨s.unit, by rw [h.allUnits]; rfl, h.running⟩, fun _ => ⟨h.no_interrupt, by simp [h.pollWaiting_iff, hovf]⟩⟩
  rw [step_of_turn h.turns (allowed_iff.mpr hmay)]
  exact perform_tick (focus_zero h.before)

theorem poll_allowed (h : Delaying s) (hovf : s.unit.regs.ovf = true) : allowed s (.poll 0) = true :=
  allowed_iff.mpr ⟨⟨s.unit, by rw [h.allUnits]; rfl, h.active, hovf⟩, fun _ => h.no_interrupt⟩

theorem poll_candidate (h : Delaying s) : .poll 0 ∈ s.candidates := by simp [State.candidates, h.allUnits]

/-- While the flag is set no other step of the block may come. -/
theorem eq_poll_of_allowed (h : Delaying s) (hovf : s.unit.regs.ovf = true) {a : Turn} (ha : allowed s a = true)
    (hmem : a ∈ s.candidates) : a = .poll 0 := by
  have hpoll : PollWaiting s := h.pollWaiting_iff.mpr hovf
  obtain ⟨henabled, hprompt⟩ := allowed_iff.mp ha
  cases a with
  | host => exact absurd hpoll (hprompt h.policy).2
  | tick k => exact absurd hpoll (hprompt h.policy).2
  | dispatch k =>
    obtain ⟨u, hu, hsrc⟩ := henabled
    exact absurd ⟨u, List.mem_of_getElem? hu, hsrc⟩ h.no_interrupt
  | poll k => simpa [State.candidates, h.allUnits] using hmem
  | pinWrite k p st => simp [State.candidates] at hmem

/-- While the flag is set the next step is a poll, and the offered tick goes on waiting. -/
theorem step_of_flag (h : Delaying s) (hovf : s.unit.regs.ovf = true) : step s = .next (s.passTurn.onUnit btPoll) := by
  have hwaits : ¬allowed s s.waitingTurn = true := by
    have hwaiting : s.waitingTurn = .tick 0 := by rw [State.waitingTurn, h.turns]; rfl
    rw [hwaiting]
    intro ha
    exact absurd (h.pollWaiting_iff.mpr hovf) ((allowed_iff.mp ha).2 h.policy).2
  rcases chooseStep_cases s with ⟨ha, -⟩ | ⟨-, a, hturn, e⟩ | ⟨-, hnone, -⟩
  · exact absurd ha hwaits
  · obtain ⟨ha, hmem⟩ := turnInOrder_some hturn
    obtain rfl := h.eq_poll_of_allowed hovf ha hmem
    rw [step, stepOnce, e]
    exact perform_poll (focus_zero h.before)
  · cases (turnInOrder_none.mp hnone _ h.poll_candidate).symm.trans (h.poll_allowed hovf)

/-- A tick of the delay. -/
theorem after_tick (h : Delaying s) (hovf : s.unit.regs.ovf = false) :
    Delaying (({ s with turns := List.replicate s.unit.delayTicks (.tick 0) } : State).onUnit tick) :=
  { h with
    wrapped := fun hset => by
      rcases (tick_ovf s.unit).mp hset with hc | hwrap
      · cases hovf.symm.trans hc
      · exact hwrap
    turns := congrArg (List.replicate · (Turn.tick 0)) (delayTicks_tick hovf).symm }

/-- A poll that counts an overflow but not the last. -/
theorem after_poll (h : Delaying s) (hovf : s.unit.regs.ovf = true) (hmore : s.unit.bt.remaining ≠ 1) :
    Delaying (s.passTurn.onUnit btPoll) ∧ (btPoll s.unit).delaySteps + 1 = s.unit.delaySteps := by
  obtain ⟨hticks, hcounted⟩ := delayTicks_btPoll hovf (h.wrapped hovf) h.waiting hmore
  refine ⟨?_, by rw [TimerUnit.delaySteps, TimerUnit.delaySteps, hticks]; omega⟩
  have hturns : s.turns = List.replicate ((btPoll s.unit).delayTicks + 1) (.tick 0) := hticks ▸ h.turns
  have hpoll := btPoll_of_more hovf hmore
  rw [hpoll] at hturns
  rw [onUnit_eq (s := s.passTurn) hpoll]
  exact { h with
    waiting := fun hz => hmore (by simpa using sub_eq_zero.mp hz)
    wrapped := nofun
    turns := hturns }

/-- The poll that counts the last overflow. -/
theorem done_of_last (h : Delaying s) (hovf : s.unit.regs.ovf = true) (hlast : s.unit.bt.remaining = 1) :
    DelayDone (s.passTurn.onUnit btPoll) ∧ s.unit.delaySteps = 1 := by
  have hticks : s.unit.delayTicks = 0 := by rw [TimerUnit.delayTicks, ticksToOverflow_of_flag hovf, hlast]; rfl
  refine ⟨?_, by rw [TimerUnit.delaySteps, hticks, hlast]; rfl⟩
  have hturns := h.turns
  rw [hticks] at hturns
  rw [onUnit_eq (btPoll_of_last (u := s.passTurn.unit) hovf hlast)]
  exact ⟨hturns, rfl, rfl, h.wrapped hovf, rfl, rfl, rfl⟩

/-- One step of a delay: it goes on with one step fewer to come, or it was the last. -/
theorem step_next (h : Delaying s) : ∃ t, step s = .next t ∧
    ((Delaying t ∧ t.unit.delaySteps + 1 = s.unit.delaySteps) ∨ (DelayDone t ∧ s.unit.delaySteps = 1)) := by
  cases hovf : s.unit.regs.ovf with
  | false => exact ⟨_, h.step_of_clear hovf, .inl ⟨h.after_tick hovf, delaySteps_tick hovf⟩⟩
  | true =>
    refine ⟨_, h.step_of_flag hovf, ?_⟩
    by_cases hlast : s.unit.bt.remaining = 1
    · exact .inr (h.done_of_last hovf hlast)
    · exact .inl (h.after_poll hovf hlast)

theorem delaySteps_pos (h : Delaying s) : 0 < s.unit.delaySteps := by
  have hpos : s.unit.bt.remaining.toNat ≠ 0 := fun hz => h.waiting (BitVec.eq_of_toNat_eq hz)
  rw [TimerUnit.delaySteps]
  omega

/-- The delay is done after just its steps, and at no earlier point. -/
theorem runs (h : Delaying s) {n : Nat} (hn : s.unit.delaySteps = n) :
    ∃ t, runSteps n s = .next t ∧ DelayDone t ∧
      ∀ m r, m < n → runSteps m s = .next r → r.unit.bt.active = true := by
  induction n generalizing s with
  | zero => exact absurd hn h.delaySteps_pos.ne'
  | succ n ih =>
    have hstart : ∀ r, runSteps 0 s = .next r → r.unit.bt.active = true := by
      rintro r hr
      cases hr
      exact h.active
    obtain ⟨t, hstep, ⟨ht, hfewer⟩ | ⟨hdone, hone⟩⟩ := h.step_next
    · obtain ⟨t', hrun, hdone, hbefore⟩ := ih ht (by omega)
      refine ⟨t', (runSteps_succ hstep n).trans hrun, hdone, fun m r hm hr => ?_⟩
      cases m with
      | zero => exact hstart r hr
      | succ m => exact hbefore m r (by omega) ((runSteps_succ hstep m).symm.trans hr)
    · obtain rfl : n = 0 := by omega
      refine ⟨t, runSteps_succ hstep 0, hdone, fun m r hm hr => ?_⟩
      obtain rfl : m = 0 := by omega
      exact hstart r hr

end Delaying

/-- The state after the start step, with the ticks of the plan and one more on offer. -/
theorem delaying_startBlocking {s : State} {p : TimerPlan} (hbefore : s.before = []) (hafter : s.after = [])
    (hpolicy : s.policy = .prompt) (hmasked : s.gie = false ∨ (s.unit.regs.ovfIe = false ∧ s.unit.regs.cmpIe = false))
    (hrep : p.rep.toNat ≤ repeatMax) (hturns : s.turns = List.replicate (p.totalTicks + 1) (.tick 0)) :
    Delaying (s.onUnit (startBlocking p)) where
  before := hbefore
  after := hafter
  policy := hpolicy
  masked := hmasked
  running := p.divider.code_ne_zero
  active := rfl
  waiting := TimerPlan.overflowsToWait_ne_zero hrep
  wrapped := nofun
  turns := by
    rw [State_onUnit_turns, State_onUnit_unit, delayTicks_startBlocking hrep]
    exact hturns

/-- Settles O35: the start step leaves the ticks and the polls of the plan, and each step of the delay uses up one. -/
theorem blockingDelayLastsItsTotalTicks : Obligations.BlockingDelayLastsItsTotalTicks := by
  intro s t cs p hbefore hafter hpolicy hmasked hd hmem hrep hturns hexec
  rw [exec_delayBlocking_of_supported hd hmem hrep] at hexec
  cases hexec
  have hdelay := delaying_startBlocking hbefore hafter hpolicy hmasked hrep hturns
  have hsteps : (s.onUnit (startBlocking p)).unit.delaySteps = p.totalTicks + p.overflowsToWait.toNat := by
    rw [State_onUnit_unit, TimerUnit.delaySteps, delayTicks_startBlocking hrep, startBlocking_bt]
  obtain ⟨t', hrun, ⟨hticks, hbt, hcs, hcount, hovf, howner, hres⟩, hactive⟩ := hdelay.runs hsteps
  exact ⟨t', hrun, hticks, hbt, hcs, hcount, hovf, howner, hres, hactive⟩

end Sys2Proof.Machine
end

section
/-! The blocking delay that never ends (42_blocking_timer.md R157): with the overflow interrupt live the dispatcher takes
each overflow before a poll may come, and the handler body does nothing for `owner` = BLOCKING. -/

namespace Sys2Proof.Machine

/-- What a live overflow interrupt leaves of a unit in a blocking delay: the overflows to wait for, the owner and the
enabled interrupt. -/
def Starved (u u' : TimerUnit) : Prop := u'.bt = u.bt ∧ u'.owner = .blocking ∧ u'.regs.ovfIe = true

/-- The unit of a number after acting on the addressed unit: what acting leaves of the addressed one, and itself else. -/
theorem ActsOnUnit.getElem? {r s t : State} {j k : Nat} {u : TimerUnit} {P : TimerUnit → Prop} (hact : ActsOnUnit s t)
    (hfocus : r.focus j = some s) (hu : r.allUnits[k]? = some u) (hsame : P u)
    (haddressed : j = k → s.unit = u → P t.unit) : ∃ u', t.allUnits[k]? = some u' ∧ P u' := by
  obtain ⟨hj, hselected, hall, -⟩ := focus_some hfocus
  rw [hact.allUnits, onUnit_getElem?, hselected]
  by_cases hk : k = j
  · subst hk
    rw [if_pos rfl]
    exact ⟨_, rfl, haddressed rfl (Option.some.inj (hj.symm.trans hu))⟩
  · rw [if_neg hk, hall]
    exact ⟨u, hu, hsame⟩

theorem focus_gie {s s' : State} {k : Nat} (h : s.focus k = some s') : s'.gie = s.gie := by
  obtain ⟨-, -, -, hgie, -⟩ := focus_some h
  exact hgie

/-- Neither handler body does anything for `owner` = BLOCKING. -/
theorem handlerBody_blocking (src : Source) {s : State} (h : s.unit.owner = .blocking) : handlerBody src s = s := by
  cases src <;> simp only [handlerBody, overflowBody, compareBody, h]

theorem clearFlag_ovfIe (r : Regs) (src : Source) : (r.clearFlag src).ovfIe = r.ovfIe := by cases src <;> rfl

theorem irqDispatch_starved {s : State} (howner : s.unit.owner = .blocking) (hlive : s.unit.regs.ovfIe = true) :
    Starved s.unit (irqDispatch s).unit := by
  rcases irqDispatch_cases s with ⟨-, e⟩ | ⟨src, -, -, e⟩ <;> rw [e]
  · exact ⟨rfl, howner, hlive⟩
  · rw [takeInterrupt, handlerBody_blocking src (s := enterHandler src s) howner]
    exact ⟨rfl, howner, (clearFlag_ovfIe _ _).trans hlive⟩

/-- An overflow that a poll would see is an interrupt that comes first. -/
theorem no_poll_of_live {s : State} {k : Nat} {u : TimerUnit} (hpolicy : s.policy = .prompt) (hgie : s.gie = true)
    (hu : s.allUnits[k]? = some u) (hlive : u.regs.ovfIe = true) : ¬MayComeNext s (.poll k) := by
  rintro ⟨⟨u', hu', -, hovf⟩, hprompt⟩
  obtain rfl : u = u' := Option.some.inj (hu.symm.trans hu')
  have heligible : eligible s.gie u .overflow = true := by simp [eligible, Regs.pending, Regs.enabled, hovf, hlive, hgie]
  exact hprompt hpolicy ⟨u, List.mem_of_getElem? hu, .overflow, heligible⟩

/-- Whoever steps, but the host and the poll of the unit itself, starves the unit. -/
theorem perform_starved {r t : State} {a : Turn} {k : Nat} {u : TimerUnit} (hgie : r.gie = true)
    (hu : r.allUnits[k]? = some u) (howner : u.owner = .blocking) (hlive : u.regs.ovfIe = true) (hhost : a ≠ .host)
    (hpoll : a ≠ .poll k) (h : perform a r = .next t) :
    t.gie = true ∧ ∃ u', t.allUnits[k]? = some u' ∧ Starved u u' := by
  have hsame : Starved u u := ⟨rfl, howner, hlive⟩
  have honUnit : ∀ {j s' f}, r.focus j = some s' → UnitChange s'.unit (f s'.unit) → (j = k → Starved u (f u)) →
      (s'.onUnit f).gie = true ∧ ∃ u', (s'.onUnit f).allUnits[k]? = some u' ∧ Starved u u' := by
    intro j s' f hf hchange hstarved
    refine ⟨(focus_gie hf).trans hgie, (ActsOnUnit.onUnit hchange).getElem? hf hu hsame ?_⟩
    rintro hj rfl
    exact hstarved hj
  rcases perform_cases h with ⟨rfl, -⟩ | ⟨rfl, -⟩ | ⟨j, s', rfl, hf, rfl⟩ | ⟨j, s', rfl, hf, rfl⟩ |
    ⟨j, s', rfl, hf, rfl⟩ | ⟨j, p, st, s', rfl, hf, rfl⟩
  · exact absurd rfl hhost
  · exact absurd rfl hhost
  · exact honUnit hf (.tick _) fun _ => hsame
  · exact honUnit hf (.btPoll _) fun hj => absurd (congrArg Turn.poll hj) hpoll
  · have hg : s'.gie = true := (focus_gie hf).trans hgie
    refine ⟨(irqDispatch_gie s').trans hg, (ActsOnUnit.irqDispatch s').getElem? hf hu hsame ?_⟩
    rintro - rfl
    exact irqDispatch_starved howner hlive
  · exact honUnit hf (.writePin p st _) fun _ => hsame

/-- Settles O36: the host is blocked, the unit's own poll waits behind the interrupt, and no other step moves the
delay. -/
theorem liveOverflowInterruptStarvesABlockingDelay : Obligations.LiveOverflowInterruptStarvesABlockingDelay := by
  intro s t k u hpolicy hgie hu hactive howner hlive hstep
  have hkept : t.policy = s.policy := congrArg Prod.fst (stepKeepsTheParameters s t hstep)
  refine ⟨hkept.trans hpolicy, ?_⟩
  rcases step_cases s with ⟨e, -⟩ | ⟨a, r, ha, hr, e⟩ <;> rw [e] at hstep
  · cases hstep
    exact ⟨hgie, u, hu, rfl, howner, hlive⟩
  · obtain ⟨hunits, hgier⟩ : r.allUnits = s.allUnits ∧ r.gie = s.gie := by rcases hr with rfl | rfl <;> simp
    have hmay := allowed_iff.mp ha
    refine perform_starved (hgier.trans hgie) (hunits ▸ hu) howner hlive ?_ ?_ hstep
    · rintro rfl
      obtain ⟨⟨-, hidle⟩, -⟩ := hmay
      cases hactive.symm.trans (hidle u (List.mem_of_getElem? hu))
    · rintro rfl
      exact no_poll_of_live hpolicy hgie hu hlive hmay

end Sys2Proof.Machine
end

section
/-! The operations and the overflow service of 43_pwm_engine.md: `PWM_CONFIGURE` (R171), the phase times (R173),
`PWM_START` with its errors and its two transitions (R172 to R176), `PWM_STOP` (R177) and the service (R178). -/

namespace Sys2Proof.Machine

/-! An operation on the addressed unit, issued by the host. -/

theorem exec_of_plainOp {i : Instr} {op : TimerUnit → OpResult} (h : plainOp i = some op) (s : State) :
    exec i s = .next (s.onUnit (finish op)) := by
  cases i <;> cases h <;> rfl

theorem exec_plain_ok {i : Instr} {op : TimerUnit → OpResult} {s : State} {u' : TimerUnit} {v : Word}
    (hi : plainOp i = some op) (h : op s.unit = .ok (u', v)) : exec i s = .next { s with unit := u'.ret v } :=
  (exec_of_plainOp hi s).trans (congrArg Host.Outcome.next (onUnit_eq (finish_ok h)))

theorem exec_plain_error {i : Instr} {op : TimerUnit → OpResult} {s : State} {e : ErrorCode}
    (hi : plainOp i = some op) (h : op s.unit = .error e) : exec i s = .next { s with unit := s.unit.raise e } :=
  (exec_of_plainOp hi s).trans (congrArg Host.Outcome.next (onUnit_eq (finish_error h)))

/-! `PWM_CONFIGURE`. -/

theorem opPwmConfigure_of_pos {pin : PinRef} {khz : Word32} {f : Rat} (hf : val32 khz = some f) (hpos : 0 < f)
    (u : TimerUnit) :
    opPwmConfigure pin khz u =
      .ok (({ u with
              pwm := { u.pwm with config := some { pin := pin, periodMs := 1 / f } }
              regs := { u.regs with ovfIe := true } } : TimerUnit).configurePin pin .output, 0) := by
  simp only [opPwmConfigure, hf, if_neg (not_le.mpr hpos)]

theorem opPwmConfigure_of_not_pos {khz : Word32} (h : ∀ f, val32 khz = some f → f ≤ 0) (pin : PinRef) (u : TimerUnit) :
    opPwmConfigure pin khz u = .error .invalidArgument := by
  cases hf : val32 khz with
  | none => simp only [opPwmConfigure, hf]
  | some f => simp only [opPwmConfigure, hf, if_pos (h f hf)]

/-- Settles O37: the frequency operand passes the check of R171 or fails it. -/
theorem pwmConfigureStoresPinAndPeriod : Obligations.PwmConfigureStoresPinAndPeriod :=
  fun pin _ s => ⟨fun _ hf hpos => exec_plain_ok rfl (opPwmConfigure_of_pos hf hpos s.unit),
    fun h => exec_plain_error rfl (opPwmConfigure_of_not_pos h pin s.unit)⟩

/-! The phase times. -/

theorem onTime_add_offTime (t : Rat) (duty : Byte) : onTime t duty + offTime t duty = t := add_sub_cancel _ _

theorem onTime_fifty (t : Rat) : onTime t 50 = t / 2 := by
  have hfifty : (50 : Byte).toNat = 50 := rfl
  rw [onTime, hfifty, Nat.cast_ofNat]
  ring

/-- Settles O38: the off time is defined as what the on time leaves of the period. -/
theorem onAndOffTimesSumToThePeriod : Obligations.OnAndOffTimesSumToThePeriod := by
  refine ⟨fun t duty => ⟨rfl, onTime_add_offTime t duty⟩, fun t => ⟨onTime_fifty t, ?_⟩⟩
  rw [offTime, onTime_fifty, sub_half]

/-! The phase plans. -/

theorem phasePlans_of_short {cfg : UnitConfig} {t : Rat} {duty : Byte}
    (h : onTime t duty < minDelay cfg (dMin cfg) ∨ offTime t duty < minDelay cfg (dMin cfg)) :
    phasePlans cfg t duty = .error .frequencyOutOfRange := by
  rw [phasePlans, if_pos h]

section
variable {cfg : UnitConfig} {t : Rat} {duty : Byte} (hon : minDelay cfg (dMin cfg) ≤ onTime t duty)
  (hoff : minDelay cfg (dMin cfg) ≤ offTime t duty)

include hon hoff in
theorem phasePlans_of_planned {a b : TimerPlan} (ha : planDelay cfg (some (onTime t duty)) = .ok a)
    (hb : planDelay cfg (some (offTime t duty)) = .ok b) (har : a.rep = 0) (hbr : b.rep = 0) :
    phasePlans cfg t duty = .ok (a, b) := by
  rw [phasePlans, if_neg (not_or.mpr ⟨not_lt.mpr hon, not_lt.mpr hoff⟩), ha, hb]
  exact if_pos ⟨har, hbr⟩

include hon hoff in
theorem phasePlans_of_unplanned
    (h : ¬∃ a b, planDelay cfg (some (onTime t duty)) = .ok a ∧ planDelay cfg (some (offTime t duty)) = .ok b ∧
      a.rep = 0 ∧ b.rep = 0) : phasePlans cfg t duty = .error .unsupportedRange := by
  rw [phasePlans, if_neg (not_or.mpr ⟨not_lt.mpr hon, not_lt.mpr hoff⟩)]
  split
  · rename_i a b ha hb
    exact if_neg fun hr => h ⟨a, b, ha, hb, hr⟩
  · rfl

end

/-! `PWM_START`. -/

theorem opPwmStart_of_over {duty : Byte} (h : 100 < duty.toNat) (u : TimerUnit) :
    opPwmStart duty u = .error .invalidArgument := if_pos h

theorem opPwmStart_of_unconfigured {duty : Byte} {u : TimerUnit} (h : duty.toNat ≤ 100) (hc : u.pwm.config = none) :
    opPwmStart duty u = .error .invalidArgument := by
  simp only [opPwmStart, if_neg (not_lt.mpr h), hc]

theorem opPwmStart_of_extreme {duty : Byte} {u : TimerUnit} {c : PwmConfig} (hc : u.pwm.config = some c)
    (h : duty = 0 ∨ duty = 100) : opPwmStart duty u = .ok (startConstant c.pin duty u, 0) := by
  have hle : ¬100 < duty.toNat := by rcases h with rfl | rfl <;> decide
  simp only [opPwmStart, if_neg hle, hc, if_pos h]

theorem not_extreme {duty : Byte} (hpos : 0 < duty.toNat) (hlt : duty.toNat < 100) : ¬(duty = 0 ∨ duty = 100) := by
  rintro (rfl | rfl)
  · exact absurd hpos (by decide)
  · exact absurd hlt (by decide)

section
/-! A duty between the extremes on a configured engine: the phase plans decide. -/

variable {duty : Byte} {u : TimerUnit} {c : PwmConfig} (hpos : 0 < duty.toNat) (hlt : duty.toNat < 100)
  (hc : u.pwm.config = some c)

include hpos hlt hc

theorem opPwmStart_of_error {e : ErrorCode} (h : phasePlans u.cfg c.periodMs duty = .error e) :
    opPwmStart duty u = .error e := by
  simp only [opPwmStart, if_neg (not_lt.mpr hlt.le), hc, if_neg (not_extreme hpos hlt), h]

theorem opPwmStart_of_plans {a b : TimerPlan} (h : phasePlans u.cfg c.periodMs duty = .ok (a, b)) :
    opPwmStart duty u = .ok (startWaveform c.pin a b u, 0) := by
  simp only [opPwmStart, if_neg (not_lt.mpr hlt.le), hc, if_neg (not_extreme hpos hlt), h]

end

/-- Settles O40: the four checks, each reached where the ones before it passed, and each error raised on the unit as it
was. -/
theorem pwmStartRaisesItsErrorsInOrder : Obligations.PwmStartRaisesItsErrorsInOrder := by
  intro duty s
  refine ⟨fun hover => ?_, fun hle hnone => ?_, fun c hpos hlt hc hshort => ?_,
    fun c hpos hlt hc hon hoff hunplanned => ?_⟩
  · exact exec_plain_error rfl (opPwmStart_of_over hover s.unit)
  · exact exec_plain_error rfl (opPwmStart_of_unconfigured hle hnone)
  · exact exec_plain_error rfl (opPwmStart_of_error hpos hlt hc (phasePlans_of_short hshort))
  · exact exec_plain_error rfl (opPwmStart_of_error hpos hlt hc (phasePlans_of_unplanned hon hoff hunplanned))

/-- Settles O39: duty 0 and 100 pass the checks of a configured engine and plan nothing. -/
theorem pwmStartAtTheExtremesIsAConstantLevel : Obligations.PwmStartAtTheExtremesIsAConstantLevel :=
  fun _ _ _ hc hextreme => exec_plain_ok rfl (opPwmStart_of_extreme hc hextreme)

/-- Settles O41: the two plans of R175 start the waveform. -/
theorem pwmStartBeginsTheOnPhase : Obligations.PwmStartBeginsTheOnPhase :=
  fun _ _ _ _ _ hpos hlt hc hon hoff ha hb har hbr =>
    exec_plain_ok rfl (opPwmStart_of_plans hpos hlt hc (phasePlans_of_planned hon hoff ha hb har hbr))

/-! `PWM_STOP`. -/

/-- Settles O42: the operation is the one register write. -/
theorem pwmStopClearsTheOverflowEnable : Obligations.PwmStopClearsTheOverflowEnable :=
  fun _ => exec_plain_ok (i := .pwmStop) rfl rfl

/-! The overflow service. -/

theorem flipPhase_eq (p : Phase) : flipPhase p = if p = .onPhase then .offPhase else .onPhase := by cases p <;> rfl

theorem flipLevel_eq (l : PinLevel) : flipLevel l = if l = .low then .high else .low := by cases l <;> rfl

theorem pin_togglePin_self (u : TimerUnit) (p : PinRef) :
    (u.togglePin p).pin p = ⟨(u.pin p).dir, flipLevel (u.pin p).level⟩ := pin_writePin_self u p _

theorem planOf_flipPhase {p : Pwm} {a b : TimerPlan} (ha : p.onPlan = some a) (hb : p.offPlan = some b) :
    p.planOf (flipPhase p.phase) = some (if p.phase = .onPhase then b else a) := by
  cases p.phase
  · exact hb
  · exact ha

theorem pwmService_of_no_plan {u : TimerUnit} (h : u.pwm.onPlan = none) : pwmService u = u := by
  rcases pwmService_cases u with e | ⟨c, q, hplan, -⟩
  · exact e
  · simp [h] at hplan

/-- With both plans the service toggles the pin, flips the phase and loads the plan of the new phase. -/
theorem pwmService_of_plans {u : TimerUnit} {c : PwmConfig} {a b q : TimerPlan} (hc : u.pwm.config = some c)
    (ha : u.pwm.onPlan = some a) (hb : u.pwm.offPlan = some b) (hq : q = if u.pwm.phase = .onPhase then b else a) :
    pwmService u =
      ({ u with
         pwm := { u.pwm with phase := flipPhase u.pwm.phase }
         regs := { u.regs with count := q.preload, cs := q.divider.code } } : TimerUnit).togglePin c.pin := by
  rw [pwmService, ha, hc, planOf_flipPhase ha hb, ← hq]

theorem exec_onOverflow_pwm {s : State} (h : s.unit.owner = .pwm) :
    exec .onOverflow s = .next { s with unit := (pwmService s.unit).ret 0 } := by
  have hends : serviceHangs s.unit = false := serviceHangs_owner (by rw [h]; decide)
  have hbody : overflowBody s = s.onUnit pwmService := by simp only [overflowBody, h]
  have hentry : exec .onOverflow s = unlessHung s ((overflowBody s).onUnit (TimerUnit.ret 0)) := rfl
  rw [hentry, hbody, unlessHung_of_not hends]
  rfl

/-- Settles O43: `owner` PWM selects the PWM service, which has plans or has none. -/
theorem pwmOverflowServiceAlternatesThePhases : Obligations.PwmOverflowServiceAlternatesThePhases := by
  intro s howner
  rw [exec_onOverflow_pwm howner]
  refine ⟨fun hnone => ?_, fun c a b hc ha hb => ?_⟩
  · rw [pwmService_of_no_plan hnone]
    rfl
  · rw [pwmService_of_plans hc ha hb rfl, apply_ite TimerPlan.preload, apply_ite TimerPlan.divider,
      apply_ite Divider.code, flipPhase_eq, TimerUnit.togglePin, flipLevel_eq]
    rfl

end Sys2Proof.Machine
end

section
/-! How long a phase of the waveform lasts (43_pwm_engine.md R179). A unit whose counter runs under PROMPT with the
overflow interrupt alone live has only ticks to come until the counter wraps; then the dispatch comes before any offered
tick (70_reset_and_hazards.md R311). -/

namespace Sys2Proof.Machine

/-! Ticks change registers only. -/

theorem tickTimes_eq (n : Nat) (u : TimerUnit) : tickTimes n u = { u with regs := (tickTimes n u).regs } := by
  induction n generalizing u with
  | zero => rfl
  | succ n ih => exact ih (tick u)

/-! A unit that counts to its overflow interrupt. -/

/-- The one unit of the system counts under PROMPT, no blocking delay is active on it, and of its interrupts the
overflow alone is live. -/
structure CountsToInterrupt (s : State) : Prop where
  before : s.before = []
  after : s.after = []
  policy : s.policy = .prompt
  gie : s.gie = true
  inactive : s.unit.bt.active = false
  live : s.unit.regs.ovfIe = true
  masked : s.unit.regs.cmpIe = false
  running : s.unit.regs.cs ≠ 0

theorem runSteps_add {m : Nat} {s t : State} (h : runSteps m s = .next t) (n : Nat) :
    runSteps (m + n) s = runSteps n t := by
  induction m generalizing s with
  | zero =>
    cases h
    rw [Nat.zero_add]
  | succ m ih =>
    cases hstep : step s with
    | next r =>
      rw [Nat.succ_add, runSteps_succ hstep]
      exact ih ((runSteps_succ hstep m).symm.trans h)
    | fault r => simp [runSteps, hstep] at h
    | refused r => simp [runSteps, hstep] at h

namespace CountsToInterrupt

variable {s : State}

theorem allUnits (h : CountsToInterrupt s) : s.allUnits = [s.unit] := by
  rw [State.allUnits, h.before, h.after, List.nil_append]

theorem eligible_overflow (h : CountsToInterrupt s) : eligible s.gie s.unit .overflow = s.unit.regs.ovf := by
  simp [eligible, Regs.pending, Regs.enabled, h.live, h.gie]

theorem not_eligible_compareMatch (h : CountsToInterrupt s) : eligible s.gie s.unit .compareMatch = false := by
  simp [eligible, Regs.enabled, h.masked]

/-- The overflow flag alone says whether an interrupt waits. -/
theorem interruptWaiting_iff (h : CountsToInterrupt s) : InterruptWaiting s ↔ s.unit.regs.ovf = true := by
  rw [← h.eligible_overflow]
  simp only [InterruptWaiting, h.allUnits, List.mem_singleton, exists_eq_left]
  refine ⟨?_, fun hovf => ⟨.overflow, hovf⟩⟩
  rintro ⟨_ | _, hsrc⟩
  · exact hsrc
  · cases h.not_eligible_compareMatch.symm.trans hsrc

theorem no_poll (h : CountsToInterrupt s) : ¬PollWaiting s := by
  simp [PollWaiting, h.allUnits, h.inactive]

theorem topSource_of_flag (h : CountsToInterrupt s) (hovf : s.unit.regs.ovf = true) :
    topSource s.gie s.unit = some .overflow := by
  simp [topSource, h.not_eligible_compareMatch, h.eligible_overflow, hovf]

/-- While the flag is clear an offered tick comes next. -/
theorem step_of_clear (h : CountsToInterrupt s) (hovf : s.unit.regs.ovf = false) {ts : List Turn}
    (hturns : s.turns = .tick 0 :: ts) : step s = .next (({ s with turns := ts } : State).onUnit tick) := by
  have hnone : ¬InterruptWaiting s := by simp [h.interruptWaiting_iff, hovf]
  have hmay : MayComeNext s (.tick 0) :=
    ⟨⟨s.unit, by rw [h.allUnits]; rfl, h.running⟩, fun _ => ⟨hnone, h.no_poll⟩⟩
  rw [step_of_turn hturns (allowed_iff.mpr hmay)]
  exact perform_tick (focus_zero h.before)

theorem after_tick (h : CountsToInterrupt s) (ts : List Turn) :
    CountsToInterrupt (({ s with turns := ts } : State).onUnit tick) := { h with }

/-- Until the counter wraps the offered ticks come, one a step. -/
theorem runs (h : CountsToInterrupt s) (hovf : s.unit.regs.ovf = false) {n : Nat} {ts : List Turn}
    (hn : n ≤ 256 - s.unit.regs.count.toNat) (hturns : s.turns = List.replicate n (.tick 0) ++ ts) :
    runSteps n s = .next (({ s with turns := ts } : State).onUnit (tickTimes n)) ∧
      CountsToInterrupt (({ s with turns := ts } : State).onUnit (tickTimes n)) := by
  induction n generalizing s with
  | zero =>
    obtain rfl : ts = s.turns := hturns.symm
    exact ⟨rfl, h⟩
  | succ n ih =>
    rw [runSteps_succ (h.step_of_clear hovf hturns)]
    rcases count_succ_cases s.unit.regs.count with ⟨-, hmax⟩ | ⟨hnowrap, hsucc⟩
    · obtain rfl : n = 0 := by omega
      exact ⟨rfl, h.after_tick ts⟩
    · have hclear : (tick s.unit).regs.ovf = false := by rw [tick_eq, if_neg hnowrap, hovf]
      have hmore : n ≤ 256 - (tick s.unit).regs.count.toNat := by rw [tick_regs_count]; omega
      exact ih (h.after_tick _) hclear hmore rfl

theorem dispatch_allowed (h : CountsToInterrupt s) (hovf : s.unit.regs.ovf = true) :
    allowed s (.dispatch 0) = true :=
  allowed_iff.mpr ⟨⟨s.unit, by rw [h.allUnits]; rfl, .overflow, h.eligible_overflow.trans hovf⟩, fun _ => trivial⟩

theorem dispatch_candidate (h : CountsToInterrupt s) : .dispatch 0 ∈ s.candidates := by
  simp [State.candidates, h.allUnits]

/-- While the flag is set no other step of the block may come. -/
theorem eq_dispatch_of_allowed (h : CountsToInterrupt s) (hovf : s.unit.regs.ovf = true) {a : Turn}
    (ha : allowed s a = true) (hmem : a ∈ s.candidates) : a = .dispatch 0 := by
  have hwaiting : InterruptWaiting s := h.interruptWaiting_iff.mpr hovf
  obtain ⟨-, hprompt⟩ := allowed_iff.mp ha
  cases a with
  | host => exact absurd hwaiting (hprompt h.policy).1
  | tick k => exact absurd hwaiting (hprompt h.policy).1
  | poll k => exact absurd hwaiting (hprompt h.policy)
  | dispatch k => simpa [State.candidates, h.allUnits] using hmem
  | pinWrite k p st => simp [State.candidates] at hmem

/-- While the flag is set the next step is the dispatch, and the offered tick goes on waiting. -/
theorem step_of_flag (h : CountsToInterrupt s) (hovf : s.unit.regs.ovf = true) {ts : List Turn}
    (hturns : s.turns = .tick 0 :: ts) : step s = dispatchStep s.passTurn := by
  have hwaits : ¬allowed s s.waitingTurn = true := by
    rw [State.waitingTurn, hturns]
    intro ha
    exact absurd (h.interruptWaiting_iff.mpr hovf) ((allowed_iff.mp ha).2 h.policy).1
  rcases chooseStep_cases s with ⟨ha, -⟩ | ⟨-, a, hturn, e⟩ | ⟨-, hnone, -⟩
  · exact absurd ha hwaits
  · obtain ⟨ha, hmem⟩ := turnInOrder_some hturn
    obtain rfl := h.eq_dispatch_of_allowed hovf ha hmem
    rw [step, stepOnce, e]
    exact atUnit_some (focus_zero (s := s.passTurn) h.before)
  · cases (turnInOrder_none.mp hnone _ h.dispatch_candidate).symm.trans (h.dispatch_allowed hovf)

end CountsToInterrupt

/-! The end of a phase. -/

/-- Taking the overflow interrupt of the PWM engine: the flag is cleared and the service runs. -/
theorem dispatchStep_pwm {s : State} (howner : s.unit.owner = .pwm)
    (htop : topSource s.gie s.unit = some .overflow) :
    dispatchStep s = .next { s with
      gie := true
      unit := pwmService { s.unit with regs := { s.unit.regs with ovf := false } } } := by
  have hends : serviceHangs s.unit = false := serviceHangs_owner (by rw [howner]; decide)
  have howner' : (enterHandler .overflow s).unit.owner = .pwm := howner
  have hbody : handlerBody .overflow (enterHandler .overflow s) = (enterHandler .overflow s).onUnit pwmService := by
    simp only [handlerBody, overflowBody, howner']
  rw [dispatchStep_of_not hends, irqDispatch, htop]
  exact congrArg (fun t => Host.Outcome.next (leaveHandler t)) hbody

/-- With the ticks to the wrap and one more on offer, the step after them is the dispatch of the PWM service. -/
theorem CountsToInterrupt.runs_to_pwmService {s : State} (h : CountsToInterrupt s) (hovf : s.unit.regs.ovf = false)
    (howner : s.unit.owner = .pwm) {n : Nat} (hn : n = 256 - s.unit.regs.count.toNat)
    (hturns : s.turns = List.replicate (n + 1) (.tick 0)) :
    ∃ t, runSteps (n + 1) s = .next t ∧ t.turns = [.tick 0] ∧
      ∃ r : Regs, r.ovf = false ∧ t.unit = pwmService { s.unit with regs := r } := by
  obtain ⟨hrun, hend⟩ := h.runs hovf hn.le (hturns.trans List.replicate_succ')
  have hset : (tickTimes n s.unit).regs.ovf = true := (tickTimes_ovf n s.unit).mpr (.inr hn.ge)
  have howner' : (tickTimes n s.unit).owner = .pwm := by rw [tickTimes_eq, howner]
  have hdispatch := (hend.step_of_flag hset rfl).trans (dispatchStep_pwm howner' (hend.topSource_of_flag hset))
  refine ⟨_, (runSteps_add hrun 1).trans (runSteps_succ hdispatch 0), rfl,
    { (tickTimes n s.unit).regs with ovf := false }, rfl, ?_⟩
  simp only [State_passTurn_unit, State_onUnit_unit]
  rw [tickTimes_eq]

/-- Settles O44: the phase is the ticks to the wrap, and the step after them is the dispatch of the PWM service. -/
theorem pwmPhaseLastsItsPlan : Obligations.PwmPhaseLastsItsPlan := by
  intro s c a b q r hbefore hafter hpolicy hgie hinactive howner hlive hmasked hovf hc ha hb _ hr hcount hcs hturns
  have hcounts : CountsToInterrupt s :=
    ⟨hbefore, hafter, hpolicy, hgie, hinactive, hlive, hmasked, hcs ▸ q.divider.code_ne_zero⟩
  rw [← hcount] at hturns ⊢
  refine ⟨fun n t hn ht => ?_, ?_⟩
  · obtain ⟨k, hk⟩ : ∃ k, 256 - s.unit.regs.count.toNat + 1 = n + k :=
      Nat.exists_eq_add_of_le (Nat.le_succ_of_le hn)
    rw [hk, List.replicate_add] at hturns
    cases (hcounts.runs hovf hn hturns).1.symm.trans ht
    rw [State_onUnit_unit, tickTimes_eq]
    exact ⟨rfl, rfl⟩
  · obtain ⟨t, hrun, hticks, regs, hclear, hunit⟩ := hcounts.runs_to_pwmService hovf howner rfl hturns
    rw [pwmService_of_plans (u := { s.unit with regs := regs }) hc ha hb hr] at hunit
    refine ⟨t, hrun, hticks, ?_⟩
    rw [hunit]
    exact ⟨rfl, pin_togglePin_self _ _, rfl, rfl, hclear⟩

end Sys2Proof.Machine
end

section
/-! The operations and the service of 44_callback_timer.md: `SCHEDULE` (R201), `CANCEL` (R202), the two handler entry
points (R203, R205) and the callback service under the default CALLBACK_EFFECT (R204, R210, R214). -/

namespace Sys2Proof.Machine

/-! `SCHEDULE` and `CANCEL`. -/

section
variable {periodic : Bool} {callback : CallbackRef} {ms : Word32} {s : State}

theorem exec_schedule_of_plan {p : TimerPlan} (h : planDelay s.unit.cfg (val32 ms) = .ok p) :
    exec (.schedule periodic callback ms) s =
      .next { s with unit := (armSchedule periodic callback p s.unit).ret 0 } :=
  exec_plain_ok rfl (by rw [opSchedule, h])

theorem exec_schedule_of_error {e : ErrorCode} (h : planDelay s.unit.cfg (val32 ms) = .error e) :
    exec (.schedule periodic callback ms) s = .next { s with unit := s.unit.raise e } :=
  exec_plain_error rfl (by rw [opSchedule, h])

end

/-- Settles O46: the planner answers a plan, which arms the counter, or an error. -/
theorem scheduleArmsTheCounter : Obligations.ScheduleArmsTheCounter :=
  fun _ _ _ _ => ⟨fun _ => exec_schedule_of_plan, fun _ => exec_schedule_of_error⟩

/-- Settles O47: `CANCEL` has one outcome. -/
theorem cancelDropsTheSchedule : Obligations.CancelDropsTheSchedule :=
  fun _ => exec_plain_ok (i := .cancel) rfl rfl

/-! The handler entry points. -/

theorem exec_onOverflow {s : State} (hends : serviceHangs s.unit = false) :
    exec .onOverflow s = .next ((overflowBody s).onUnit (TimerUnit.ret 0)) := unlessHung_of_not hends

theorem exec_onCompareMatch {s : State} (hends : serviceHangs s.unit = false) :
    exec .onCompareMatch s = .next ((compareBody s).onUnit (TimerUnit.ret 0)) := unlessHung_of_not hends

theorem overflowBody_callback {s : State} (h : s.unit.owner = .callback) : overflowBody s = callbackService true s := by
  simp only [overflowBody, h]

theorem compareBody_callback {s : State} (h : s.unit.owner = .callback) : compareBody s = callbackService false s := by
  simp only [compareBody, h]

theorem overflowBody_of_no_service {s : State} (h : s.unit.owner = .idle ∨ s.unit.owner = .blocking) :
    overflowBody s = s := by
  rcases h with h | h <;> simp only [overflowBody, h]

theorem compareBody_of_no_service {s : State} (h : s.unit.owner ≠ .callback) : compareBody s = s := by
  unfold compareBody
  split
  · exact absurd ‹_› h
  · rfl
  · rfl
  · rfl

/-- Settles O50: without a service the body of the entry point leaves the state, and no callback can hang it. -/
theorem handlersWithoutAServiceDoNothing : Obligations.HandlersWithoutAServiceDoNothing := by
  refine fun s => ⟨fun howner => ?_, fun howner => ?_⟩
  · have hcallback : s.unit.owner ≠ .callback := by rcases howner with h | h <;> simp [h]
    rw [exec_onOverflow (serviceHangs_owner hcallback), overflowBody_of_no_service howner]
    rfl
  · rw [exec_onCompareMatch (serviceHangs_owner howner), compareBody_of_no_service howner]
    rfl

/-! The callback service. -/

theorem serviceDefault_below {u : TimerUnit} (h : u.cb.count + 1 ≠ u.cb.target) (reload : Bool) :
    serviceDefault reload u = countOverflow u := if_neg h

/-- The unit with the stored callback logged; a null callback leaves no entry (44_callback_timer.md R204). -/
def TimerUnit.logStored (u : TimerUnit) : TimerUnit :=
  { u with cb := { u.cb with log := u.cb.log ++ u.cb.callback.toList } }

/-- Re-arming starts the count again, whatever it was. -/
theorem rearm_restart (reload : Bool) (u : TimerUnit) : rearm reload u.restart = rearm reload u := rfl

/-- At the target the stored callback is logged, and the schedule re-arms or completes. -/
theorem serviceDefault_target {u : TimerUnit} (h : u.cb.count + 1 = u.cb.target) (reload : Bool) :
    serviceDefault reload u = rearm reload u.logStored := by
  rw [serviceDefault, if_pos h, ← rearm_restart, ← rearm_restart reload u.logStored]
  cases hc : u.cb.callback <;>
    simp [TimerUnit.restart, TimerUnit.logStored, countOverflow, logCallback, hc]

theorem serviceDefault_periodic {u : TimerUnit} (htarget : u.cb.count + 1 = u.cb.target) (h : u.cb.periodic = true)
    (reload : Bool) :
    serviceDefault reload u = { u.logStored.restart with
      regs := { u.regs with count := if reload then u.cb.preload else u.regs.count } } := by
  have hperiodic : u.logStored.cb.periodic = true := h
  rw [serviceDefault_target htarget, rearm_eq, if_pos hperiodic]
  cases reload <;> rfl

theorem serviceDefault_oneShot {u : TimerUnit} (htarget : u.cb.count + 1 = u.cb.target) (h : u.cb.periodic = false)
    (reload : Bool) : serviceDefault reload u = completeOneShot u.logStored.restart := by
  have honce : ¬u.logStored.cb.periodic = true := by rw [TimerUnit.logStored, h]; decide
  rw [serviceDefault_target htarget, rearm_eq, if_neg honce]

/-- A one-shot that still owns the counter gives it up. -/
theorem completeOneShot_of_owner {u : TimerUnit} (h : u.owner = .callback) :
    completeOneShot u = { u with
      regs := { u.regs with ovfIe := false, cmpIe := false }
      cb := { u.cb with callback := none }
      owner := .idle } := by
  rw [completeOneShot, if_pos h]

/-- Both entry points run the callback service where the schedule owns the counter. -/
theorem exec_callbackEntry {s : State} {i : Instr} {reload : Bool}
    (hentry : (i = .onOverflow ∧ reload = true) ∨ (i = .onCompareMatch ∧ reload = false))
    (howner : s.unit.owner = .callback) (hdefault : s.unit.cbEffect = []) :
    exec i s = .next { s with unit := (serviceDefault reload s.unit).ret 0 } := by
  have hends := serviceHangs_default hdefault
  have hservice := callbackService_default reload hdefault
  rcases hentry with ⟨rfl, rfl⟩ | ⟨rfl, rfl⟩
  · rw [exec_onOverflow hends, overflowBody_callback howner, hservice]
    rfl
  · rw [exec_onCompareMatch hends, compareBody_callback howner, hservice]
    rfl

/-- Settles O48: the service of either entry point stands below its target, or at it with a periodic or a one-shot
schedule. -/
theorem callbackServiceCountsToItsTarget : Obligations.CallbackServiceCountsToItsTarget := by
  intro s i reload hentry howner hdefault
  rw [exec_callbackEntry hentry howner hdefault]
  refine ⟨fun hbelow => ?_, fun htarget hperiodic => ?_, fun htarget honce => ?_⟩
  · rw [serviceDefault_below hbelow]
    rfl
  · rw [serviceDefault_periodic htarget hperiodic]
    rfl
  · rw [serviceDefault_oneShot htarget honce, completeOneShot_of_owner (u := s.unit.logStored.restart) howner]
    rfl

end Sys2Proof.Machine
end

section
/-! A cancelled schedule (44_callback_timer.md R202, R215). While the host issues nothing no step gives the counter to a
schedule, and only a unit whose schedule owns the counter invokes a callback. -/

namespace Sys2Proof.Machine

/-! Steps of everyone but the host. -/

theorem callbackEffect_hostQueue (s : State) : (callbackEffect s).hostQueue = s.hostQueue :=
  callbackEffect_keeps (P := fun r => r.hostQueue = s.hostQueue) (fun _ _ _ _ h => h) (fun _ h => h) (fun _ _ h => h)
    (fun _ _ h => h) rfl

theorem callbackService_hostQueue (reload : Bool) (s : State) : (callbackService reload s).hostQueue = s.hostQueue := by
  rcases callbackService_cases reload s with ⟨-, e⟩ | ⟨-, -, e⟩ | ⟨-, c, -, e⟩ <;> rw [e]
  · rfl
  · rfl
  · exact callbackEffect_hostQueue _

theorem handlerBody_hostQueue (src : Source) (s : State) : (handlerBody src s).hostQueue = s.hostQueue := by
  rcases handlerBody_cases src s with ⟨-, -, e⟩ | ⟨-, reload, e⟩ | ⟨-, e⟩ <;> rw [e]
  · rfl
  · exact callbackService_hostQueue reload s

theorem irqDispatch_hostQueue (s : State) : (irqDispatch s).hostQueue = s.hostQueue := by
  rcases irqDispatch_cases s with ⟨-, e⟩ | ⟨src, -, -, e⟩ <;> rw [e]
  exact handlerBody_hostQueue src (enterHandler src s)

/-- What a step of everyone but the host can make of a unit. -/
inductive UnhostedChange : TimerUnit → TimerUnit → Prop
  | same (u : TimerUnit) : UnhostedChange u u
  | tick (u : TimerUnit) : UnhostedChange u (tick u)
  | btPoll (u : TimerUnit) : UnhostedChange u (btPoll u)
  | dispatch (s : State) : UnhostedChange s.unit (irqDispatch s).unit
  | writePin (p : PinRef) (st : PinState) (u : TimerUnit) : UnhostedChange u (u.writePin p st)

/-- `t` is `s` but for one of these changes of each unit, with the host's commands as they were. -/
def Unhosted (s t : State) : Prop :=
  t.hostQueue = s.hostQueue ∧
    ∀ (k : Nat) (u : TimerUnit), s.allUnits[k]? = some u → ∃ u', t.allUnits[k]? = some u' ∧ UnhostedChange u u'

theorem perform_unhosted {r t : State} {a : Turn} (hhost : a ≠ .host) (h : perform a r = .next t) :
    Unhosted r t := by
  have hact : ∀ {j s'}, r.focus j = some s' → t.hostQueue = s'.hostQueue → ActsOnUnit s' t →
      UnhostedChange s'.unit t.unit → Unhosted r t := by
    intro j s' hf hqueue hacts hchange
    obtain ⟨-, -, -, -, -, hq, -⟩ := focus_some hf
    refine ⟨hqueue.trans hq, fun k u hu => hacts.getElem? hf hu (.same _) ?_⟩
    rintro - rfl
    exact hchange
  rcases perform_cases h with ⟨rfl, -⟩ | ⟨rfl, -⟩ | ⟨j, s', -, hf, rfl⟩ | ⟨j, s', -, hf, rfl⟩ | ⟨j, s', -, hf, rfl⟩ |
    ⟨j, p, st, s', -, hf, rfl⟩
  · exact absurd rfl hhost
  · exact absurd rfl hhost
  · exact hact hf rfl (.onUnit (.tick _)) (.tick _)
  · exact hact hf rfl (.onUnit (.btPoll _)) (.btPoll _)
  · exact hact hf (irqDispatch_hostQueue s') (.irqDispatch s') (.dispatch s')
  · exact hact hf rfl (.onUnit (.writePin p st _)) (.writePin p st _)

/-- A step while the host has no command. -/
theorem step_unhosted {s t : State} (hqueue : s.hostQueue = []) (h : step s = .next t) :
    Unhosted s t := by
  rcases step_cases s with ⟨e, -⟩ | ⟨a, r, ha, hr, e⟩ <;> rw [e] at h
  · cases h
    exact ⟨rfl, fun k u hu => ⟨u, hu, .same u⟩⟩
  · obtain ⟨hunits, hq⟩ : r.allUnits = s.allUnits ∧ r.hostQueue = s.hostQueue := by rcases hr with rfl | rfl <;> simp
    have hhost : a ≠ .host := by
      rintro rfl
      exact (allowed_iff.mp ha).1.1 hqueue
    rw [Unhosted, ← hunits, ← hq]
    exact perform_unhosted hhost h

/-! A unit whose counter no schedule owns. -/

/-- No schedule owns the counter, and no callback has been invoked since the log was `log`. -/
def Silent (log : List CallbackRef) (u : TimerUnit) : Prop := u.owner ≠ .callback ∧ u.cb.log = log

variable {log : List CallbackRef}

theorem Silent.btPoll {u : TimerUnit} (h : Silent log u) : Silent log (btPoll u) := by
  rcases btPoll_cases u with ⟨-, e⟩ | ⟨-, -, e⟩ | ⟨-, -, e⟩ <;> rw [e]
  · exact h
  · exact ⟨nofun, h.2⟩
  · exact h

theorem Silent.pwmService {u : TimerUnit} (h : Silent log u) : Silent log (pwmService u) := by
  rcases pwmService_cases u with e | ⟨c, q, -, -, -, e⟩ <;> rw [e] <;> exact h

theorem Silent.irqDispatch {s : State} (h : Silent log s.unit) : Silent log (irqDispatch s).unit := by
  rcases irqDispatch_cases s with ⟨-, e⟩ | ⟨src, -, -, e⟩ <;> rw [e]
  · exact h
  · have henter : Silent log (enterHandler src s).unit := h
    rw [takeInterrupt, leaveHandler_unit]
    rcases handlerBody_cases src (enterHandler src s) with ⟨-, -, e⟩ | ⟨howner, -⟩ | ⟨-, e⟩
    · rw [e]
      exact henter.pwmService
    · exact absurd howner henter.1
    · rw [e]
      exact henter

theorem Silent.change {u u' : TimerUnit} (h : Silent log u) (hchange : UnhostedChange u u') : Silent log u' := by
  cases hchange with
  | same => exact h
  | tick => exact h
  | btPoll => exact h.btPoll
  | dispatch s => exact Silent.irqDispatch h
  | writePin p st => exact h

/-- A run that answers a next state began with a step that did. -/
theorem runSteps_succ_next {s t : State} {n : Nat} (h : runSteps (n + 1) s = .next t) :
    ∃ r, step s = .next r ∧ runSteps n r = .next t := by
  unfold runSteps at h
  split at h
  · exact ⟨_, by assumption, h⟩
  · cases h
  · cases h

/-- A unit stays silent as long as the host issues nothing. -/
theorem Silent.run {s t : State} {n k : Nat} {u : TimerUnit} (h : Silent log u) (hqueue : s.hostQueue = [])
    (hu : s.allUnits[k]? = some u) (hrun : runSteps n s = .next t) :
    ∃ u', t.allUnits[k]? = some u' ∧ Silent log u' := by
  induction n generalizing s u with
  | zero =>
    cases hrun
    exact ⟨u, hu, h⟩
  | succ n ih =>
    obtain ⟨r, hstep, hrest⟩ := runSteps_succ_next hrun
    obtain ⟨hqueue', hunits⟩ := step_unhosted hqueue hstep
    obtain ⟨u', hu', hchange⟩ := hunits k u hu
    exact ih (h.change hchange) (hqueue'.trans hqueue) hu' hrest

theorem owner_ne_callback_of_cancel (o : Owner) : (if o = .callback then .idle else o) ≠ Owner.callback := by
  cases o <;> decide

/-- Settles O51: `CANCEL` takes the counter from the schedule, and the unit is silent from then on. -/
theorem cancelledCallbackIsNeverInvoked : Obligations.CancelledCallbackIsNeverInvoked := by
  intro s t t' n hcancel hqueue hrun
  rw [cancelDropsTheSchedule s] at hcancel
  cases hcancel
  obtain ⟨u', hu', -, hlog⟩ :=
    Silent.run ⟨owner_ne_callback_of_cancel s.unit.owner, rfl⟩ hqueue (State.allUnits_selected _) hrun
  exact ⟨u', hu', hlog⟩

end Sys2Proof.Machine
end

section
/-! How long a schedule waits (44_callback_timer.md R215). Under PROMPT with the overflow interrupt alone live the
counter ticks while `OVF` is clear, and is served while it is set. `Awaiting` is what each step before the invocation
keeps, and `scheduleSteps` counts them. -/

namespace Sys2Proof.Machine

/-- A run whose every step lowers a count by one, until the step that is the last, ends after just so many steps. -/
theorem runs_of_countdown {P Q : State → Prop} {left : State → Nat}
    (hstep : ∀ s, P s → ∃ t, step s = .next t ∧ ((P t ∧ left t + 1 = left s) ∨ (Q t ∧ left s = 1)))
    {s : State} (h : P s) {n : Nat} (hn : left s = n) :
    (∀ m r, m < n → runSteps m s = .next r → P r) ∧ ∃ t, runSteps n s = .next t ∧ Q t := by
  induction n generalizing s with
  | zero =>
    obtain ⟨t, -, ⟨-, hfewer⟩ | ⟨-, hone⟩⟩ := hstep s h <;> omega
  | succ n ih =>
    obtain ⟨t, hs, hcase⟩ := hstep s h
    have hfirst : ∀ r, runSteps 0 s = .next r → P r := by
      rintro r hr
      cases hr
      exact h
    rcases hcase with ⟨ht, hfewer⟩ | ⟨hdone, hone⟩
    · obtain ⟨hkept, hend⟩ := ih ht (by omega)
      refine ⟨fun m r hm hr => ?_, runSteps_succ hs n ▸ hend⟩
      cases m with
      | zero => exact hfirst r hr
      | succ m => exact hkept m r (by omega) ((runSteps_succ hs m).symm.trans hr)
    · obtain rfl : n = 0 := by omega
      refine ⟨fun m r hm hr => ?_, t, runSteps_succ hs 0, hdone⟩
      obtain rfl : m = 0 := by omega
      exact hfirst r hr

/-! The ticks a schedule has left. -/

/-- The overflows until the target is reached. -/
def TimerUnit.overflowsLeft (u : TimerUnit) : Nat := u.cb.target.toNat - u.cb.count.toNat

/-- The ticks until the invocation: the present period, then one full period for each further overflow. -/
def TimerUnit.scheduleTicks (u : TimerUnit) : Nat := u.ticksToOverflow + 256 * (u.overflowsLeft - 1)

/-- The steps until the invocation: its ticks, and one dispatch for each overflow. -/
def TimerUnit.scheduleSteps (u : TimerUnit) : Nat := u.scheduleTicks + u.overflowsLeft

theorem scheduleTicks_tick {u : TimerUnit} (h : u.regs.ovf = false) :
    (tick u).scheduleTicks + 1 = u.scheduleTicks := by
  have htick := ticksToOverflow_tick h
  have hleft : (tick u).overflowsLeft = u.overflowsLeft := rfl
  rw [TimerUnit.scheduleTicks, TimerUnit.scheduleTicks, hleft]
  omega

theorem scheduleSteps_tick {u : TimerUnit} (h : u.regs.ovf = false) :
    (tick u).scheduleSteps + 1 = u.scheduleSteps := by
  have hticks := scheduleTicks_tick h
  have hleft : (tick u).overflowsLeft = u.overflowsLeft := rfl
  rw [TimerUnit.scheduleSteps, TimerUnit.scheduleSteps, hleft]
  omega

/-- The unit as the handler body of its overflow interrupt finds it. -/
def TimerUnit.overflowTaken (u : TimerUnit) : TimerUnit := { u with regs := { u.regs with ovf := false } }

/-- An overflow that is counted short of the target begins a full period, which was counted already. -/
theorem scheduleTicks_countOverflow {u : TimerUnit} (hovf : u.regs.ovf = true) (hwrapped : u.regs.count = 0)
    (hcounting : u.cb.count < u.cb.target) (hbelow : u.cb.count + 1 ≠ u.cb.target) :
    (countOverflow u.overflowTaken).scheduleTicks = u.scheduleTicks ∧
      (countOverflow u.overflowTaken).overflowsLeft + 1 = u.overflowsLeft := by
  have hperiod : (countOverflow u.overflowTaken).ticksToOverflow = 256 := by
    rw [ticksToOverflow_of_clear rfl]
    show 256 - u.regs.count.toNat = 256
    rw [hwrapped]
    rfl
  have hleft : (countOverflow u.overflowTaken).overflowsLeft + 1 = u.overflowsLeft ∧ 2 ≤ u.overflowsLeft := by
    show u.cb.target.toNat - (u.cb.count + 1).toNat + 1 = u.cb.target.toNat - u.cb.count.toNat ∧
      2 ≤ u.cb.target.toNat - u.cb.count.toNat
    bv_omega
  refine ⟨?_, hleft.1⟩
  rw [TimerUnit.scheduleTicks, TimerUnit.scheduleTicks, hperiod, ticksToOverflow_of_flag hovf]
  omega

theorem overflowsLeft_of_target {u : TimerUnit} (h : u.cb.count + 1 = u.cb.target)
    (hcounting : u.cb.count < u.cb.target) : u.overflowsLeft = 1 := by
  rw [TimerUnit.overflowsLeft]
  bv_omega

/-- `SCHEDULE` leaves the ticks of the plan: they are those of a blocking delay with it. -/
theorem scheduleTicks_armSchedule {p : TimerPlan} (hrep : p.rep.toNat ≤ repeatMax) (periodic : Bool) (cb : CallbackRef)
    (u : TimerUnit) : (armSchedule periodic cb p u).scheduleTicks = p.totalTicks :=
  calc (armSchedule periodic cb p u).scheduleTicks
    _ = (startBlocking p u).delayTicks := rfl
    _ = p.totalTicks := delayTicks_startBlocking hrep u

/-! The state before the invocation, and just after it. -/

/-- The schedule stored as `armed` owns the counter, which counts to its interrupts, and the input offers ticks, one
more than the schedule needs. A set flag is that of the wrap just made, since the dispatch comes before the next tick. -/
structure Awaiting (armed : Callback) (s : State) : Prop where
  counts : CountsToInterrupt s
  owner : s.unit.owner = .callback
  default : s.unit.cbEffect = []
  stored : s.unit.cb = { armed with count := s.unit.cb.count }
  counting : s.unit.cb.count < s.unit.cb.target
  wrapped : s.unit.regs.ovf = true → s.unit.regs.count = 0
  turns : s.turns = List.replicate (s.unit.scheduleTicks + 1) (.tick 0)

/-- The callback of `armed` has been invoked, and the schedule is re-armed or over. One tick of the input is unused. -/
structure Invoked (armed : Callback) (s : State) : Prop where
  turns : s.turns = [.tick 0]
  log : s.unit.cb.log = armed.log ++ armed.callback.toList
  rearmed : armed.periodic = true →
    s.unit.regs.count = armed.preload ∧ s.unit.owner = .callback ∧ s.unit.cb.count = 0
  ended : armed.periodic = false → s.unit.owner = .idle ∧ s.unit.cb.callback = none ∧ s.unit.regs.ovfIe = false

/-- Taking the overflow interrupt of a schedule under the default CALLBACK_EFFECT. -/
theorem dispatchStep_callback {s : State} (howner : s.unit.owner = .callback) (hdefault : s.unit.cbEffect = [])
    (htop : topSource s.gie s.unit = some .overflow) :
    dispatchStep s = .next { s with gie := true, unit := serviceDefault true s.unit.overflowTaken } := by
  have hbody : handlerBody .overflow (enterHandler .overflow s) =
      (enterHandler .overflow s).onUnit (serviceDefault true) :=
    (overflowBody_callback (s := enterHandler .overflow s) howner).trans (callbackService_default true hdefault)
  rw [dispatchStep_of_not (serviceHangs_default hdefault), irqDispatch, htop]
  exact congrArg (fun t => Host.Outcome.next (leaveHandler t)) hbody

namespace Awaiting

variable {armed : Callback} {s : State}

theorem log (h : Awaiting armed s) : s.unit.cb.log = armed.log := by rw [h.stored]

/-- An overflow counted short of the target. -/
theorem after_count (h : Awaiting armed s) (hovf : s.unit.regs.ovf = true)
    (hbelow : s.unit.cb.count + 1 ≠ s.unit.cb.target) :
    Awaiting armed { s.passTurn with gie := true, unit := countOverflow s.unit.overflowTaken } where
  counts := { h.counts with gie := rfl }
  owner := h.owner
  default := h.default
  stored := by
    show { s.unit.cb with count := s.unit.cb.count + 1 } = { armed with count := s.unit.cb.count + 1 }
    rw [h.stored]
  counting := by
    have hlt := h.counting
    show s.unit.cb.count + 1 < s.unit.cb.target
    bv_omega
  wrapped := nofun
  turns := by
    rw [(scheduleTicks_countOverflow hovf (h.wrapped hovf) h.counting hbelow).1]
    exact h.turns

/-- A tick of the wait. -/
theorem after_tick (h : Awaiting armed s) (hovf : s.unit.regs.ovf = false) :
    Awaiting armed (({ s with turns := List.replicate s.unit.scheduleTicks (.tick 0) } : State).onUnit tick) :=
  { h with
    counts := h.counts.after_tick _
    wrapped := fun hset => by
      rcases (tick_ovf s.unit).mp hset with hc | hwrap
      · cases hovf.symm.trans hc
      · exact hwrap
    turns := congrArg (List.replicate · (Turn.tick 0)) (scheduleTicks_tick hovf).symm }

/-- The overflow that reaches the target. -/
theorem after_target (h : Awaiting armed s) (hovf : s.unit.regs.ovf = true)
    (htarget : s.unit.cb.count + 1 = s.unit.cb.target) :
    Invoked armed { s.passTurn with gie := true, unit := serviceDefault true s.unit.overflowTaken } := by
  have hleft := overflowsLeft_of_target htarget h.counting
  have hturns : s.turns = [.tick 0] := by
    rw [h.turns, TimerUnit.scheduleTicks, hleft, ticksToOverflow_of_flag hovf]
    rfl
  have hlog : s.unit.cb.log ++ s.unit.cb.callback.toList = armed.log ++ armed.callback.toList := by rw [h.stored]
  have hperiodic : s.unit.cb.periodic = armed.periodic := by rw [h.stored]
  cases hp : armed.periodic with
  | true =>
    rw [serviceDefault_periodic (u := s.unit.overflowTaken) htarget (hperiodic.trans hp)]
    have hpreload : s.unit.cb.preload = armed.preload := by rw [h.stored]
    exact ⟨hturns, hlog, fun _ => ⟨hpreload, h.owner, rfl⟩, fun honce => absurd honce (by simp [hp])⟩
  | false =>
    rw [serviceDefault_oneShot (u := s.unit.overflowTaken) htarget (hperiodic.trans hp),
      completeOneShot_of_owner (u := s.unit.overflowTaken.logStored.restart) h.owner]
    exact ⟨hturns, hlog, fun hagain => absurd hagain (by simp [hp]), fun _ => ⟨rfl, rfl, rfl⟩⟩

/-- While the flag is set the next step is the callback service. -/
theorem step_of_flag (h : Awaiting armed s) (hovf : s.unit.regs.ovf = true) :
    step s = .next { s.passTurn with gie := true, unit := serviceDefault true s.unit.overflowTaken } :=
  (h.counts.step_of_flag hovf h.turns).trans
    (dispatchStep_callback (s := s.passTurn) h.owner h.default (h.counts.topSource_of_flag hovf))

/-- One step of a schedule: it goes on waiting with one step fewer to come, or its callback is invoked. -/
theorem step_next (h : Awaiting armed s) : ∃ t, step s = .next t ∧
    ((Awaiting armed t ∧ t.unit.scheduleSteps + 1 = s.unit.scheduleSteps) ∨
      (Invoked armed t ∧ s.unit.scheduleSteps = 1)) := by
  cases hovf : s.unit.regs.ovf with
  | false => exact ⟨_, h.counts.step_of_clear hovf h.turns, .inl ⟨h.after_tick hovf, scheduleSteps_tick hovf⟩⟩
  | true =>
    refine ⟨_, h.step_of_flag hovf, ?_⟩
    by_cases htarget : s.unit.cb.count + 1 = s.unit.cb.target
    · refine .inr ⟨h.after_target hovf htarget, ?_⟩
      rw [TimerUnit.scheduleSteps, TimerUnit.scheduleTicks, overflowsLeft_of_target htarget h.counting,
        ticksToOverflow_of_flag hovf]
    · obtain ⟨hticks, hleft⟩ := scheduleTicks_countOverflow hovf (h.wrapped hovf) h.counting htarget
      rw [serviceDefault_below (u := s.unit.overflowTaken) htarget]
      refine .inl ⟨h.after_count hovf htarget, ?_⟩
      show (countOverflow s.unit.overflowTaken).scheduleSteps + 1 = s.unit.scheduleSteps
      rw [TimerUnit.scheduleSteps, TimerUnit.scheduleSteps, hticks]
      omega

end Awaiting

/-- The state after `SCHEDULE`, with the ticks of the plan and one more on offer. -/
theorem awaiting_armSchedule {s : State} {p : TimerPlan} {periodic : Bool} {cb : CallbackRef}
    (hcounts : CountsToInterrupt { s with unit := (armSchedule periodic cb p s.unit).ret 0 })
    (hdefault : s.unit.cbEffect = []) (hrep : p.rep.toNat ≤ repeatMax)
    (hturns : s.turns = List.replicate (p.totalTicks + 1) (.tick 0)) :
    Awaiting (armSchedule periodic cb p s.unit).cb
      { s with unit := (armSchedule periodic cb p s.unit).ret 0 } where
  counts := hcounts
  owner := rfl
  default := hdefault
  stored := rfl
  counting := (TimerPlan.overflowsToWait_spec hrep).2
  wrapped := nofun
  turns := hturns.trans
    (congrArg (fun n => List.replicate (n + 1) (Turn.tick 0)) (scheduleTicks_armSchedule hrep periodic cb s.unit).symm)

/-- Settles O52: `SCHEDULE` leaves the ticks and the dispatches of the plan, each step before the last uses up one and
leaves the log, and the last is the service at its target. -/
theorem scheduleInvokesAfterItsTotalTicks : Obligations.ScheduleInvokesAfterItsTotalTicks := by
  intro s t periodic cb ms p hbefore hafter hpolicy hgie hinactive hmasked hdefault hw hcb hplan hturns hexec
  rw [exec_schedule_of_plan hplan] at hexec
  cases hexec
  have hrep := (planDelay_supported hw hplan).2
  have hcounts : CountsToInterrupt { s with unit := (armSchedule periodic cb p s.unit).ret 0 } :=
    ⟨hbefore, hafter, hpolicy, hgie, hinactive, rfl, hmasked, p.divider.code_ne_zero⟩
  have hsteps : (armSchedule periodic cb p s.unit).scheduleSteps = p.totalTicks + p.overflowsToWait.toNat :=
    congrArg (· + p.overflowsToWait.toNat) (scheduleTicks_armSchedule hrep periodic cb s.unit)
  obtain ⟨hwaits, t', hrun, hinvoked⟩ :=
    runs_of_countdown (left := fun s => s.unit.scheduleSteps) (fun _ => Awaiting.step_next)
      (awaiting_armSchedule hcounts hdefault hrep hturns) hsteps
  refine ⟨fun n r hn hr => (hwaits n r hn hr).log, t', hrun, hinvoked.turns, ?_,
    hinvoked.rearmed, hinvoked.ended⟩
  have hcallback : callbackOf cb = some cb := if_neg hcb
  rw [hinvoked.log, armSchedule_cb, hcallback]
  rfl

end Sys2Proof.Machine
end

section
/-! The register and interrupt-mask operations of 45_register_ops.md: the three operations that are a register write of
20_memory.md (R230, R231, R233), `READ_OVF` (R232), and `IRQ_DISABLE` and `IRQ_ENABLE` (R236, R237) with the dispatches
they rule out and let in. -/

namespace Sys2Proof.Machine

/-! The operations that are a register write. -/

theorem exec_setDivider_eq_regWrite (cs : ClockCode) (s : State) :
    exec (.setDivider cs) s = exec (.regWrite 0 (0#5 ++ cs)) s := rfl

theorem exec_setPreload_eq_regWrite (value : Byte) (s : State) :
    exec (.setPreload value) s = exec (.regWrite 1 value) s := rfl

theorem exec_clearOvf_eq_regWrite (s : State) : exec .clearOvf s = exec (.regWrite 3 0x01) s := rfl

/-- The clock select is the low three bits of the byte that `SET_DIVIDER` writes. -/
theorem memWrite_ctrl_append (cs : ClockCode) (u : TimerUnit) : memWrite 0 (0#5 ++ cs) u = writeClock cs u := by
  rw [memWrite_ctrl_eq, BitVec.extractLsb'_append_eq_right]

/-- Bit 0 of the byte 0x01 clears `OVF`, and its bit 1 leaves `CMF`. -/
theorem memWrite_flags_one (u : TimerUnit) :
    memWrite 3 0x01 u = .ok { u with regs := { u.regs with ovf := false } } := by
  rw [memWrite_flags_eq, writeOneToClear_eq, writeOneToClear_eq]
  rfl

/-- Settles O53: the write of `CS` passes the check of 20_memory.md R63 or fails it. -/
theorem setDividerWritesTheClockSelect : Obligations.SetDividerWritesTheClockSelect := by
  intro cs s
  rw [exec_setDivider_eq_regWrite]
  refine ⟨fun hs => ?_, fun hn => ?_⟩
  · exact exec_regWrite_ok ((memWrite_ctrl_append cs s.unit).trans (writeClock_supported hs))
  · exact exec_regWrite_error ((memWrite_ctrl_append cs s.unit).trans (writeClock_unsupported hn))

/-! `READ_OVF`. -/

theorem widen_ofBool (b : Bool) : (BitVec.ofBool b).setWidth 64 = if b then 1#64 else 0#64 := by cases b <;> rfl

theorem opReadOvf_eq (u : TimerUnit) : opReadOvf u = .ok (u, if u.regs.ovf then 1 else 0) := by
  rw [opReadOvf, widen_ofBool]
  rfl

/-- Settles O54: two register writes that cannot fail, and a read of the flag. -/
theorem preloadAndOverflowFlagMethods : Obligations.PreloadAndOverflowFlagMethods := by
  refine fun s => ⟨fun value => ?_, ?_, ?_⟩
  · rw [exec_setPreload_eq_regWrite]
    exact exec_regWrite_ok (memWrite_count_eq value s.unit)
  · exact exec_plain_ok rfl (opReadOvf_eq s.unit)
  · rw [exec_clearOvf_eq_regWrite]
    exact exec_regWrite_ok (memWrite_flags_one s.unit)

/-! The interrupt mask. -/

theorem exec_irqDisable (s : State) : exec .irqDisable s = .next (irqDisableOn s) := rfl

theorem exec_irqEnable (s : State) : exec .irqEnable s = .next (irqEnableOn s) := rfl

/-- While `GIE` = 0 no unit has an eligible source (60_exceptions.md R268). -/
theorem not_enabled_dispatch_of_masked {s : State} (h : s.gie = false) (k : Nat) : ¬Enabled s (.dispatch k) := by
  rintro ⟨u, -, src, heligible⟩
  cases h.symm.trans (eligible_gie heligible)

/-- An eligible source of the addressed unit enables its dispatch. -/
theorem enabled_dispatch_selected {s : State} {src : Source} (h : eligible s.gie s.unit src = true) :
    Enabled s (.dispatch s.selected) := ⟨s.unit, State.allUnits_selected s, src, h⟩

/-- Under `GIE` = 1 a pending and enabled source is eligible (60_exceptions.md R268). -/
theorem eligible_of_pending {u : TimerUnit} {src : Source} (hpending : u.regs.pending src = true)
    (henabled : u.regs.enabled src = true) : eligible true u src = true := by
  rw [eligible, hpending, henabled]
  rfl

/-- Settles O58: `GIE` = 0 keeps every source out, and `GIE` = 1 makes a pending, enabled one eligible. -/
theorem interruptMaskOperations : Obligations.InterruptMaskOperations := by
  refine fun s => ⟨exec_irqDisable s, exec_irqEnable s, fun t k h => ?_, fun t src h hpending henabled => ?_⟩
  · rw [exec_irqDisable] at h
    cases h
    exact not_enabled_dispatch_of_masked (irqDisableOn_gie s) k
  · rw [exec_irqEnable] at h
    cases h
    exact enabled_dispatch_selected (s := irqEnableOn s) (eligible_of_pending hpending henabled)

end Sys2Proof.Machine
end

section
/-! The pin operations of 60_exceptions.md R285 to R287: each is a write of one pin. -/

namespace Sys2Proof.Machine

/-- A pin read after the write of any pin. -/
theorem pin_writePin (u : TimerUnit) (p q : PinRef) (st : PinState) :
    (u.writePin p st).pin q = if q = p then st else u.pin q := by
  by_cases hq : q = p
  · rw [if_pos hq, hq, pin_writePin_self]
  · rw [if_neg hq, pin_writePin_ne u st hq]

/-- Settles O45: set, toggle and configure_direction write the pin, with one of its two halves as it was. -/
theorem pinOperationsChangeOnePin : Obligations.PinOperationsChangeOnePin := by
  refine fun u p q => ⟨fun l => pin_writePin u p q _, ?_, fun d => pin_writePin u p q _⟩
  rw [← flipLevel_eq]
  exact pin_writePin u p q _

end Sys2Proof.Machine
end

section
/-! One unit for each step (60_exceptions.md R290), and what is kept by every operation and dispatch: both are put
together from `OperationChange`s of the addressed unit and writes of `GIE`, so a property that these keep is kept
(`exec_keeps`, `irqDispatch_keeps`). The inputs of the system are the first: with them every operation completes on the
addressed unit alone. -/

namespace Sys2Proof.Machine

/-! One unit for each step. -/

/-- Acting on the addressed unit leaves the unit of every other number. -/
theorem ActsOnUnit.getElem?_of_ne {s t : State} (h : ActsOnUnit s t) {j : Nat} (hj : j ≠ s.selected) :
    t.allUnits[j]? = s.allUnits[j]? := by
  rw [h.allUnits, onUnit_getElem?, if_neg hj]

/-- Settles O18: the unit is the one the step addresses. -/
theorem stepChangesAtMostOneUnit : Obligations.StepChangesAtMostOneUnit := by
  intro s t h
  obtain ⟨s', hall, -, hact⟩ := step_actsOnOneUnit h
  exact ⟨s'.selected, fun j hj => (hact.getElem?_of_ne hj).trans (by rw [hall])⟩

/-! What operations and dispatches keep. -/

/-- The changes of the addressed unit that an operation or a dispatch is put together from: those of `UnitChange` that
are no step of another agent. -/
inductive OperationChange : (TimerUnit → TimerUnit) → Prop
  | operation {i : Instr} {op : TimerUnit → OpResult} (h : plainOp i = some op) : OperationChange (finish op)
  | delayBlocking (cs : ClockCode) (preload : Byte) (rep : Word32) : OperationChange (opDelayBlocking cs preload rep)
  | ret (v : Word) : OperationChange (TimerUnit.ret v)
  | raise (e : ErrorCode) : OperationChange (TimerUnit.raise e)
  | clearFlag (src : Source) : OperationChange fun u => { u with regs := u.regs.clearFlag src }
  | pwmService : OperationChange pwmService
  | countOverflow : OperationChange countOverflow
  | logCallback (c : CallbackRef) : OperationChange (logCallback c)
  | callbackEffect (l : List CallbackRun) : OperationChange fun u => { u with cbEffect := l }
  | rearm (reload : Bool) : OperationChange (rearm reload)

section
variable {P : State → Prop} (hunit : ∀ f s, OperationChange f → P s → P (s.onUnit f))
  (hgie : ∀ g s, P s → P { s with gie := g }) {s t : State} (h : P s)
include hunit hgie h

theorem invoke_keeps (c : CallbackRef) : P (invoke c s) :=
  callbackEffect_keeps
    (fun _ _ r ho => hunit _ r (.operation ho))
    (fun r => hunit _ r (.raise _))
    (fun g r hr => hunit _ { r with gie := g } (.ret 0) (hgie g r hr))
    (fun l r => hunit _ r (.callbackEffect l))
    (hunit _ s (.logCallback c) h)

theorem callbackService_keeps (reload : Bool) : P (callbackService reload s) := by
  have hcount : P (s.onUnit countOverflow) := hunit _ s .countOverflow h
  rcases callbackService_cases reload s with ⟨-, e⟩ | ⟨-, -, e⟩ | ⟨-, c, -, e⟩ <;> rw [e]
  · exact hcount
  · exact hunit _ _ (.rearm reload) hcount
  · exact hunit _ _ (.rearm reload) (invoke_keeps hunit hgie hcount c)

theorem handlerBody_keeps (src : Source) : P (handlerBody src s) := by
  rcases handlerBody_cases src s with ⟨-, -, e⟩ | ⟨-, reload, e⟩ | ⟨-, e⟩ <;> rw [e]
  · exact hunit _ s .pwmService h
  · exact callbackService_keeps hunit hgie h reload
  · exact h

theorem takeInterrupt_keeps (src : Source) : P (takeInterrupt src (handlerBody src) s) := by
  have henter : P (enterHandler src s) := hunit _ { s with gie := false } (.clearFlag src) (hgie false s h)
  exact hgie true _ (handlerBody_keeps hunit hgie henter src)

theorem irqDispatch_keeps : P (irqDispatch s) := by
  rcases irqDispatch_cases s with ⟨-, e⟩ | ⟨src, -, -, e⟩ <;> rw [e]
  · exact h
  · exact takeInterrupt_keeps hunit hgie h src

/-- A handler entry point issued by the host: the body, then `return`. -/
theorem handlerEntry_keeps (src : Source) (he : unlessHung s ((handlerBody src s).onUnit (TimerUnit.ret 0)) = .next t) :
    P t := by
  obtain ⟨-, rfl⟩ := unlessHung_next.mp he
  exact hunit _ _ (.ret 0) (handlerBody_keeps hunit hgie h src)

theorem exec_keeps {i : Instr} (he : exec i s = .next t) : P t := by
  rcases exec_cases i s with ⟨op, ho, e⟩ | ⟨cs, preload, rep, -, e⟩ | ⟨-, e⟩ | ⟨-, e⟩ | ⟨-, e⟩ | ⟨-, e⟩ <;> rw [e] at he
  · cases he
    exact hunit _ s (.operation ho) h
  · cases he
    exact hunit _ s (.delayBlocking cs preload rep) h
  · cases he
    exact hunit _ { s with gie := false } (.ret 0) (hgie false s h)
  · cases he
    exact hunit _ { s with gie := true } (.ret 0) (hgie true s h)
  · exact handlerEntry_keeps hunit hgie h .compareMatch he
  · exact handlerEntry_keeps hunit hgie h .overflow he

end

/-! The inputs of the system. -/

/-- The host's commands, and the choices of the coming steps, are those of `s`. -/
structure SameInputs (s t : State) : Prop where
  hostQueue : t.hostQueue = s.hostQueue
  turns : t.turns = s.turns
  freeIndex : t.freeIndex = s.freeIndex
  fairIndex : t.fairIndex = s.fairIndex
  patience : t.patience = s.patience

theorem exec_sameInputs {i : Instr} {s t : State} (h : exec i s = .next t) : SameInputs s t :=
  exec_keeps (P := SameInputs s) (fun _ _ _ hr => { hr with }) (fun _ _ hr => { hr with })
    ⟨rfl, rfl, rfl, rfl, rfl⟩ h

/-! Which operations end. -/

theorem serviceHangs_iff {u : TimerUnit} :
    serviceHangs u = true ↔
      u.owner = .callback ∧ u.cb.count + 1 = u.cb.target ∧ u.cb.callback ≠ none ∧ u.cbEffect.head? = some .never := by
  simp only [serviceHangs, Bool.and_eq_true, decide_eq_true_eq, Option.isSome_iff_ne_none, and_assoc]

/-- Only a handler entry point runs a service, so every other operation ends. -/
theorem exec_ends {i : Instr} {s : State}
    (h : i = .onOverflow ∨ i = .onCompareMatch → serviceHangs s.unit = false) : ∃ t, exec i s = .next t := by
  rcases exec_cases i s with ⟨op, -, e⟩ | ⟨cs, preload, rep, -, e⟩ | ⟨-, e⟩ | ⟨-, e⟩ | ⟨rfl, -⟩ | ⟨rfl, -⟩
  · exact ⟨_, e⟩
  · exact ⟨_, e⟩
  · exact ⟨_, e⟩
  · exact ⟨_, e⟩
  · exact ⟨_, exec_onCompareMatch (h (.inr rfl))⟩
  · exact ⟨_, exec_onOverflow (h (.inl rfl))⟩

theorem unlessHung_of_hangs {s : State} (h : serviceHangs s.unit = true) (t : State) :
    unlessHung s t = .fault .callbackNeverReturns := if_pos h

theorem exec_of_hangs {i : Instr} {s : State} (hi : i = .onOverflow ∨ i = .onCompareMatch)
    (h : serviceHangs s.unit = true) : exec i s = .fault .callbackNeverReturns := by
  rcases hi with rfl | rfl
  · exact unlessHung_of_hangs h _
  · exact unlessHung_of_hangs h _

/-- Settles O20: an operation ends unless its service hangs, acts on the addressed unit, and keeps the inputs. -/
theorem operationCompletesOnTheAddressedUnitAlone : Obligations.OperationCompletesOnTheAddressedUnitAlone := by
  refine ⟨fun i s h => ?_, fun i s hi howner htarget hstored hnever => ?_⟩
  · obtain ⟨t, he⟩ := exec_ends fun hi => Bool.eq_false_iff.mpr (mt serviceHangs_iff.mp (h hi))
    have hact := ActsOnUnit.exec he
    obtain ⟨hqueue, hturns, hfree, hfair, hpatience⟩ := exec_sameInputs he
    exact ⟨t, he, hact.before, hact.after, hact.policy, hqueue, hturns, hfree, hfair, hpatience, cfg_of_changes hact.unit⟩
  · exact exec_of_hangs hi (serviceHangs_iff.mpr ⟨howner, htarget, hstored, hnever⟩)

end Sys2Proof.Machine
end

section
/-! The errors of 60_exceptions.md: what an operation that ends in one has changed (R260), and the causes of
InvalidArgument (R262). Both rest on the end of an operation: it returns with status 0, or it raises an error on the unit
as it was. -/

namespace Sys2Proof.Machine

/-! How an operation ends. -/

/-- A status other than 0 is that of a plain operation's error. -/
theorem exec_status_cases {i : Instr} {s t : State} (hi : ∀ cs preload rep, i ≠ .delayBlocking cs preload rep)
    (h : exec i s = .next t) :
    t.unit.res.status = 0 ∨
      ∃ op e, plainOp i = some op ∧ op s.unit = .error e ∧ t = s.onUnit (TimerUnit.raise e) := by
  have hentry : ∀ src, unlessHung s ((handlerBody src s).onUnit (TimerUnit.ret 0)) = .next t →
      t.unit.res.status = 0 := by
    intro src hr
    obtain ⟨-, rfl⟩ := unlessHung_next.mp hr
    rfl
  rcases exec_cases i s with ⟨op, ho, e⟩ | ⟨cs, preload, rep, rfl, -⟩ | ⟨-, e⟩ | ⟨-, e⟩ | ⟨-, e⟩ | ⟨-, e⟩
  · rw [e] at h
    cases h
    rcases finish_cases op s.unit with ⟨u', v, -, hfinish⟩ | ⟨err, hop, hfinish⟩
    · exact .inl (by rw [State_onUnit_unit, hfinish, TimerUnit_ret_res])
    · exact .inr ⟨op, err, ho, hop, onUnit_eq hfinish⟩
  · exact absurd rfl (hi cs preload rep)
  · cases e.symm.trans h
    exact .inl rfl
  · cases e.symm.trans h
    exact .inl rfl
  · exact .inl (hentry .compareMatch (e.symm.trans h))
  · exact .inl (hentry .overflow (e.symm.trans h))

/-- Settles O21: the error was raised on the unit as it was. -/
theorem errorChangesOnlyTheResultRegisters : Obligations.ErrorChangesOnlyTheResultRegisters := by
  intro i s t hi h hstatus
  rcases exec_status_cases hi h with hzero | ⟨op, e, -, -, rfl⟩
  · exact absurd hzero hstatus
  · rfl

/-! InvalidArgument, operation by operation. -/

theorem planDelay_invalidArgument_iff_delayOk {cfg : UnitConfig} {ms : Word32} :
    planDelay cfg (val32 ms) = .error .invalidArgument ↔ delayOk ms = false := by
  rw [delayOk]
  cases val32 ms with
  | none => exact iff_of_true rfl rfl
  | some x => rw [planDelay_invalidArgument_iff, decide_eq_false_iff_not, not_le]

theorem opPlanDelay_error_iff {ms : Word32} {u : TimerUnit} {e : ErrorCode} :
    opPlanDelay ms u = .error e ↔ planDelay u.cfg (val32 ms) = .error e := by
  unfold opPlanDelay
  cases planDelay u.cfg (val32 ms) <;> simp

theorem opSchedule_error_iff {periodic : Bool} {callback : CallbackRef} {ms : Word32} {u : TimerUnit} {e : ErrorCode} :
    opSchedule periodic callback ms u = .error e ↔ planDelay u.cfg (val32 ms) = .error e := by
  unfold opSchedule
  cases planDelay u.cfg (val32 ms) <;> simp

theorem opWrite_error_iff {idx : RegIndex} {b : Byte} {u : TimerUnit} {e : ErrorCode} :
    opWrite idx b u = .error e ↔ memWrite idx b u = .error e := by
  unfold opWrite
  cases memWrite idx b u <;> simp

theorem opPwmConfigure_invalidArgument_iff {pin : PinRef} {khz : Word32} {u : TimerUnit} :
    opPwmConfigure pin khz u = .error .invalidArgument ↔ frequencyOk khz = false := by
  rw [opPwmConfigure, frequencyOk]
  cases val32 khz with
  | none => exact iff_of_true rfl rfl
  | some f => by_cases hf : 0 < f <;> simp [hf, not_le]

/-- The phase plans end in the other two errors only (43_pwm_engine.md R175). -/
theorem phasePlans_ne_invalidArgument {cfg : UnitConfig} {t : Rat} {duty : Byte} :
    phasePlans cfg t duty ≠ .error .invalidArgument := by
  unfold phasePlans
  split
  · nofun
  · split
    · split <;> nofun
    · nofun

/-- A duty in range on a configured engine fails at most in its phase plans. -/
theorem opPwmStart_ne_invalidArgument {duty : Byte} {u : TimerUnit} {c : PwmConfig} (hle : duty.toNat ≤ 100)
    (hc : u.pwm.config = some c) : opPwmStart duty u ≠ .error .invalidArgument := by
  simp only [opPwmStart, if_neg (not_lt.mpr hle), hc]
  split
  · nofun
  · split
    · rename_i e he
      intro h
      cases h
      exact phasePlans_ne_invalidArgument he
    · nofun

theorem opPwmStart_invalidArgument_iff {duty : Byte} {u : TimerUnit} :
    opPwmStart duty u = .error .invalidArgument ↔ ¬duty.toNat ≤ 100 ∨ u.pwm.configured = false := by
  by_cases hle : duty.toNat ≤ 100
  · rw [or_iff_right (not_not.mpr hle), Pwm.configured]
    cases hc : u.pwm.config with
    | none => exact iff_of_true (opPwmStart_of_unconfigured hle hc) rfl
    | some c => exact iff_of_false (opPwmStart_ne_invalidArgument hle hc) nofun
  · exact iff_of_true (opPwmStart_of_over (not_le.mp hle) u) (.inl hle)

theorem writeClock_error_iff {cs : ClockCode} {u : TimerUnit} :
    writeClock cs u = .error .invalidArgument ↔ codeSupported u.cfg cs = false := by
  rw [writeClock]
  cases codeSupported u.cfg cs <;> simp

theorem memWrite_error_iff {idx : RegIndex} {v : Byte} {u : TimerUnit} :
    memWrite idx v u = .error .invalidArgument ↔ (Instr.regWrite idx v).wellFormed u.cfg = false := by
  rcases regIndex_cases idx with rfl | rfl | rfl | rfl | rfl | hidx
  · exact writeClock_error_iff
  · exact iff_of_false nofun nofun
  · exact iff_of_false nofun nofun
  · exact iff_of_false nofun nofun
  · exact iff_of_false nofun nofun
  · exact iff_of_true (memWrite_unmapped hidx v u) (by simp [Instr.wellFormed, not_le.mpr hidx])

theorem opRegRead_error_iff {idx : RegIndex} {u : TimerUnit} :
    opRegRead idx u = .error .invalidArgument ↔ (Instr.regRead idx).wellFormed u.cfg = false := by
  rcases regIndex_cases idx with rfl | rfl | rfl | rfl | rfl | hidx
  · exact iff_of_false nofun nofun
  · exact iff_of_false nofun nofun
  · exact iff_of_false nofun nofun
  · exact iff_of_false nofun nofun
  · exact iff_of_false nofun nofun
  · exact iff_of_true (by rw [opRegRead, memRead_unmapped hidx]) (by simp [Instr.wellFormed, not_le.mpr hidx])

/-! InvalidArgument, for every operation. -/

/-- The causes of InvalidArgument but those of `DELAY_BLOCKING` (60_exceptions.md R262). -/
def RejectsArgument (i : Instr) (u : TimerUnit) : Prop :=
  i.wellFormed u.cfg = false ∨ ((∃ duty, i = .pwmStart duty) ∧ u.pwm.configured = false)

theorem rejectsArgument_iff_of_ne_pwmStart {i : Instr} {u : TimerUnit} (h : ∀ duty, i ≠ .pwmStart duty) :
    RejectsArgument i u ↔ i.wellFormed u.cfg = false :=
  or_iff_left fun ⟨⟨duty, hi⟩, _⟩ => h duty hi

theorem plainOp_invalidArgument_iff {i : Instr} {op : TimerUnit → OpResult} (ho : plainOp i = some op)
    (u : TimerUnit) : op u = .error .invalidArgument ↔ RejectsArgument i u := by
  cases i <;> simp only [plainOp, Option.some.injEq, reduceCtorEq] at ho <;> subst ho
  case pwmStart duty =>
    rw [opPwmStart_invalidArgument_iff, RejectsArgument, Instr.wellFormed, decide_eq_false_iff_not,
      and_iff_right ⟨duty, rfl⟩]
  all_goals rw [rejectsArgument_iff_of_ne_pwmStart (by simp)]
  case planDelay => exact opPlanDelay_error_iff.trans planDelay_invalidArgument_iff_delayOk
  case pwmConfigure => exact opPwmConfigure_invalidArgument_iff
  case schedule => exact opSchedule_error_iff.trans planDelay_invalidArgument_iff_delayOk
  case setDivider cs =>
    rw [opSetDivider, opWrite_error_iff, memWrite_ctrl_append]
    exact writeClock_error_iff
  case regRead => exact opRegRead_error_iff
  case regWrite => exact opWrite_error_iff.trans memWrite_error_iff
  all_goals exact iff_of_false nofun nofun

/-- An operation that is no plain one rejects nothing, the start of a blocking delay apart. -/
theorem not_rejectsArgument_of_not_plain {i : Instr} {u : TimerUnit}
    (hi : ∀ cs preload rep, i ≠ .delayBlocking cs preload rep) (ho : plainOp i = none) : ¬RejectsArgument i u := by
  cases i <;> cases ho
  case delayBlocking => exact absurd rfl (hi _ _ _)
  all_goals
    rw [rejectsArgument_iff_of_ne_pwmStart (by simp)]
    nofun

theorem ErrorCode.code_eq_one_iff {e : ErrorCode} : e.code = 1 ↔ e = .invalidArgument := by cases e <;> decide

/-- The operand check of `DELAY_BLOCKING` (42_blocking_timer.md R151). -/
theorem delayBlocking_wellFormed_iff {cfg : UnitConfig} {cs : ClockCode} {preload : Byte} {rep : Word32} :
    (Instr.delayBlocking cs preload rep).wellFormed cfg = true ↔
      ∃ d, divOf cs = some d ∧ d ∈ cfg.dividers ∧ rep.toNat ≤ repeatMax := by
  simp only [Instr.wellFormed, Bool.and_eq_true, decide_eq_true_eq, codeSupported_iff, and_assoc]
  constructor
  · rintro ⟨hne, hmem, hrep⟩
    obtain ⟨d, hd⟩ := Option.ne_none_iff_exists'.mp (mt divOf_eq_none.mp hne)
    exact ⟨d, hd, hmem d hd, hrep⟩
  · rintro ⟨d, hd, hmem, hrep⟩
    obtain rfl := code_of_divOf hd
    exact ⟨d.code_ne_zero, clock_of_mem hmem, hrep⟩

/-- Settles O22: a plain operation ends with status 1 iff it raises InvalidArgument, and the operand check of
`DELAY_BLOCKING` has two outcomes. -/
theorem invalidArgumentHasExactlyItsCauses : Obligations.InvalidArgumentHasExactlyItsCauses := by
  refine ⟨fun i s t hi h => ⟨fun hone => ?_, fun hrejects => ?_⟩,
    fun cs preload rep s => ⟨fun hbad => ?_, fun hgood => ?_⟩⟩
  · rcases exec_status_cases hi h with hzero | ⟨op, e, ho, hop, rfl⟩
    · cases hzero.symm.trans hone
    · obtain rfl := ErrorCode.code_eq_one_iff.mp hone
      exact (plainOp_invalidArgument_iff ho s.unit).mp hop
  · cases ho : plainOp i with
    | none => exact absurd hrejects (not_rejectsArgument_of_not_plain hi ho)
    | some op =>
      cases (exec_plain_error ho ((plainOp_invalidArgument_iff ho s.unit).mpr hrejects)).symm.trans h
      rfl
  · rcases opDelayBlocking_cases cs preload rep s.unit with ⟨d, hd, hmem, hrep, -⟩ | ⟨-, e⟩
    · cases hbad.symm.trans (delayBlocking_wellFormed_iff.mpr ⟨d, hd, hmem, hrep⟩)
    · exact congrArg Host.Outcome.next (onUnit_eq e)
  · obtain ⟨d, hd, hmem, hrep⟩ := delayBlocking_wellFormed_iff.mp hgood
    exact ⟨_, exec_delayBlocking_of_supported (p := ⟨d, preload, rep⟩) hd hmem hrep, rfl, rfl⟩

end Sys2Proof.Machine
end

section
/-! The interrupts of 60_exceptions.md: no operation, poll or dispatch sets a flag (R268), compare match is taken before
overflow (R269), and what taking an interrupt does and leaves (R270 to R272). -/

namespace Sys2Proof.Machine

/-! Flags are set by ticks only. -/

/-- Every flag that is 1 in `u'` was 1 in `u`. -/
structure SetsNoFlag (u u' : TimerUnit) : Prop where
  ovf : u'.regs.ovf = true → u.regs.ovf = true
  cmf : u'.regs.cmf = true → u.regs.cmf = true

theorem SetsNoFlag.trans {u v w : TimerUnit} (h : SetsNoFlag u v) (h' : SetsNoFlag v w) : SetsNoFlag u w :=
  ⟨fun hw => h.ovf (h'.ovf hw), fun hw => h.cmf (h'.cmf hw)⟩

/-- A plain operation writes flags by write-one-to-clear, or clears `OVF`. -/
theorem plainOp_setsNoFlag {i : Instr} {op : TimerUnit → OpResult} (ho : plainOp i = some op) {u u' : TimerUnit}
    {v : Word} (h : op u = .ok (u', v)) : SetsNoFlag u u' := by
  have hwrite : ∀ {idx b}, opWrite idx b u = .ok (u', v) → SetsNoFlag u u' := by
    intro idx b hw
    obtain ⟨hovf, hcmf⟩ := memWrite_flags (opWrite_ok hw).2
    exact ⟨hovf, hcmf⟩
  cases i <;> simp only [plainOp, Option.some.injEq, reduceCtorEq] at ho <;> subst ho
  case planDelay =>
    rw [(opPlanDelay_ok h).1]
    exact ⟨id, id⟩
  case pwmConfigure =>
    obtain ⟨-, f, -, -, rfl⟩ := opPwmConfigure_ok h
    exact ⟨id, id⟩
  case pwmStart =>
    obtain ⟨-, -, c, -, ⟨-, rfl⟩ | ⟨-, a, b, -, rfl⟩⟩ := opPwmStart_ok h
    · exact ⟨nofun, id⟩
    · exact ⟨nofun, id⟩
  case schedule =>
    obtain ⟨-, p, -, rfl⟩ := opSchedule_ok h
    exact ⟨nofun, id⟩
  case regRead =>
    rw [(opRegRead_ok h).1]
    exact ⟨id, id⟩
  case setDivider => exact hwrite h
  case setPreload => exact hwrite h
  case clearOvf => exact hwrite h
  case regWrite => exact hwrite h
  case pwmStop => cases h; exact ⟨id, id⟩
  case cancel => cases h; exact ⟨id, id⟩
  case readOvf => cases h; exact ⟨id, id⟩

/-- The flags and the result registers of `u'` are those of `u`. -/
structure KeepsFlagsAndResults (u u' : TimerUnit) : Prop where
  ovf : u'.regs.ovf = u.regs.ovf
  cmf : u'.regs.cmf = u.regs.cmf
  res : u'.res = u.res

theorem KeepsFlagsAndResults.setsNoFlag {u u' : TimerUnit} (h : KeepsFlagsAndResults u u') : SetsNoFlag u u' :=
  ⟨fun hset => h.ovf ▸ hset, fun hset => h.cmf ▸ hset⟩

theorem pwmService_keepsFlagsAndResults (u : TimerUnit) : KeepsFlagsAndResults u (pwmService u) := by
  rcases pwmService_cases u with e | ⟨c, q, -, -, -, e⟩ <;> rw [e] <;> exact ⟨rfl, rfl, rfl⟩

theorem rearm_keepsFlagsAndResults (reload : Bool) (u : TimerUnit) : KeepsFlagsAndResults u (rearm reload u) := by
  rw [rearm_eq]
  split
  · split <;> exact ⟨rfl, rfl, rfl⟩
  · exact ⟨rfl, rfl, rfl⟩

theorem OperationChange.setsNoFlag {f : TimerUnit → TimerUnit} (h : OperationChange f) (u : TimerUnit) :
    SetsNoFlag u (f u) := by
  cases h with
  | @operation i op ho =>
    rcases finish_cases op u with ⟨w, v, hop, e⟩ | ⟨err, -, e⟩ <;> rw [e]
    · exact (plainOp_setsNoFlag ho hop).trans ⟨id, id⟩
    · exact ⟨id, id⟩
  | delayBlocking cs preload rep =>
    rcases opDelayBlocking_cases cs preload rep u with ⟨d, -, -, -, e⟩ | ⟨-, e⟩ <;> rw [e]
    · exact ⟨nofun, id⟩
    · exact ⟨id, id⟩
  | clearFlag src =>
    cases src
    · exact ⟨nofun, id⟩
    · exact ⟨id, nofun⟩
  | pwmService => exact (pwmService_keepsFlagsAndResults u).setsNoFlag
  | rearm reload => exact (rearm_keepsFlagsAndResults reload u).setsNoFlag
  | _ => exact ⟨id, id⟩

section
variable {s t : State}

/-- Further changes of an operation set no flag either. -/
theorem SetsNoFlag.operationChange {f : TimerUnit → TimerUnit} {r : State} (h : SetsNoFlag s.unit r.unit)
    (hf : OperationChange f) : SetsNoFlag s.unit (r.onUnit f).unit := h.trans (hf.setsNoFlag r.unit)

theorem exec_setsNoFlag {i : Instr} (h : exec i s = .next t) : SetsNoFlag s.unit t.unit :=
  exec_keeps (P := fun r => SetsNoFlag s.unit r.unit) (fun _ _ hf hr => hr.operationChange hf) (fun _ _ hr => hr)
    ⟨id, id⟩ h

theorem handlerBody_setsNoFlag (src : Source) (s : State) : SetsNoFlag s.unit (handlerBody src s).unit :=
  handlerBody_keeps (P := fun r => SetsNoFlag s.unit r.unit) (fun _ _ hf hr => hr.operationChange hf)
    (fun _ _ hr => hr) ⟨id, id⟩ src

theorem irqDispatch_setsNoFlag (s : State) : SetsNoFlag s.unit (irqDispatch s).unit :=
  irqDispatch_keeps (P := fun r => SetsNoFlag s.unit r.unit) (fun _ _ hf hr => hr.operationChange hf)
    (fun _ _ hr => hr) ⟨id, id⟩

end

theorem btPoll_flags (u : TimerUnit) :
    ((btPoll u).regs.ovf = true → u.regs.ovf = true) ∧ (btPoll u).regs.cmf = u.regs.cmf := by
  rcases btPoll_cases u with ⟨-, e⟩ | ⟨-, -, e⟩ | ⟨-, -, e⟩ <;> rw [e]
  · exact ⟨id, rfl⟩
  · exact ⟨nofun, rfl⟩
  · exact ⟨nofun, rfl⟩

/-- Settles O23: each change of an operation or a dispatch sets no flag. -/
theorem flagsAreSetOnlyByTicks : Obligations.FlagsAreSetOnlyByTicks := by
  refine ⟨fun i s t h => ?_, btPoll_flags, fun s => ?_⟩
  · obtain ⟨hovf, hcmf⟩ := exec_setsNoFlag h
    exact ⟨hovf, hcmf⟩
  · obtain ⟨hovf, hcmf⟩ := irqDispatch_setsNoFlag s
    exact ⟨hovf, hcmf⟩

/-! The source that is taken. -/

theorem eligible_iff {gie : Bool} {u : TimerUnit} {src : Source} :
    eligible gie u src = true ↔ u.regs.pending src = true ∧ u.regs.enabled src = true ∧ gie = true := by
  rw [eligible, Bool.and_eq_true, Bool.and_eq_true, and_assoc]

theorem irqDispatch_of_topSource {s : State} {src : Source} (h : topSource s.gie s.unit = some src) :
    irqDispatch s = takeInterrupt src (handlerBody src) s := by rw [irqDispatch, h]

theorem topSource_of_compareMatch {gie : Bool} {u : TimerUnit} (h : eligible gie u .compareMatch = true) :
    topSource gie u = some .compareMatch := if_pos h

theorem topSource_of_overflow {gie : Bool} {u : TimerUnit} (hcompare : eligible gie u .compareMatch = false)
    (hoverflow : eligible gie u .overflow = true) : topSource gie u = some .overflow := by
  rw [topSource, if_neg (Bool.eq_false_iff.mp hcompare), if_pos hoverflow]

/-- Settles O59: eligibility is a conjunction, and `topSource` looks at compare match first. -/
theorem compareMatchIsTakenBeforeOverflow : Obligations.CompareMatchIsTakenBeforeOverflow :=
  fun _ => ⟨eligible_iff, eligible_iff, fun hcompare => irqDispatch_of_topSource (topSource_of_compareMatch hcompare),
    fun hcompare hoverflow => irqDispatch_of_topSource (topSource_of_overflow hcompare hoverflow)⟩

/-! Taking it. -/

/-- The flag that is served is 0 at the end, since the body sets no flag. -/
theorem takeInterrupt_clears (src : Source) (s : State) :
    (takeInterrupt src (handlerBody src) s).unit.regs.pending src = false := by
  have hbody := handlerBody_setsNoFlag src (enterHandler src s)
  cases src
  · exact Bool.eq_false_iff.mpr fun hset => nomatch hbody.ovf hset
  · exact Bool.eq_false_iff.mpr fun hset => nomatch hbody.cmf hset

theorem serviceDefault_keepsFlagsAndResults (reload : Bool) (u : TimerUnit) :
    KeepsFlagsAndResults u (serviceDefault reload u) := by
  by_cases htarget : u.cb.count + 1 = u.cb.target
  · rw [serviceDefault_target htarget]
    exact { rearm_keepsFlagsAndResults reload u.logStored with }
  · rw [serviceDefault_below htarget]
    exact ⟨rfl, rfl, rfl⟩

/-- A handler body whose callback issues nothing leaves the flags and the result registers. -/
theorem handlerBody_keepsFlagsAndResults (src : Source) {s : State} (h : s.unit.cbEffect = []) :
    KeepsFlagsAndResults s.unit (handlerBody src s).unit := by
  rcases handlerBody_cases src s with ⟨-, -, e⟩ | ⟨-, reload, e⟩ | ⟨-, e⟩ <;> rw [e]
  · exact pwmService_keepsFlagsAndResults s.unit
  · rw [callbackService_default reload h]
    exact serviceDefault_keepsFlagsAndResults reload s.unit
  · exact ⟨rfl, rfl, rfl⟩

/-! The step `IRQ_DISPATCH`. -/

theorem perform_dispatch_selected (s : State) : perform (.dispatch s.selected) s = dispatchStep s :=
  atUnit_some (focus_selected s)

theorem perform_dispatch_of_topSource {s : State} {src : Source} (hends : serviceHangs s.unit = false)
    (h : topSource s.gie s.unit = some src) :
    perform (.dispatch s.selected) s = .next (takeInterrupt src (handlerBody src) s) := by
  rw [perform_dispatch_selected, dispatchStep_of_not hends, irqDispatch_of_topSource h]

/-- An enabled dispatch of the addressed unit has a source to take. -/
theorem exists_topSource_of_enabled {s : State} (h : Enabled s (.dispatch s.selected)) :
    ∃ src, topSource s.gie s.unit = some src := by
  obtain ⟨u, hu, hsrc⟩ := h
  obtain rfl : s.unit = u := Option.some.inj ((State.allUnits_selected s).symm.trans hu)
  exact Option.isSome_iff_exists.mp (irqDue_iff.mpr hsrc)

theorem perform_dispatch_of_hangs {s : State} (hhangs : serviceHangs s.unit = true)
    (h : Enabled s (.dispatch s.selected)) : perform (.dispatch s.selected) s = .fault .callbackNeverReturns := by
  obtain ⟨src, htop⟩ := exists_topSource_of_enabled h
  rw [perform_dispatch_selected, dispatchStep, htop]
  exact unlessHung_of_hangs hhangs _

/-- Settles O60: entry clears the flag and the body sets none, so it is 0 at the end; and the dispatch step takes the
interrupt of `topSource` unless the service hangs. -/
theorem takingAnInterruptClearsServesAndReturns : Obligations.TakingAnInterruptClearsServesAndReturns := by
  refine fun s => ⟨rfl, rfl, takeInterrupt_clears .overflow s, takeInterrupt_clears .compareMatch s,
    fun hdefault => ?_, fun hnot => ?_, fun howner htarget hstored hnever henabled => ?_⟩
  · have hoverflow := handlerBody_keepsFlagsAndResults .overflow (s := enterHandler .overflow s) hdefault
    have hcompare := handlerBody_keepsFlagsAndResults .compareMatch (s := enterHandler .compareMatch s) hdefault
    exact ⟨hoverflow.res, hoverflow.cmf, hcompare.res, hcompare.ovf⟩
  · have hends : serviceHangs s.unit = false := Bool.eq_false_iff.mpr (mt serviceHangs_iff.mp hnot)
    exact ⟨fun hcompare => perform_dispatch_of_topSource hends (topSource_of_compareMatch hcompare),
      fun hcompare hoverflow => perform_dispatch_of_topSource hends (topSource_of_overflow hcompare hoverflow)⟩
  · exact perform_dispatch_of_hangs (serviceHangs_iff.mpr ⟨howner, htarget, hstored, hnever⟩) henabled

end Sys2Proof.Machine
end

section
/-! The step relation of 70_reset_and_hazards.md: a step is one that may come next, and each step that may come next can
come (R310 to R313); the host's step issues its next command; and under FREE every run is weakly fair (R312), since the
waiting choice comes first only finitely often before a step comes in turn, and the rotation reaches every place. -/

namespace Sys2Proof.Machine

/-- Settles O9: the two ways of a step. -/
theorem stepIsOneThePolicyLetsComeNext : Obligations.StepIsOneThePolicyLetsComeNext := by
  intro s t hstep
  rcases step_cases s with ⟨e, hquiet⟩ | ⟨a, s0, ha, hs0, e⟩ <;> rw [e] at hstep
  · cases hstep
    exact .inl ⟨rfl, fun a hmay => hquiet a (allowed_iff.mpr hmay)⟩
  · exact .inr ⟨a, s0, allowed_iff.mp ha, hs0, hstep⟩

/-! The host's step. -/

theorem perform_host {s s' : State} {c : Command} {rest : List Command} (hqueue : s.hostQueue = c :: rest)
    (hfocus : ({ s with hostQueue := rest } : State).focus c.unit = some s') :
    perform .host s = issueWord c.word s' := by
  simp only [perform, hqueue]
  exact atUnit_some hfocus

theorem issueWord_of_decode {w : Word} {i : Instr} (h : decode w = .ok i) (s : State) : issueWord w s = exec i s := by
  rw [issueWord, h]

/-- Settles O7: a host's turn that may come is performed, and addresses a unit that exists. -/
theorem stepRunsTheIssuedCommand : Obligations.StepRunsTheIssuedCommand := by
  intro s c rest ts u hqueue hturns hmay hu
  obtain ⟨s', hfocus⟩ := focus_exists (s := { s with hostQueue := rest, turns := ts }) hu
  have hstep : step s = issueWord c.word s' :=
    (step_of_turn hturns (allowed_iff.mpr hmay)).trans (perform_host (s := { s with turns := ts }) hqueue hfocus)
  exact ⟨s', hfocus, hstep, fun i hi => hstep.trans (issueWord_of_decode hi s')⟩

/-- What the table reads from a word is what the decoder makes of its command word. -/
theorem decode_tableWord {nbits w : Nat} {i : Instr} (h : decodeTableWord nbits w = some i) :
    decode (tableWord nbits w) = .ok i := by
  unfold decodeTableWord at h
  dsimp only at h
  split at h
  · unfold tableWord
    split at h
    · cases h
      assumption
    · cases h
  · cases h

/-- Settles O8: the placed word is the host's next command, and its turn is the first. -/
theorem placedWordRunsNext : Obligations.PlacedWordRunsNext := by
  intro s nbits w i hdecode hidle hpolicy
  have hmay : MayComeNext (s.withFetchWord nbits w) .host := ⟨⟨List.cons_ne_nil _ _, hidle⟩, hpolicy⟩
  obtain ⟨s', hfocus, -, hexec⟩ := stepRunsTheIssuedCommand (s.withFetchWord nbits w) ⟨s.selected, tableWord nbits w⟩
    s.hostQueue s.turns s.unit rfl rfl hmay (State.allUnits_selected s)
  obtain rfl : s = s' := Option.some.inj ((focus_selected s).symm.trans hfocus)
  exact hexec i (decode_tableWord hdecode)

/-! The inputs of choice. -/

/-- The inputs that decide between waiting choice and rotation are those of `s`. -/
structure SameChoices (s t : State) : Prop where
  turns : t.turns = s.turns
  fairIndex : t.fairIndex = s.fairIndex
  patience : t.patience = s.patience

theorem SameChoices.of_focus {s s' t : State} {k : Nat} (hfocus : s.focus k = some s') (h : SameChoices s' t) :
    SameChoices s t := by
  obtain ⟨-, -, -, -, -, -, hturns, -⟩ := focus_some hfocus
  obtain ⟨hfair, hpatience⟩ := focus_choice hfocus
  exact ⟨h.turns.trans hturns, h.fairIndex.trans hfair, h.patience.trans hpatience⟩

theorem issueWord_sameChoices {w : Word} {s t : State} (h : issueWord w s = .next t) : SameChoices s t := by
  rcases issueWord_cases w s with ⟨i, -, e⟩ | ⟨-, e⟩ <;> rw [e] at h
  · exact { exec_sameInputs h with }
  · cases h
    exact ⟨rfl, rfl, rfl⟩

theorem irqDispatch_sameChoices (s : State) : SameChoices s (irqDispatch s) :=
  irqDispatch_keeps (P := SameChoices s) (fun _ _ _ hr => { hr with }) (fun _ _ hr => { hr with }) ⟨rfl, rfl, rfl⟩

/-- No agent's step reads or writes the inputs of choice. -/
theorem perform_sameChoices {a : Turn} {s t : State} (h : perform a s = .next t) : SameChoices s t := by
  rcases perform_cases h with ⟨-, -, rfl⟩ | ⟨-, c, rest, s', -, hf, hi⟩ | ⟨k, s', -, hf, rfl⟩ | ⟨k, s', -, hf, rfl⟩ |
    ⟨k, s', -, hf, rfl⟩ | ⟨k, p, st, s', -, hf, rfl⟩
  · exact ⟨rfl, rfl, rfl⟩
  · exact { SameChoices.of_focus hf (issueWord_sameChoices hi) with }
  · exact .of_focus hf ⟨rfl, rfl, rfl⟩
  · exact .of_focus hf ⟨rfl, rfl, rfl⟩
  · exact .of_focus hf (irqDispatch_sameChoices s')
  · exact .of_focus hf ⟨rfl, rfl, rfl⟩

/-! Weak fairness. -/

/-- How many waiting choices may still be used before a fair turn is due. -/
def State.choicesLeft (s : State) : Nat := s.turns.length + s.patience

theorem choicesLeft_useTurn {s : State} (hfree : s.policy = .free) (hdue : s.fairTurnDue = false) :
    s.useTurn.choicesLeft < s.choicesLeft := by
  cases hturns : s.turns with
  | nil =>
    have hpatience : s.patience ≠ 0 := fun hzero => by
      rw [fairTurnDue_iff.mpr ⟨hturns, hfree, hzero⟩] at hdue
      cases hdue
    simp only [State.choicesLeft, State.useTurn, hturns]
    omega
  | cons a ts =>
    simp only [State.choicesLeft, State.useTurn, hturns, List.length_cons]
    omega

/-- Steps that keep the parameters keep the places of the rotation. -/
theorem candidates_of_params {s t : State} (h : t.params = s.params) : t.candidates = s.candidates := by
  have hlength : t.allUnits.length = s.allUnits.length := by
    simpa [State.params] using congrArg (fun p => p.2.length) h
  rw [State.candidates, hlength, State.candidates]

/-- Under FREE every enabled step may come. -/
theorem allowed_of_enabled {s : State} {a : Turn} (hfree : s.policy = .free) (h : Enabled s a) : allowed s a = true :=
  allowed_iff.mpr ⟨h, fun hprompt => by rw [hfree] at hprompt; cases hprompt⟩

/-- A step under FREE while some candidate is allowed: the waiting choice is used and the rotation stands, or a step comes
in turn and the rotation moves on. -/
theorem step_progress {s t : State} {a : Turn} (hfree : s.policy = .free) (hmem : a ∈ s.candidates)
    (ha : allowed s a = true) (hstep : step s = .next t) :
    (t.fairIndex = s.fairIndex ∧ t.choicesLeft < s.choicesLeft) ∨
    (t.fairIndex = s.fairIndex + 1 ∧ ∃ b, s.turnInOrder = some b ∧ Takes s b) := by
  have hturn : s.turnInOrder ≠ none := fun hnone => by
    rw [turnInOrder_none.mp hnone a hmem] at ha
    cases ha
  rw [step, stepOnce] at hstep
  rcases chooseStep_cases s with ⟨-, hdue, e⟩ | ⟨-, b, hb, e⟩ | ⟨-, hnone, -⟩
  · rw [e] at hstep
    obtain ⟨hturns, hfair, hpatience⟩ := perform_sameChoices hstep
    have hless := choicesLeft_useTurn hfree (Bool.eq_false_iff.mpr (mt hdue hturn))
    refine .inl ⟨hfair.trans (State_useTurn_fairIndex s), ?_⟩
    rwa [State.choicesLeft, hturns, hpatience]
  · rw [e] at hstep
    exact .inr ⟨(perform_sameChoices hstep).fairIndex, b, hb, s.passTurn, e⟩
  · exact absurd hnone hturn

theorem mem_candidates_of_isBlockStep {s : State} {a : Turn} (hblock : isBlockStep a = true) (ha : allowed s a = true) :
    a ∈ s.candidates := by
  rcases mem_candidates ha with hmem | ⟨k, p, st, rfl⟩
  · exact hmem
  · cases hblock

section
variable {r : Nat → State} (hrun : IsRun r)
include hrun

theorem run_params (n : Nat) : (r n).params = (r 0).params := by
  induction n with
  | zero => rfl
  | succ n ih => exact (stepKeepsTheParameters _ _ (hrun n)).trans ih

theorem run_candidates (n : Nat) : (r n).candidates = (r 0).candidates := candidates_of_params (run_params hrun n)

theorem run_policy (n : Nat) : (r n).policy = (r 0).policy := congrArg Prod.fst (run_params hrun n)

variable (hfree : (r 0).policy = .free) {a : Turn} (hmem : a ∈ (r 0).candidates)
include hfree hmem

/-- While a step stays allowed, waiting choices come only finitely often before the rotation moves on. -/
theorem exists_turn_in_order {n : Nat} (hallowed : ∀ m, n ≤ m → allowed (r m) a = true) :
    ∃ m, n ≤ m ∧ (r m).fairIndex = (r n).fairIndex ∧ (r (m + 1)).fairIndex = (r n).fairIndex + 1 ∧
      ∃ b, (r m).turnInOrder = some b ∧ Takes (r m) b := by
  induction hleft : (r n).choicesLeft using Nat.strong_induction_on generalizing n with
  | h left ih =>
    subst hleft
    have hmem_n : a ∈ (r n).candidates := run_candidates hrun n ▸ hmem
    rcases step_progress ((run_policy hrun n).trans hfree) hmem_n (hallowed n le_rfl) (hrun n) with
      ⟨hstands, hless⟩ | ⟨hmoves, hturn⟩
    · obtain ⟨m, hm, hfair, hnext, hturn⟩ := ih _ hless (fun m hm => hallowed m (Nat.le_of_succ_le hm)) rfl
      exact ⟨m, Nat.le_of_succ_le hm, hfair.trans hstands, hnext.trans (congrArg (· + 1) hstands), hturn⟩
    · exact ⟨n, le_rfl, rfl, hmoves, hturn⟩

/-- A step that stays allowed and whose place is `d` places on in the rotation is taken. -/
theorem taken_of_place {n : Nat} (hallowed : ∀ m, n ≤ m → allowed (r m) a = true) {d : Nat}
    (hplace : (r 0).candidates[((r n).fairIndex + d) % (r 0).candidates.length]? = some a) :
    ∃ m, n ≤ m ∧ Takes (r m) a := by
  induction d generalizing n with
  | zero =>
    obtain ⟨m, hm, hfair, -, b, hturn, htakes⟩ := exists_turn_in_order hrun hfree hmem hallowed
    rw [Nat.add_zero, ← hfair, ← run_candidates hrun m] at hplace
    obtain rfl : b = a := Option.some.inj (hturn.symm.trans (turnInOrder_of_place hplace (hallowed m hm)))
    exact ⟨m, hm, htakes⟩
  | succ d ih =>
    obtain ⟨m, hm, -, hnext, -⟩ := exists_turn_in_order hrun hfree hmem hallowed
    have hlater : n ≤ m + 1 := Nat.le_succ_of_le hm
    rw [Nat.add_comm d 1, ← Nat.add_assoc, ← hnext] at hplace
    obtain ⟨m', hm', htakes⟩ := ih (fun m' hm' => hallowed m' (hlater.trans hm')) hplace
    exact ⟨m', hlater.trans hm', htakes⟩

end

/-- Every place of a rotation is some number of places on from where it stands. -/
theorem exists_places_on {α : Type} {l : List α} {a : α} (h : a ∈ l) (n : Nat) : ∃ d, l[(n + d) % l.length]? = some a := by
  obtain ⟨j, hj, rfl⟩ := List.mem_iff_getElem.mp h
  obtain ⟨len, hlen⟩ : ∃ len, l.length = len + 1 := Nat.exists_eq_succ_of_ne_zero (Nat.ne_zero_of_lt hj)
  refine ⟨len * n + j, ?_⟩
  have hplace : (n + (len * n + j)) % l.length = j := by
    calc (n + (len * n + j)) % l.length
      _ = (j + l.length * n) % l.length := by rw [hlen]; ring_nf
      _ = j % l.length := Nat.add_mul_mod_self_left j l.length n
      _ = j := Nat.mod_eq_of_lt hj
  rw [hplace, List.getElem?_eq_getElem hj]

/-- A run that begins under FREE is weakly fair: an enabled step may come under FREE, and the rotation reaches its place. -/
theorem weaklyFair_of_free {r : Nat → State} (hrun : IsRun r) (hfree : (r 0).policy = .free) : WeaklyFair r := by
  intro a n hblock henabled
  have hallowed : ∀ m, n ≤ m → allowed (r m) a = true := fun m hm =>
    allowed_of_enabled ((run_policy hrun m).trans hfree) (henabled m hm)
  have hmem : a ∈ (r 0).candidates :=
    run_candidates hrun n ▸ mem_candidates_of_isBlockStep hblock (hallowed n le_rfl)
  obtain ⟨d, hplace⟩ := exists_places_on hmem (r n).fairIndex
  exact taken_of_place hrun hfree hmem hallowed hplace

/-- Settles O10: the head of the list is taken where it may come, and runs under FREE are weakly fair. -/
theorem everyStepThePolicyAllowsCanComeNext : Obligations.EveryStepThePolicyAllowsCanComeNext :=
  ⟨fun _ _ _ hturns hmay => step_of_turn hturns (allowed_iff.mpr hmay), fun _ => weaklyFair_of_free⟩

end Sys2Proof.Machine
end

section
/-! What a callback's own operations come to (70_reset_and_hazards.md R330): they run on the unit whose overflow is
counted and whose log has the entry, and the service ends on the state they leave. -/

namespace Sys2Proof.Machine

/-- The unit as the operations of an invoked callback find it (44_callback_timer.md R204, R214). -/
def TimerUnit.inCallback (c : CallbackRef) (rest : List CallbackRun) (u : TimerUnit) : TimerUnit :=
  { logCallback c (countOverflow u) with cbEffect := rest }

theorem issueFromCallback_plain {i : Instr} {op : TimerUnit → OpResult} (h : plainOp i = some op) (s : State) :
    issueFromCallback s i = s.onUnit (finish op) := by
  cases i <;> cases h <;> rfl

theorem invoke_of_returns {s : State} {c : CallbackRef} {ops : List Instr} {rest : List CallbackRun}
    (h : s.unit.cbEffect = .returns ops :: rest) :
    invoke c s = ops.foldl issueFromCallback (s.onUnit fun u => { logCallback c u with cbEffect := rest }) := by
  have hlogged : (s.onUnit (logCallback c)).unit.cbEffect = .returns ops :: rest := h
  rw [invoke, callbackEffect, hlogged]
  rfl

theorem opSchedule_of_plan {ms : Word32} {u : TimerUnit} {p : TimerPlan} (h : planDelay u.cfg (val32 ms) = .ok p)
    (periodic : Bool) (callback : CallbackRef) :
    opSchedule periodic callback ms u = .ok (armSchedule periodic callback p u, 0) := by
  rw [opSchedule, h]

theorem rearm_oneShot {u : TimerUnit} (h : u.cb.periodic = false) (reload : Bool) :
    rearm reload u = completeOneShot u.restart := by
  rw [rearm_eq, h]
  rfl

/-- The service at its target, where the callback issues one operation that ends in a result. -/
theorem exec_onOverflow_of_callbackOperation {s : State} {c : CallbackRef} {rest : List CallbackRun} {i : Instr}
    {op : TimerUnit → OpResult} {u' : TimerUnit} {v : Word} (howner : s.unit.owner = .callback)
    (htarget : s.unit.cb.count + 1 = s.unit.cb.target) (hstored : s.unit.cb.callback = some c)
    (heffect : s.unit.cbEffect = .returns [i] :: rest) (hi : plainOp i = some op)
    (hop : op (s.unit.inCallback c rest) = .ok (u', v)) :
    exec .onOverflow s = .next { s with unit := (rearm true (u'.ret v)).ret 0 } := by
  have hends : serviceHangs s.unit = false := by simp [serviceHangs, heffect]
  have hinvoke : invoke c (s.onUnit countOverflow) = { s with unit := u'.ret v } := by
    rw [invoke_of_returns (s := s.onUnit countOverflow) heffect, List.foldl_cons, List.foldl_nil,
      issueFromCallback_plain hi]
    exact onUnit_eq (finish_ok hop)
  rw [exec_onOverflow hends, overflowBody_callback howner]
  rcases callbackService_cases true s with ⟨hn, -⟩ | ⟨-, hnone, -⟩ | ⟨-, c', hc', e⟩
  · exact absurd htarget hn
  · cases hnone.symm.trans hstored
  · obtain rfl : c' = c := Option.some.inj (hc'.symm.trans hstored)
    rw [e, hinvoke]
    rfl

/-- Settles O49: the schedule's or the engine's start runs on the unit in the callback, and the one-shot then completes
on what it left. -/
theorem callbackOperationsRunInsideTheService : Obligations.CallbackOperationsRunInsideTheService := by
  intro s c rest howner htarget hstored
  refine ⟨fun cb ms p heffect hplan => ?_, fun duty k heffect honce hconfig hextreme => ?_⟩
  · have hop := opSchedule_of_plan (u := s.unit.inCallback c rest) hplan false cb
    rw [exec_onOverflow_of_callbackOperation howner htarget hstored heffect rfl hop, rearm_oneShot rfl]
    rfl
  · have hop := opPwmStart_of_extreme (u := s.unit.inCallback c rest) hconfig hextreme
    have honce' : ((startConstant k.pin duty (s.unit.inCallback c rest)).ret 0).cb.periodic = false := honce
    rw [exec_onOverflow_of_callbackOperation howner htarget hstored heffect rfl hop, rearm_oneShot honce']
    rfl

end Sys2Proof.Machine
end
